-- ==== Sys2Proof/Word.lean ====
section
/-! DEFINITION. The bit-vector types that cross the ports of the engine (spec R90, R63, R28, R351). -/

namespace Sys2Proof

/-- One 32-bit command word (R90) or one 32-bit chain step word (R105). -/
abbrev Word := BitVec 32

/-- One transfer of the command stream: a 64-bit limb, a 64-bit CSR item, or one 32-bit word in the low
half (R63, R90, R97). -/
abbrev Beat := BitVec 64

end Sys2Proof
end

