-- ==== Sys2Proof/Config.lean ====
section
/-! DEFINITION. The static parameters of one RPE (R8, R9) and the model's one unspecified constant. -/

namespace Sys2Proof

/-- The static and sizing parameters of one RPE (R8, R9): fixed when the engine is built, changed by no
command. `P` is the field modulus, `W` the state width, `R` the rate; `maxRc`, `maxRp`, `maxChain` are the
depths MAXRC, MAXRP, MAXCHAIN and `limbs` is LIMBS. -/
structure Geometry where
  P : Nat
  W : Nat
  R : Nat
  maxRc : Nat
  maxRp : Nat
  maxChain : Nat
  limbs : Nat
  deriving DecidableEq, Repr

/-- `ceil(bitlen(P) / 64)`, the default of LIMBS (R9). -/
def Geometry.defaultLimbs (P : Nat) : Nat := (P.log2 + 1 + 63) / 64

/-- The engine that `State.reset` describes: the toy field and widths of the worked bring-up (R386), with the
default depths of R9. DESIGN CHOICE (log 1), unsafe if a claim rests on these numbers: R8 leaves `P`, `W`
and `R` open, and every statement about the machine is made for every geometry. -/
def Config.geometry : Geometry :=
  { P := 23, W := 3, R := 2, maxRc := 256, maxRp := 128, maxChain := 512, limbs := Geometry.defaultLimbs 23 }

/-- A value nothing constrains. It is read only in states that no run reaches: a chain step that refers past
the computed entries or a malformed step word (PCOMMIT refuses both, R162), an inverse S-box of a kind PCOMMIT
refuses (R154), and a buffer entry that the sponge's own invariant says is present (R25). Log 8. -/
opaque Config.unreachable : Nat → Nat

end Sys2Proof
end

