-- ==== Sys2Proof/Syntax.lean ====
section
/-! DEFINITION. The instructions: one constructor for each row of spec/opcode_table.json (R100, R105). -/

namespace Sys2Proof

/-- The nine parameter spaces (R61). -/
inductive Space where
  | rc | mds | ext | diag | mprime | sparse | orc | exp | chain
  deriving DecidableEq, Repr

/-- The five domain strategies (R230). -/
inductive Strategy where
  | fixedLength | variableLength | customFixedLength | customVariableLength | noPadding
  deriving DecidableEq, Repr

/-- One step of an addition chain (R105, R160, R161). -/
inductive ChainStep where
  | double (index : Nat)
  | add (left right : Nat)
  deriving DecidableEq, Repr

/-- The 38 commands (R100) and the two chain step words (R105). Every number is the natural number its field
encodes (R96). A command's payload is not part of the word: it follows in the command stream (R90, R99). -/
inductive Instr where
  | nop
  | rst
  | csrw (n : Nat)
  | csrr (n : Nat)
  | pwr (sp : Space) (idx : Nat)
  | prd (sp : Space) (idx : Nat)
  | pcommit
  | swr (i : Nat)
  | srd (i : Nat)
  | fadd (d a b : Nat)
  | fsub (d a b : Nat)
  | fneg (d a : Nat)
  | fmul (d a b : Nat)
  | fsqr (d a : Nat)
  | fpow (d a : Nat)
  | finv (d a : Nat)
  | sbf
  | sbfe (i : Nat)
  | sbi
  | sbie (i : Nat)
  | arc (r : Nat)
  | arc0 (r : Nat)
  | arco (r : Nat)
  | arco0 (r : Nat)
  | mds
  | mpr
  | spm (k : Nat)
  | exl
  | inl
  | permute
  | spnew
  | absorb
  | absorbn (n : Nat)
  | squeeze
  | squeezen (k : Nat)
  | hash (strat : Strategy)
  | dcap (strat : Strategy)
  | dpad (strat : Strategy)
  | chDbl (index : Nat)
  | chAdd (left right : Nat)
  deriving DecidableEq, Repr

/-- A chain step as the table row it is. -/
def ChainStep.toInstr : ChainStep → Instr
  | .double i => .chDbl i
  | .add l r => .chAdd l r

end Sys2Proof
end

