-- ==== Sys2Proof/WellFormed.lean ====
section
/-! DEFINITION. Which instructions have an encoding: every operand fits its field (R94, R95, R105). -/

namespace Sys2Proof

/-- A 20-bit immediate (R94). -/
def fitsImm (n : Nat) : Bool := decide (n < 2 ^ 20)

/-- An 8-bit register field (R95). -/
def fitsReg (i : Nat) : Bool := decide (i < 2 ^ 8)

/-- A 15-bit index of a chain step word (R105). -/
def fitsStepIndex (i : Nat) : Bool := decide (i < 2 ^ 15)

/-- Every operand of the instruction fits the field that encodes it. -/
def Instr.wellFormed : Instr → Bool
  | .nop => true
  | .rst => true
  | .csrw n => fitsImm n
  | .csrr n => fitsImm n
  | .pwr _ idx => fitsImm idx
  | .prd _ idx => fitsImm idx
  | .pcommit => true
  | .swr i => fitsImm i
  | .srd i => fitsImm i
  | .fadd d a b => fitsReg d && fitsReg a && fitsReg b
  | .fsub d a b => fitsReg d && fitsReg a && fitsReg b
  | .fneg d a => fitsReg d && fitsReg a
  | .fmul d a b => fitsReg d && fitsReg a && fitsReg b
  | .fsqr d a => fitsReg d && fitsReg a
  | .fpow d a => fitsReg d && fitsReg a
  | .finv d a => fitsReg d && fitsReg a
  | .sbf => true
  | .sbfe i => fitsImm i
  | .sbi => true
  | .sbie i => fitsImm i
  | .arc r => fitsImm r
  | .arc0 r => fitsImm r
  | .arco r => fitsImm r
  | .arco0 r => fitsImm r
  | .mds => true
  | .mpr => true
  | .spm k => fitsImm k
  | .exl => true
  | .inl => true
  | .permute => true
  | .spnew => true
  | .absorb => true
  | .absorbn n => fitsImm n
  | .squeeze => true
  | .squeezen k => fitsImm k
  | .hash _ => true
  | .dcap _ => true
  | .dpad _ => true
  | .chDbl i => fitsStepIndex i
  | .chAdd l r => fitsStepIndex l && fitsStepIndex r

/-- The instruction is a command of the command port (R100); the others are chain step words (R105), which
stand in space CHAIN and are run only by the chain interpreter. -/
def Instr.isCommand : Instr → Bool
  | .chDbl _ => false
  | .chAdd _ _ => false
  | .nop | .rst | .csrw _ | .csrr _ | .pwr _ _ | .prd _ _ | .pcommit | .swr _ | .srd _ | .fadd _ _ _
  | .fsub _ _ _ | .fneg _ _ | .fmul _ _ _ | .fsqr _ _ | .fpow _ _ | .finv _ _ | .sbf | .sbfe _ | .sbi
  | .sbie _ | .arc _ | .arc0 _ | .arco _ | .arco0 _ | .mds | .mpr | .spm _ | .exl | .inl | .permute | .spnew
  | .absorb | .absorbn _ | .squeeze | .squeezen _ | .hash _ | .dcap _ | .dpad _ => true

end Sys2Proof
end

