-- ==== Sys2Proof/Decode.lean ====
section
/-! DEFINITION. The decoder of command words (R90 to R104), the decoder of chain step words (R105), and the
encoder of both. -/

namespace Sys2Proof

/-- Why a word is illegal (R102) or a chain step word malformed (R105). -/
inductive DecodeError where
  /-- The opcode is not in the opcode map (R101). -/
  | reservedOpcode
  /-- A must-be-zero field is nonzero (R102). -/
  | nonzeroField
  /-- The selector is a reserved strategy code, 5 to 15 (R96). -/
  | reservedStrategy
  /-- The selector is a reserved space code, 9 to 15 (R61). -/
  | reservedSpace
  /-- Bit 30 of a step word is set, or a Double has a nonzero second index (R105). -/
  | malformedStep
  deriving DecidableEq, Repr

/-- The bit slice `w[hi:lo]` as the natural number it encodes (R11, R96). -/
def bitField (w : Word) (hi lo : Nat) : Nat := w.toNat / 2 ^ lo % 2 ^ (hi + 1 - lo)

/-- The space code of R61. -/
def Space.code : Space → Nat
  | .rc => 0 | .mds => 1 | .ext => 2 | .diag => 3 | .mprime => 4 | .sparse => 5 | .orc => 6 | .exp => 7
  | .chain => 8

/-- The space a 4-bit selector names; codes 9 to 15 are reserved (R61). -/
def Space.ofCode : Nat → Option Space
  | 0 => some .rc | 1 => some .mds | 2 => some .ext | 3 => some .diag | 4 => some .mprime
  | 5 => some .sparse | 6 => some .orc | 7 => some .exp | 8 => some .chain | _ => none

/-- The strategy code of R96. -/
def Strategy.code : Strategy → Nat
  | .fixedLength => 0 | .variableLength => 1 | .customFixedLength => 2 | .customVariableLength => 3
  | .noPadding => 4

/-- The strategy a 4-bit selector names; codes 5 to 15 are reserved (R96). -/
def Strategy.ofCode : Nat → Option Strategy
  | 0 => some .fixedLength | 1 => some .variableLength | 2 => some .customFixedLength
  | 3 => some .customVariableLength | 4 => some .noPadding | _ => none

/-- Format N: bits 31:8 must be zero (R93). -/
def decodeN (w : Word) (i : Instr) : Except DecodeError Instr :=
  if bitField w 31 8 = 0 then .ok i else .error .nonzeroField

/-- Format I with `sel = 0`: the immediate is bits 31:12 (R94). -/
def decodeI (w : Word) (make : Nat → Instr) : Except DecodeError Instr :=
  if bitField w 11 8 = 0 then .ok (make (bitField w 31 12)) else .error .nonzeroField

/-- Format I whose selector names a parameter space (R94, R61). -/
def decodeSpace (w : Word) (make : Space → Nat → Instr) : Except DecodeError Instr :=
  match Space.ofCode (bitField w 11 8) with
  | some sp => .ok (make sp (bitField w 31 12))
  | none => .error .reservedSpace

/-- Format I whose selector names a domain strategy; the immediate must be zero (R94, R102). -/
def decodeStrategy (w : Word) (make : Strategy → Instr) : Except DecodeError Instr :=
  if bitField w 31 12 = 0 then
    match Strategy.ofCode (bitField w 11 8) with
    | some st => .ok (make st)
    | none => .error .reservedStrategy
  else .error .nonzeroField

/-- Format T with three registers: `d` in 15:8, `a` in 23:16, `b` in 31:24 (R95). -/
def decodeT3 (w : Word) (make : Nat → Nat → Nat → Instr) : Except DecodeError Instr :=
  .ok (make (bitField w 15 8) (bitField w 23 16) (bitField w 31 24))

/-- Format T with two registers: `b` must be zero (R95). -/
def decodeT2 (w : Word) (make : Nat → Nat → Instr) : Except DecodeError Instr :=
  if bitField w 31 24 = 0 then .ok (make (bitField w 15 8) (bitField w 23 16)) else .error .nonzeroField

/-- The command word decoder: total, rejecting each illegal word of R102 by name. -/
def decode (w : Word) : Except DecodeError Instr :=
  match bitField w 7 0 with
  | 0x00 => decodeN w .nop
  | 0x01 => decodeN w .rst
  | 0x02 => decodeI w .csrw
  | 0x03 => decodeI w .csrr
  | 0x04 => decodeSpace w .pwr
  | 0x05 => decodeSpace w .prd
  | 0x06 => decodeN w .pcommit
  | 0x08 => decodeI w .swr
  | 0x09 => decodeI w .srd
  | 0x10 => decodeT3 w .fadd
  | 0x11 => decodeT3 w .fsub
  | 0x12 => decodeT2 w .fneg
  | 0x13 => decodeT3 w .fmul
  | 0x14 => decodeT2 w .fsqr
  | 0x15 => decodeT2 w .fpow
  | 0x16 => decodeT2 w .finv
  | 0x20 => decodeN w .sbf
  | 0x21 => decodeI w .sbfe
  | 0x22 => decodeN w .sbi
  | 0x23 => decodeI w .sbie
  | 0x28 => decodeI w .arc
  | 0x29 => decodeI w .arc0
  | 0x2A => decodeI w .arco
  | 0x2B => decodeI w .arco0
  | 0x2C => decodeN w .mds
  | 0x2D => decodeN w .mpr
  | 0x2E => decodeI w .spm
  | 0x2F => decodeN w .exl
  | 0x30 => decodeN w .inl
  | 0x38 => decodeN w .permute
  | 0x40 => decodeN w .spnew
  | 0x41 => decodeN w .absorb
  | 0x42 => decodeI w .absorbn
  | 0x43 => decodeN w .squeeze
  | 0x44 => decodeI w .squeezen
  | 0x45 => decodeStrategy w .hash
  | 0x46 => decodeStrategy w .dcap
  | 0x47 => decodeStrategy w .dpad
  | _ => .error .reservedOpcode

/-- The chain step word decoder (R105): bit 31 is the kind, bit 30 is reserved, `right` is 29:15 and must be
zero in a Double, `left` is 14:0. -/
def decodeStep (w : Word) : Except DecodeError ChainStep :=
  if bitField w 30 30 ≠ 0 then .error .malformedStep
  else if bitField w 31 31 = 0 then
    if bitField w 29 15 = 0 then .ok (.double (bitField w 14 0)) else .error .malformedStep
  else .ok (.add (bitField w 14 0) (bitField w 29 15))

/-- A format N word (R93). -/
def wordN (op : Nat) : Word := BitVec.ofNat 32 op

/-- A format I word (R94). -/
def wordI (op sel imm : Nat) : Word := BitVec.ofNat 32 (op + sel * 2 ^ 8 + imm * 2 ^ 12)

/-- A format T word (R95). -/
def wordT (op d a b : Nat) : Word := BitVec.ofNat 32 (op + d * 2 ^ 8 + a * 2 ^ 16 + b * 2 ^ 24)

/-- A chain step word (R105). -/
def wordStep (kind right left : Nat) : Word := BitVec.ofNat 32 (kind * 2 ^ 31 + right * 2 ^ 15 + left)

/-- The encoder, from the opcode map of R100 and the step word layout of R105. -/
def encode : Instr → Word
  | .nop => wordN 0x00
  | .rst => wordN 0x01
  | .csrw n => wordI 0x02 0 n
  | .csrr n => wordI 0x03 0 n
  | .pwr sp idx => wordI 0x04 sp.code idx
  | .prd sp idx => wordI 0x05 sp.code idx
  | .pcommit => wordN 0x06
  | .swr i => wordI 0x08 0 i
  | .srd i => wordI 0x09 0 i
  | .fadd d a b => wordT 0x10 d a b
  | .fsub d a b => wordT 0x11 d a b
  | .fneg d a => wordT 0x12 d a 0
  | .fmul d a b => wordT 0x13 d a b
  | .fsqr d a => wordT 0x14 d a 0
  | .fpow d a => wordT 0x15 d a 0
  | .finv d a => wordT 0x16 d a 0
  | .sbf => wordN 0x20
  | .sbfe i => wordI 0x21 0 i
  | .sbi => wordN 0x22
  | .sbie i => wordI 0x23 0 i
  | .arc r => wordI 0x28 0 r
  | .arc0 r => wordI 0x29 0 r
  | .arco r => wordI 0x2A 0 r
  | .arco0 r => wordI 0x2B 0 r
  | .mds => wordN 0x2C
  | .mpr => wordN 0x2D
  | .spm k => wordI 0x2E 0 k
  | .exl => wordN 0x2F
  | .inl => wordN 0x30
  | .permute => wordN 0x38
  | .spnew => wordN 0x40
  | .absorb => wordN 0x41
  | .absorbn n => wordI 0x42 0 n
  | .squeeze => wordN 0x43
  | .squeezen k => wordI 0x44 0 k
  | .hash st => wordI 0x45 st.code 0
  | .dcap st => wordI 0x46 st.code 0
  | .dpad st => wordI 0x47 st.code 0
  | .chDbl i => wordStep 0 0 i
  | .chAdd l r => wordStep 1 r l

/-- What the model reads from the bits of one row of the opcode table. A word that is a legal command is that
command, as at the command port; a word that is no command is read as a chain step word, as in space CHAIN.
(The two kinds overlap: 0x00000000 is NOP at the port and DBL 0 in the chain; log 5.) -/
def decodeTableWord (nbits w : Nat) : Option Instr :=
  if 32 < nbits then none
  else
    match decode (BitVec.ofNat 32 w) with
    | .ok i => some i
    | .error _ =>
      match decodeStep (BitVec.ofNat 32 w) with
      | .ok st => some st.toInstr
      | .error _ => none

end Sys2Proof
end

