-- ==== Sys2Proof/Machine/State.lean ====
section
/-! DEFINITION. The machine's state: everything the spec gives the engine (spec/10_state.md), the ports of the
host interface (R368), and the reasons for which the model stops. -/

namespace Sys2Proof.Machine

/-- The sponge mode (R24): bit 0 = Absorbing, 1 = Squeezing. -/
inductive Mode where
  | absorbing
  | squeezing
  deriving DecidableEq, Repr

/-- The response codes by name (R351). -/
inductive Code where
  | ok
  | squeezeNeedsPadding
  | misalignedVariableLengthInput
  | invalidConfiguration
  | unsupportedSboxExponent
  | illegalCommand
  | nonCanonicalOperand
  | paramsNotCommitted
  | paramsLocked
  | indexOutOfRange
  | inverseOfZero
  | faulted
  | illegalValue
  deriving DecidableEq, Repr

/-- One data item of a response (R97): a CSR item, a field element as its canonical integer (R63 lets a model
carry the natural number), a 64-bit limb, or a 32-bit chain step word. -/
inductive Item where
  | csr (v : BitVec 64)
  | elem (v : Nat)
  | limb (v : BitVec 64)
  | step (v : Word)
  deriving DecidableEq, Repr

/-- One response: the 8-bit status code and the data items (R98). -/
structure Response where
  code : BitVec 8
  items : List Item
  deriving DecidableEq, Repr

/-- One parameter space: the entries that are not 0, by entry index, indices strictly rising (R61). An index
that is not listed reads as 0, the reset value of every entry (R50). The engine has no byte addressing (R60),
so a cell is one entry. -/
structure Memory where
  cells : List (Nat × Nat)
  deriving DecidableEq, Repr

/-- The canonical form of a space: indices strictly rise and no listed entry is 0. -/
abbrev Memory.wf (m : Memory) : Prop :=
  m.cells.Pairwise (fun x y => x.1 < y.1) ∧ ∀ c ∈ m.cells, c.2 ≠ 0

/-- The parameter store: the nine spaces of R61 (R31 to R36). -/
structure ParamStore where
  rc : Memory
  mds : Memory
  ext : Memory
  diag : Memory
  mprime : Memory
  sparse : Memory
  orc : Memory
  exp : Memory
  chain : Memory
  deriving DecidableEq, Repr

/-- The writable control registers, CSRs 0 to 10, each as wide as its listed field: bits outside the field
cannot be written and read as 0 (R28). -/
structure Csrs where
  family : BitVec 2
  rf : BitVec 16
  rp : BitVec 16
  alpha : BitVec 64
  sboxinv : BitVec 2
  chainlen : BitVec 16
  rclen : BitVec 16
  ctrl : BitVec 1
  splen : BitVec 16
  orclen : BitVec 16
  hlen : BitVec 64
  deriving DecidableEq, Repr

/-- The reasons for which the model stops. The spec's own faults (R351) are not here: they are next states that
write STATUS.FAULT and STATUS.ERR (R356). -/
inductive Fault where
  /-- Raised by the meaning of CH.DBL and CH.ADD when no addition-chain run is in progress: the spec gives a
  chain step an effect only inside a run (R159). Safe: no run from reset gets there. -/
  | chainStepOutsideRun
  /-- Raised by a step of a chain run in progress whose step word is malformed: PCOMMIT refuses such a chain
  and R105 says a malformed step is never met during a run. Safe: no run from reset gets there. -/
  | malformedChainStep
  deriving DecidableEq, Repr

/-- The reasons for which the model has no meaning to give. -/
inductive Refusal where
  /-- Raised by an arm of exec whose instruction has no meaning yet. No arm is left that raises it. Safe. -/
  | notModelled (mnemonic : String)
  deriving DecidableEq, Repr

/-- What the engine is in the middle of: the hidden state of R27, R45 and R46. Every command runs as one step
(R45 and R207 let a model do so), so no command leaves the engine busy and a run from reset is always `idle`;
the two other states stand inside a command. `chain t` is an addition-chain run whose scratch list `T` is `t`
(the step index CP is its length less one); `permuting rnd ph` is a PERMUTE about to perform phase PH of round
RND. From them, `step` performs the next chain step or layer operation (log 3). -/
inductive Activity where
  | idle
  | chain (t : List Nat)
  | permuting (rnd ph : Nat)
  deriving DecidableEq, Repr

/-- The state of one RPE and its ports.

`geom` holds the static parameters (R8, R9), which no command changes and CSR GEOM shows. `regs` is `S` (R21),
`mode` is MODE (R24), `buf` is BUF (R25); `pvalid`, `fault` and `err` are the STATUS fields PVALID, FAULT and
ERR (R26); STATUS.MODE and STATUS.BUFCNT are views of `mode` and `buf`. `csr` holds CSRs 0 to 10 (R28) and
`params` the parameter store (R60). `activity` is the hidden state of a command in progress (R45), `idle`
between commands. `input` is what the host has sent and the engine has not consumed, the next transfer first;
`output` is every response the engine has given, the oldest first (R368). -/
structure State where
  geom : Geometry
  regs : List Nat
  mode : Mode
  buf : List (Option Nat)
  pvalid : Bool
  fault : Bool
  err : BitVec 8
  csr : Csrs
  params : ParamStore
  activity : Activity
  input : List Beat
  output : List Response
  deriving DecidableEq, Repr

/-- A space with every entry 0 (R50). -/
def Memory.empty : Memory := { cells := [] }

/-- Every space with every entry 0 (R50). -/
def ParamStore.empty : ParamStore :=
  { rc := .empty, mds := .empty, ext := .empty, diag := .empty, mprime := .empty, sparse := .empty
    orc := .empty, exp := .empty, chain := .empty }

/-- CSRs 0 to 10 all 0 (R50). -/
def Csrs.zero : Csrs :=
  { family := 0, rf := 0, rp := 0, alpha := 0, sboxinv := 0, chainlen := 0, rclen := 0, ctrl := 0
    splen := 0, orclen := 0, hlen := 0 }

/-- The reset state of an engine with the given static parameters (R50), with nothing sent and nothing
answered. -/
def State.resetOf (g : Geometry) : State :=
  { geom := g
    regs := List.replicate g.W 0
    mode := .absorbing
    buf := List.replicate g.R none
    pvalid := false
    fault := false
    err := 0
    csr := .zero
    params := .empty
    activity := .idle
    input := []
    output := [] }

/-- The machine right after power-on reset (R50, R380), for the geometry of log 1. -/
def State.reset : State := State.resetOf Config.geometry

end Sys2Proof.Machine
end

