-- ==== Sys2Proof/Machine/Ops.lean ====
section
/-! DEFINITION. The named operations over memory, registers and ports, fault entry (R356) and the way back from
a fault (R358), and the shell every command runs in (R90, R98, R99, R357, R359). -/

namespace Sys2Proof.Machine

/-- The outcome of one step of this machine. -/
abbrev Out := Host.Outcome State Fault Refusal

-- Memory

/-- The value an unlisted entry reads as: every entry of every space is 0 after reset (R50). -/
def Memory.unlisted : Nat := 0

/-- Looks an index up in a list of cells. -/
def lookupCell : List (Nat × Nat) → Nat → Nat
  | [], _ => Memory.unlisted
  | (k, v) :: rest, a => if a = k then v else lookupCell rest a

/-- Puts a value at an index, keeping indices rising and listing no entry that equals the unlisted value. -/
def insertCell : List (Nat × Nat) → Nat → Nat → List (Nat × Nat)
  | [], a, v => if v = Memory.unlisted then [] else [(a, v)]
  | (k, u) :: rest, a, v =>
    if a < k then
      if v = Memory.unlisted then (k, u) :: rest else (a, v) :: (k, u) :: rest
    else if a = k then
      if v = Memory.unlisted then rest else (a, v) :: rest
    else (k, u) :: insertCell rest a v

/-- `MemRead` of one entry of a space (R62). -/
def Memory.read (m : Memory) (idx : Nat) : Nat := lookupCell m.cells idx

/-- `MemWrite` of one entry of a space (R62). -/
def Memory.write (m : Memory) (idx v : Nat) : Memory := { cells := insertCell m.cells idx v }

/-- The space of the store that a space code names (R61). -/
def ParamStore.get (p : ParamStore) : Space → Memory
  | .rc => p.rc
  | .mds => p.mds
  | .ext => p.ext
  | .diag => p.diag
  | .mprime => p.mprime
  | .sparse => p.sparse
  | .orc => p.orc
  | .exp => p.exp
  | .chain => p.chain

/-- The store with one space replaced. -/
def ParamStore.set (p : ParamStore) (sp : Space) (m : Memory) : ParamStore :=
  match sp with
  | .rc => { p with rc := m }
  | .mds => { p with mds := m }
  | .ext => { p with ext := m }
  | .diag => { p with diag := m }
  | .mprime => { p with mprime := m }
  | .sparse => { p with sparse := m }
  | .orc => { p with orc := m }
  | .exp => { p with exp := m }
  | .chain => { p with chain := m }

/-- One parameter entry (R62). -/
def State.entry (s : State) (sp : Space) (idx : Nat) : Nat := (s.params.get sp).read idx

/-- The state with one parameter entry written (R62). -/
def State.setEntry (s : State) (sp : Space) (idx v : Nat) : State :=
  { s with params := s.params.set sp ((s.params.get sp).write idx v) }

-- Registers

/-- `S[i]` (R13, R21). -/
def State.reg (s : State) (i : Nat) : Nat := s.regs.getD i 0

/-- `S <- v`: all registers at once (R13). -/
def State.setRegs (s : State) (v : List Nat) : State := { s with regs := v }

/-- `S[i] <- v` (R13). -/
def State.setReg (s : State) (i v : Nat) : State := s.setRegs (s.regs.set i v)

/-- The sponge triple written at once: `S`, MODE, BUF (R250). -/
def State.setSponge (s : State) (v : List Nat) (m : Mode) (b : List (Option Nat)) : State :=
  { s with regs := v, mode := m, buf := b }

/-- `STATUS.PVALID <- 1` (R326). -/
def State.setPvalid (s : State) : State := { s with pvalid := true }

/-- The control registers replaced. -/
def State.setCsr (s : State) (c : Csrs) : State := { s with csr := c }

/-- The hidden state of a command in progress replaced (R45). -/
def State.setActivity (s : State) (a : Activity) : State := { s with activity := a }

-- Ports

/-- The host's transfers replaced. -/
def State.setInput (s : State) (l : List Beat) : State := { s with input := l }

/-- The engine consumes `n` transfers (R99). -/
def State.consume (s : State) (n : Nat) : State := s.setInput (s.input.drop n)

/-- The response code's byte (R351). -/
def Code.byte : Code → BitVec 8
  | .ok => 0x00
  | .squeezeNeedsPadding => 0x01
  | .misalignedVariableLengthInput => 0x02
  | .invalidConfiguration => 0x10
  | .unsupportedSboxExponent => 0x11
  | .illegalCommand => 0x20
  | .nonCanonicalOperand => 0x21
  | .paramsNotCommitted => 0x22
  | .paramsLocked => 0x23
  | .indexOutOfRange => 0x24
  | .inverseOfZero => 0x25
  | .faulted => 0x26
  | .illegalValue => 0x27

/-- The signals: recoverable reports that record no fault (R350, R351). -/
def Code.isSignal : Code → Bool
  | .squeezeNeedsPadding => true
  | .misalignedVariableLengthInput => true
  | .ok | .invalidConfiguration | .unsupportedSboxExponent | .illegalCommand | .nonCanonicalOperand
  | .paramsNotCommitted | .paramsLocked | .indexOutOfRange | .inverseOfZero | .faulted | .illegalValue => false

/-- The engine answers: one response, after those it has already given (R98). -/
def State.respond (s : State) (c : Code) (items : List Item) : State :=
  { s with output := s.output ++ [{ code := c.byte, items := items }] }

-- Fault entry and the way back

/-- `STATUS.FAULT <- 1` and `STATUS.ERR <- code`, unless a fault is already recorded (R356). -/
def State.recordFault (s : State) (c : Code) : State :=
  if s.fault then s else { s with fault := true, err := c.byte }

/-- `raise X` (R356): records the fault and answers with its code and no items. Nothing else is written and
control goes nowhere: the engine has no vector and no saved program counter (R365). -/
def State.raise (s : State) (c : Code) : State := (s.recordFault c).respond c []

/-- What a command that does not end in ok does (R15): a signal changes nothing and only answers (R354), a
fault is raised (R356). -/
def State.report (s : State) (c : Code) : State :=
  if c.isSignal then s.respond c [] else s.raise c

/-- Reset, the only way back from a fault (R358): every piece of architectural state at its reset value (R50);
the static parameters (R382) and what stands at the ports stay. A reset input asserted between commands has
the same effect (R380). -/
def State.resetArch (s : State) : State :=
  { State.resetOf s.geom with input := s.input, output := s.output }

-- The command shell

/-- Runs one command whose word stands first in the command stream and whose payload is the `beats` transfers
after it. While the payload is not complete the engine waits for the host and nothing changes. Then word and
payload are consumed, whatever the outcome (R99); a gated command on a faulted engine ends in `Faulted` (R357);
else `body` decides, from the payload, between `ok` with a new state and items, a signal and a fault. A body
answers an error before any write, so signals and faults are precise (R359). -/
def runCommand (gated : Bool) (beats : Nat)
    (body : State → List Beat → Except Code (State × List Item)) (s : State) : Out :=
  if s.input.length < 1 + beats then .next s
  else if gated && s.fault then .next ((s.consume (1 + beats)).raise .faulted)
  else
    match body (s.consume (1 + beats)) ((s.input.drop 1).take beats) with
    | .ok (t, items) => .next (t.respond .ok items)
    | .error c => .next ((s.consume (1 + beats)).report c)

-- Fetch

/-- The command word at the head of the stream: the low 32 bits of the next transfer (R90; log 4). -/
def State.fetchWord (s : State) : Option Word := s.input.head?.map (·.setWidth 32)

/-- The opcodes whose commands are not stopped by the fault gate: RST, CSRR, PRD and SRD (R357). -/
def ungatedOpcode (op : Nat) : Bool := op == 0x01 || op == 0x03 || op == 0x05 || op == 0x09

/-- What an illegal word does (R102): it consumes no payload and raises `IllegalCommand`, or `Faulted` when a
fault is already recorded and its opcode is one the fault gate stops (R360, R361). -/
def State.illegalWord (s : State) (w : Word) : State :=
  (s.consume 1).raise
    (if s.fault && !ungatedOpcode (bitField w 7 0) then .faulted else .illegalCommand)

end Sys2Proof.Machine
end

