-- ==== Sys2Proof/Machine/Operands.lean ====
section
/-! DEFINITION. The operand forms: payload items (R63, R97, R99), entry counts (R61), control-register numbers
(R28) and the bounds of index operands (R103). -/

namespace Sys2Proof.Machine

/-- The natural number of a list of 64-bit limbs, limb 0 least significant (R63, R65). -/
def limbsValue : List Nat → Nat
  | [] => 0
  | l :: rest => l + 2 ^ 64 * limbsValue rest

/-- A field-element item from its limbs (R63): the integer the host sent, canonical or not. -/
def elemOfBeats (bs : List Beat) : Nat := limbsValue (bs.map BitVec.toNat)

/-- The first `n` field-element items of a payload (R99). -/
def elemsOfBeats (limbs : Nat) : Nat → List Beat → List Nat
  | 0, _ => []
  | n + 1, bs => elemOfBeats (bs.take limbs) :: elemsOfBeats limbs n (bs.drop limbs)

/-- The 64-bit item at the head of a payload: a CSR item or a limb (R97). -/
def itemOfBeats (bs : List Beat) : Beat := bs.headD 0

/-- The limbs of a natural number, limb 0 first (R63): how the host sends an element. -/
def beatsOfElem : Nat → Nat → List Beat
  | 0, _ => []
  | k + 1, v => BitVec.ofNat 64 v :: beatsOfElem k (v / 2 ^ 64)

/-- The space holds field elements: spaces 0 to 6 (R61). -/
def holdsElements : Space → Bool
  | .rc | .mds | .ext | .diag | .mprime | .sparse | .orc => true
  | .exp | .chain => false

/-- How many entries a space has (R61). -/
def entryCount (g : Geometry) : Space → Nat
  | .rc => g.maxRc * g.W
  | .mds => g.W * g.W
  | .ext => g.W * g.W
  | .diag => g.W
  | .mprime => g.W * g.W
  | .sparse => g.maxRp * g.W * g.W
  | .orc => g.maxRc * g.W
  | .exp => g.limbs
  | .chain => g.maxChain

/-- The transfers of one payload item of a space's entry type (R97, R99). -/
def entryBeats (g : Geometry) (sp : Space) : Nat := if holdsElements sp then g.limbs else 1

/-- The entry a PWR payload carries: a field element, a 64-bit limb, or a 32-bit step word, which stands in the
low half of its transfer (R97; log 4). -/
def entryOfBeats (sp : Space) (bs : List Beat) : Nat :=
  match sp with
  | .rc | .mds | .ext | .diag | .mprime | .sparse | .orc => elemOfBeats bs
  | .exp => (itemOfBeats bs).toNat
  | .chain => ((itemOfBeats bs).setWidth 32).toNat

/-- The response item of one entry of a space (R97). -/
def entryItem (sp : Space) (v : Nat) : Item :=
  match sp with
  | .rc | .mds | .ext | .diag | .mprime | .sparse | .orc => .elem v
  | .exp => .limb (BitVec.ofNat 64 v)
  | .chain => .step (BitVec.ofNat 32 v)

/-- The control registers by name (R28). -/
inductive CsrId where
  | family | rf | rp | alpha | sboxinv | chainlen | rclen | ctrl | splen | orclen | hlen | status | geom
  deriving DecidableEq, Repr

/-- The register a CSR number names; numbers 13 and above are reserved (R28). -/
def csrOfNumber : Nat → Option CsrId
  | 0 => some .family | 1 => some .rf | 2 => some .rp | 3 => some .alpha | 4 => some .sboxinv
  | 5 => some .chainlen | 6 => some .rclen | 7 => some .ctrl | 8 => some .splen | 9 => some .orclen
  | 10 => some .hlen | 11 => some .status | 12 => some .geom | _ => none

/-- The width of the register's field bits, which start at bit 0 (R28). The two read-only registers are as
wide as they read. -/
def csrWidth : CsrId → Nat
  | .family => 2 | .rf => 16 | .rp => 16 | .alpha => 64 | .sboxinv => 2 | .chainlen => 16 | .rclen => 16
  | .ctrl => 1 | .splen => 16 | .orclen => 16 | .hlen => 64 | .status => 32 | .geom => 48

/-- STATUS and GEOM are read-only (R28). -/
def csrReadOnly : CsrId → Bool
  | .status | .geom => true
  | .family | .rf | .rp | .alpha | .sboxinv | .chainlen | .rclen | .ctrl | .splen | .orclen | .hlen => false

/-- CSRs 0 to 9 are locked while the parameters are committed (R28). -/
def csrLockable : CsrId → Bool
  | .family | .rf | .rp | .alpha | .sboxinv | .chainlen | .rclen | .ctrl | .splen | .orclen => true
  | .hlen | .status | .geom => false

/-- The control registers with one of them written: the field takes the value's low bits (R322). STATUS and
GEOM hold no writable field. -/
def Csrs.write (c : Csrs) (v : BitVec 64) : CsrId → Csrs
  | .family => { c with family := v.setWidth 2 }
  | .rf => { c with rf := v.setWidth 16 }
  | .rp => { c with rp := v.setWidth 16 }
  | .alpha => { c with alpha := v }
  | .sboxinv => { c with sboxinv := v.setWidth 2 }
  | .chainlen => { c with chainlen := v.setWidth 16 }
  | .rclen => { c with rclen := v.setWidth 16 }
  | .ctrl => { c with ctrl := v.setWidth 1 }
  | .splen => { c with splen := v.setWidth 16 }
  | .orclen => { c with orclen := v.setWidth 16 }
  | .hlen => { c with hlen := v }
  | .status => c
  | .geom => c

/-- A register or element index in range (R95, R103). -/
def State.regOk (s : State) (i : Nat) : Bool := decide (i < s.geom.W)

end Sys2Proof.Machine
end

