-- ==== Sys2Proof/Machine/Flags.lean ====
section
/-! DEFINITION. The status flags (R26) and the two read-only registers that show them: STATUS and GEOM (R28).
No command computes an arithmetic flag: the engine has no condition codes (R26). -/

namespace Sys2Proof.Machine

/-- BUFCNT: how many buffer entries are present (R25). -/
def State.bufCount (s : State) : Nat := s.buf.countP Option.isSome

/-- The MODE bit (R24). -/
def Mode.bit : Mode → Nat
  | .absorbing => 0
  | .squeezing => 1

/-- CSR STATUS (R28): PVALID at bit 0, MODE at 1, FAULT at 2, ERR at 15:8, BUFCNT at 31:16. -/
def State.statusWord (s : State) : BitVec 64 :=
  BitVec.ofNat 64 (s.pvalid.toNat + 2 * s.mode.bit + 4 * s.fault.toNat + 2 ^ 8 * s.err.toNat
    + 2 ^ 16 * (s.bufCount % 2 ^ 16))

/-- CSR GEOM (R28): W at bits 15:0, R at 31:16, LIMBS at 47:32. -/
def State.geomWord (s : State) : BitVec 64 :=
  BitVec.ofNat 64 (s.geom.W % 2 ^ 16 + 2 ^ 16 * (s.geom.R % 2 ^ 16) + 2 ^ 32 * (s.geom.limbs % 2 ^ 16))

/-- The value a control register reads as; unlisted bits are 0 (R28, R323). -/
def State.csrValue (s : State) : CsrId → BitVec 64
  | .family => s.csr.family.setWidth 64
  | .rf => s.csr.rf.setWidth 64
  | .rp => s.csr.rp.setWidth 64
  | .alpha => s.csr.alpha
  | .sboxinv => s.csr.sboxinv.setWidth 64
  | .chainlen => s.csr.chainlen.setWidth 64
  | .rclen => s.csr.rclen.setWidth 64
  | .ctrl => s.csr.ctrl.setWidth 64
  | .splen => s.csr.splen.setWidth 64
  | .orclen => s.csr.orclen.setWidth 64
  | .hlen => s.csr.hlen
  | .status => s.statusWord
  | .geom => s.geomWord

-- The run-time configuration as numbers (R10)

/-- `RF`. -/
def State.rf (s : State) : Nat := s.csr.rf.toNat

/-- `RP`. -/
def State.rp (s : State) : Nat := s.csr.rp.toNat

/-- `h = RF / 2`, the number of leading full rounds of Poseidon and Poseidon2 (R19). -/
def State.half (s : State) : Nat := s.rf / 2

/-- `CHAINLEN`. -/
def State.chainLen (s : State) : Nat := s.csr.chainlen.toNat

/-- `RCLEN`. -/
def State.rcLen (s : State) : Nat := s.csr.rclen.toNat

/-- `SPLEN`. -/
def State.spLen (s : State) : Nat := s.csr.splen.toNat

/-- `ORCLEN`. -/
def State.orcLen (s : State) : Nat := s.csr.orclen.toNat

/-- `HLEN`. -/
def State.hLen (s : State) : Nat := s.csr.hlen.toNat

/-- `CTRL.OPT = 1`. -/
def State.opt (s : State) : Bool := s.csr.ctrl == 1

end Sys2Proof.Machine
end

