-- ==== Sys2Proof/Machine/Arith.lean ====
section
/-! DEFINITION. The field-arithmetic datapath as functions on canonical integers (R120 to R129). -/

namespace Sys2Proof.Machine

/-- `a +F b` (R121). -/
def fieldAdd (P a b : Nat) : Nat := (a + b) % P

/-- `a -F b` (R122). -/
def fieldSub (P a b : Nat) : Nat := (a + P - b) % P

/-- `-F a` (R123). -/
def fieldNeg (P a : Nat) : Nat := (P - a) % P

/-- `a *F b` (R124). -/
def fieldMul (P a b : Nat) : Nat := (a * b) % P

/-- `sqr(a)` (R125). -/
def fieldSqr (P a : Nat) : Nat := fieldMul P a a

/-- Square-and-multiply on the lowest `bits` bits of the exponent. -/
def fieldPowBits (P a : Nat) : Nat → Nat → Nat
  | 0, _ => 1
  | bits + 1, e =>
    let half := fieldSqr P (fieldPowBits P a bits (e / 2))
    if e % 2 = 1 then fieldMul P half a else half

/-- `a ^F e` (R126); its value is `a ^ e mod P` (Laws: fieldPow_eq), which R126 lets any algorithm compute. -/
def fieldPow (P a e : Nat) : Nat := fieldPowBits P a (e.log2 + 1) e

/-- `inv(a) = a ^F (P - 2)` (R127). The command FINV refuses 0 (R136). -/
def fieldInv (P a : Nat) : Nat := fieldPow P a (P - 2)

/-- A sum with `+F` (R170). -/
def fieldSum (P : Nat) (xs : List Nat) : Nat := xs.foldl (fieldAdd P) 0

/-- From-canonical-int is defined only below `P` (R129). -/
def canonical (P v : Nat) : Bool := decide (v < P)

/-- An element nothing constrains, for reads no run reaches (log 8). -/
def freeElem (P key : Nat) : Nat := Config.unreachable key % P

end Sys2Proof.Machine
end

