-- ==== Sys2Proof/Machine/Field.lean ====
section
/-! DEFINITION. The commands FADD, FSUB, FNEG, FMUL, FSQR, FPOW, FINV (R130 to R137). -/

namespace Sys2Proof.Machine

/-- The exponent `EXP` that space EXP holds (R35). -/
def State.expValue (s : State) : Nat := limbsValue ((List.range s.geom.limbs).map (s.entry .exp))

/-- A three-register command (R137): `S[d] <- f S[a] S[b]`, sources read before the destination is written. -/
def threeRegister (f : Nat → Nat → Nat → Nat) (d a b : Nat) (s : State) : Out :=
  runCommand true 0
    (fun s _ =>
      if !(s.regOk d && s.regOk a && s.regOk b) then .error .indexOutOfRange
      else .ok (s.setReg d (f s.geom.P (s.reg a) (s.reg b)), []))
    s

/-- A two-register command without further checks (R137): `S[d] <- f S[a]`. -/
def twoRegister (f : Nat → Nat → Nat) (d a : Nat) (s : State) : Out :=
  runCommand true 0
    (fun s _ =>
      if !(s.regOk d && s.regOk a) then .error .indexOutOfRange
      else .ok (s.setReg d (f s.geom.P (s.reg a)), []))
    s

/-- FADD (R130). -/
def execFadd (d a b : Nat) (s : State) : Out := threeRegister fieldAdd d a b s

/-- FSUB (R131). -/
def execFsub (d a b : Nat) (s : State) : Out := threeRegister fieldSub d a b s

/-- FNEG (R132). -/
def execFneg (d a : Nat) (s : State) : Out := twoRegister fieldNeg d a s

/-- FMUL (R133). -/
def execFmul (d a b : Nat) (s : State) : Out := threeRegister fieldMul d a b s

/-- FSQR (R134). -/
def execFsqr (d a : Nat) (s : State) : Out := twoRegister fieldSqr d a s

/-- FPOW (R135): the exponent is always that of space EXP, whatever SBOXINV says. -/
def execFpow (d a : Nat) (s : State) : Out :=
  runCommand true 0
    (fun s _ =>
      if !(s.regOk d && s.regOk a) then .error .indexOutOfRange
      else if !s.pvalid then .error .paramsNotCommitted
      else .ok (s.setReg d (fieldPow s.geom.P (s.reg a) s.expValue), []))
    s

/-- FINV (R136). -/
def execFinv (d a : Nat) (s : State) : Out :=
  runCommand true 0
    (fun s _ =>
      if !(s.regOk d && s.regOk a) then .error .indexOutOfRange
      else if s.reg a = 0 then .error .inverseOfZero
      else .ok (s.setReg d (fieldInv s.geom.P (s.reg a)), []))
    s

end Sys2Proof.Machine
end

