-- ==== Sys2Proof/Machine/Sbox.lean ====
section
/-! DEFINITION. The S-box functions (R150, R154), the addition-chain interpreter (R159 to R163) and the chain
steps CH.DBL and CH.ADD. The lanes of R158 are not observable: SBF and SBI are maps. -/

namespace Sys2Proof.Machine

/-- The forward S-box `((x²)²)·x` (R150). -/
def sboxForward (P x : Nat) : Nat := fieldMul P (fieldSqr P (fieldSqr P x)) x

/-- An entry of a scratch list. A valid chain reads only computed entries (R159); any other is free (log 8). -/
def scratchRead (P : Nat) (t : List Nat) (i : Nat) : Nat := t.getD i (freeElem P i)

/-- The entry CH.DBL computes (R160). -/
def doubledEntry (P : Nat) (t : List Nat) (index : Nat) : Nat := fieldSqr P (scratchRead P t index)

/-- The entry CH.ADD computes (R161). -/
def addedEntry (P : Nat) (t : List Nat) (left right : Nat) : Nat :=
  fieldMul P (scratchRead P t left) (scratchRead P t right)

/-- The entry one chain step computes (R159). -/
def chainEntry (P : Nat) (t : List Nat) : ChainStep → Nat
  | .double i => doubledEntry P t i
  | .add l r => addedEntry P t l r

/-- One interpreter step on a scratch list: the new entry goes to the end, no entry is overwritten (R159). -/
def chainAppend (P : Nat) (t : List Nat) (w : Word) : List Nat :=
  match decodeStep w with
  | .ok st => t ++ [chainEntry P t st]
  | .error _ => t ++ [freeElem P t.length]

/-- The words of a chain run one after another (R159). -/
def chainScratch (P : Nat) (t : List Nat) (ws : List Word) : List Nat := ws.foldl (chainAppend P) t

/-- `chain(x)`: the last entry of the run seeded with `x` (R159). -/
def chainValue (P : Nat) (ws : List Word) (x : Nat) : Nat := scratchRead P (chainScratch P [x] ws) ws.length

/-- The step word `CHAIN[t]` (R36). -/
def State.chainWord (s : State) (t : Nat) : Word := BitVec.ofNat 32 (s.entry .chain t)

/-- `CHAIN[0] .. CHAIN[CHAINLEN-1]`, the words that are part of the chain (R36). -/
def State.chainWords (s : State) : List Word := (List.range s.chainLen).map s.chainWord

/-- The exponents of a scratch list after one more step (R163). -/
def chainExpAppend (e : List Nat) (w : Word) : List Nat :=
  match decodeStep w with
  | .ok (.double i) => e ++ [2 * e.getD i 0]
  | .ok (.add l r) => e ++ [e.getD l 0 + e.getD r 0]
  | .error _ => e ++ [0]

/-- `cexp(n)`, the exponent of a chain over the naturals (R163). Meaningful for a valid chain only. -/
def chainExponent (ws : List Word) : Nat := (ws.foldl chainExpAppend [1]).getD ws.length 0

/-- Step `t` of a chain is well formed and refers only to entries already computed (R162). -/
def chainStepValid (t : Nat) (w : Word) : Bool :=
  match decodeStep w with
  | .ok (.double i) => decide (i ≤ t)
  | .ok (.add l r) => decide (l ≤ t) && decide (r ≤ t)
  | .error _ => false

/-- Every step of a chain is valid, the first standing at step `t` (R162). -/
def chainValidFrom : Nat → List Word → Bool
  | _, [] => true
  | t, w :: ws => chainStepValid t w && chainValidFrom (t + 1) ws

/-- The inverse S-box selected by SBOXINV (R154). PCOMMIT admits the kinds 1 and 2 only; the value for another
kind is free (log 8). -/
def State.sboxInverse (s : State) (x : Nat) : Nat :=
  match s.csr.sboxinv.toNat with
  | 1 => fieldPow s.geom.P x s.expValue
  | 2 => chainValue s.geom.P s.chainWords x
  | _ => freeElem s.geom.P x

/-- The exponent the inverse S-box descriptor carries: `EXP` or `cexp` (R155). -/
def State.inverseExponent (s : State) : Nat :=
  if s.csr.sboxinv.toNat = 2 then chainExponent s.chainWords else s.expValue

-- The chain steps as instructions

/-- The step word the interpreter takes next in a run with scratch list `t`: `CHAIN[CP]` with `CP` the length
of the list less one, while `CP < CHAINLEN` (R45, R159). -/
def State.fetchChainWord (s : State) (t : List Nat) : Option Word :=
  if t.length - 1 < s.chainLen then some (s.chainWord (t.length - 1)) else none

/-- CH.DBL (R160): `T[t+1] <- sqr(T[index])` in the run in progress. -/
def execChDbl (index : Nat) (s : State) : Out :=
  match s.activity with
  | .chain t => .next (s.setActivity (.chain (t ++ [doubledEntry s.geom.P t index])))
  | .idle => .fault .chainStepOutsideRun
  | .permuting _ _ => .fault .chainStepOutsideRun

/-- CH.ADD (R161): `T[t+1] <- T[left] *F T[right]` in the run in progress. -/
def execChAdd (left right : Nat) (s : State) : Out :=
  match s.activity with
  | .chain t => .next (s.setActivity (.chain (t ++ [addedEntry s.geom.P t left right])))
  | .idle => .fault .chainStepOutsideRun
  | .permuting _ _ => .fault .chainStepOutsideRun

end Sys2Proof.Machine
end

