-- ==== Sys2Proof/Machine/Linear.lean ====
section
/-! DEFINITION. Round-constant additions and linear layers as functions on the register list (R170 to R182). -/

namespace Sys2Proof.Machine

/-- A matrix as its rows. -/
abbrev Mat := List (List Nat)

/-- `M[i][j]` (R12). -/
def Mat.entry (m : Mat) (i j : Nat) : Nat := (m.getD i []).getD j 0

/-- The matrix with `rows` rows and `cols` columns whose entry at row `i` and column `j` is `f i j`. -/
def matOf (rows cols : Nat) (f : Nat → Nat → Nat) : Mat :=
  (List.range rows).map fun i => (List.range cols).map (f i)

/-- The W×W matrix of a space that starts at entry `base`, row-major (R61). -/
def State.matrixAt (s : State) (sp : Space) (base : Nat) : Mat :=
  matOf s.geom.W s.geom.W fun i j => s.entry sp (base + i * s.geom.W + j)

/-- The matrix that is a whole space: MDS, EXT or MPRIME (R32 to R34). -/
def State.matrix (s : State) (sp : Space) : Mat := s.matrixAt sp 0

/-- `SPARSE[k]` (R34). -/
def State.sparseMatrix (s : State) (k : Nat) : Mat := s.matrixAt .sparse (k * s.geom.W * s.geom.W)

/-- The W-vector number `r` of a space of vectors: `RC[r]` or `ORC[r]` (R31, R34), or `DIAG` with `r = 0`. -/
def State.vector (s : State) (sp : Space) (r : Nat) : List Nat :=
  (List.range s.geom.W).map fun j => s.entry sp (r * s.geom.W + j)

/-- The sum of two vectors, element by element. -/
def vecAdd (P : Nat) (v c : List Nat) : List Nat := List.zipWith (fieldAdd P) v c

/-- Only element 0 gets the constant (R172, R174). -/
def addFirst (P : Nat) (v : List Nat) (c : Nat) : List Nat := v.set 0 (fieldAdd P (v.getD 0 0) c)

/-- `vecmat(s, M)[j] = sum over i of s[i] *F M[i][j]`: the state is a row vector (R170). -/
def vecmat (P W : Nat) (v : List Nat) (m : Mat) : List Nat :=
  (List.range W).map fun j => fieldSum P ((List.range W).map fun i => fieldMul P (v.getD i 0) (m.entry i j))

/-- The sparse product: only row 0 and column 0 of the matrix are read (R178). -/
def sparseMul (P W : Nat) (v : List Nat) (q : Mat) : List Nat :=
  (List.range W).map fun j =>
    if j = 0 then fieldSum P ((List.range W).map fun i => fieldMul P (v.getD i 0) (q.entry i 0))
    else fieldAdd P (fieldMul P (v.getD 0 0) (q.entry 0 j)) (v.getD j 0)

/-- Poseidon2's internal layer: `((DIAG[i] -F 1) *F S[i]) +F sum(S)` (R180). -/
def internalLayer (P : Nat) (v diag : List Nat) : List Nat :=
  let t := fieldSum P v
  List.zipWith (fun x d => fieldAdd P (fieldMul P (fieldSub P d 1) x) t) v diag

/-- One element replaced by its image (R153, R157). -/
def mapAt (f : Nat → Nat) (i : Nat) (v : List Nat) : List Nat := v.set i (f (v.getD i 0))

end Sys2Proof.Machine
end

