-- ==== Sys2Proof/Machine/Layers.lean ====
section
/-! DEFINITION. The layer operations, each once, both as commands (R152, R153, R156, R157, R171 to R180) and as
what the sequencer's expansions are made of (R92). -/

namespace Sys2Proof.Machine

/-- A layer operation (R19). -/
inductive Layer where
  | sbf
  | sbfe (i : Nat)
  | sbi
  | sbie (i : Nat)
  | arc (r : Nat)
  | arc0 (r : Nat)
  | arco (r : Nat)
  | arco0 (r : Nat)
  | mds
  | mpr
  | spm (k : Nat)
  | exl
  | inl
  deriving DecidableEq, Repr

/-- The command that performs a layer operation (R92). -/
def Layer.command : Layer → Instr
  | .sbf => .sbf
  | .sbfe i => .sbfe i
  | .sbi => .sbi
  | .sbie i => .sbie i
  | .arc r => .arc r
  | .arc0 r => .arc0 r
  | .arco r => .arco r
  | .arco0 r => .arco0 r
  | .mds => .mds
  | .mpr => .mpr
  | .spm k => .spm k
  | .exl => .exl
  | .inl => .inl

/-- The new register list of a layer operation, every element computed from the old ones (R13, R175). -/
def applyLayer (s : State) : Layer → List Nat → List Nat
  | .sbf, v => v.map (sboxForward s.geom.P)
  | .sbfe i, v => mapAt (sboxForward s.geom.P) i v
  | .sbi, v => v.map s.sboxInverse
  | .sbie i, v => mapAt s.sboxInverse i v
  | .arc r, v => vecAdd s.geom.P v (s.vector .rc r)
  | .arc0 r, v => addFirst s.geom.P v (s.entry .rc (r * s.geom.W))
  | .arco r, v => vecAdd s.geom.P v (s.vector .orc r)
  | .arco0 r, v => addFirst s.geom.P v (s.entry .orc (r * s.geom.W))
  | .mds, v => vecmat s.geom.P s.geom.W v (s.matrix .mds)
  | .mpr, v => vecmat s.geom.P s.geom.W v (s.matrix .mprime)
  | .spm k, v => sparseMul s.geom.P s.geom.W v (s.sparseMatrix k)
  | .exl, v => vecmat s.geom.P s.geom.W v (s.matrix .ext)
  | .inl, v => internalLayer s.geom.P v (s.vector .diag 0)

/-- A sequence of layer operations, each on what the one before left (R207). -/
def applyLayers (s : State) (ls : List Layer) (v : List Nat) : List Nat :=
  ls.foldl (fun v l => applyLayer s l v) v

/-- The shell of a layer command (R175): an operand beyond its static bound, uncommitted parameters, an operand
at or beyond its committed length, in that order; then `S` is replaced. -/
def layerCommand (inBound inLength : State → Bool) (l : Layer) (s : State) : Out :=
  runCommand true 0
    (fun s _ =>
      if !inBound s then .error .indexOutOfRange
      else if !s.pvalid then .error .paramsNotCommitted
      else if !inLength s then .error .indexOutOfRange
      else .ok (s.setRegs (applyLayer s l s.regs), []))
    s

/-- No operand to check. -/
def noBound (_ : State) : Bool := true

/-- SBF (R152). -/
def execSbf (s : State) : Out := layerCommand noBound noBound .sbf s

/-- SBFE (R153). -/
def execSbfe (i : Nat) (s : State) : Out := layerCommand (fun s => s.regOk i) noBound (.sbfe i) s

/-- SBI (R156). -/
def execSbi (s : State) : Out := layerCommand noBound noBound .sbi s

/-- SBIE (R157). -/
def execSbie (i : Nat) (s : State) : Out := layerCommand (fun s => s.regOk i) noBound (.sbie i) s

/-- ARC (R171). -/
def execArc (r : Nat) (s : State) : Out :=
  layerCommand (fun s => decide (r < s.geom.maxRc)) (fun s => decide (r < s.rcLen)) (.arc r) s

/-- ARC0 (R172). -/
def execArc0 (r : Nat) (s : State) : Out :=
  layerCommand (fun s => decide (r < s.geom.maxRc)) (fun s => decide (r < s.rcLen)) (.arc0 r) s

/-- ARCO (R173). -/
def execArco (r : Nat) (s : State) : Out :=
  layerCommand (fun s => decide (r < s.geom.maxRc)) (fun s => decide (r < s.orcLen)) (.arco r) s

/-- ARCO0 (R174). -/
def execArco0 (r : Nat) (s : State) : Out :=
  layerCommand (fun s => decide (r < s.geom.maxRc)) (fun s => decide (r < s.orcLen)) (.arco0 r) s

/-- MDS (R176). -/
def execMds (s : State) : Out := layerCommand noBound noBound .mds s

/-- MPR (R177). -/
def execMpr (s : State) : Out := layerCommand noBound noBound .mpr s

/-- SPM (R178). -/
def execSpm (k : Nat) (s : State) : Out :=
  layerCommand (fun s => decide (k < s.geom.maxRp)) (fun s => decide (k < s.spLen)) (.spm k) s

/-- EXL (R179). -/
def execExl (s : State) : Out := layerCommand noBound noBound .exl s

/-- INL (R180). -/
def execInl (s : State) : Out := layerCommand noBound noBound .inl s

end Sys2Proof.Machine
end

