-- ==== Sys2Proof/Machine/Permutation.lean ====
section
/-! DEFINITION. The four permutations as fixed sequences of layer operations, and PERMUTE (R190 to R208). -/

namespace Sys2Proof.Machine

/-- The layers `pre`, which stand before a round, as the first phases of that round; alone if no round follows.
DESIGN CHOICE (log 3): R45 and R207 give no `(RND, PH)` to the layers that R192, R203 and R205 list outside the
rounds. Counting them to the round they precede keeps `RND` from 0 to the family's last round, as R207 says. The
order of the layers, and with it every result, does not depend on this. -/
def leadWith (pre : List Layer) : List (List Layer) → List (List Layer)
  | [] => [pre]
  | round :: rest => (pre ++ round) :: rest

/-- Rescue (R192), round by round. The first addition, `ARC 0`, counts to round 0 (DESIGN CHOICE, log 3). -/
def rescueRounds (rf : Nat) : List (List Layer) :=
  leadWith [.arc 0] ((List.range (2 * rf)).map fun round =>
    [if round % 2 = 0 then .sbi else .sbf, .mds, .arc (round + 1)])

/-- RescuePrime (R195). -/
def rescuePrimeRounds (rf : Nat) : List (List Layer) :=
  (List.range rf).map fun i => [.sbf, .mds, .arc (2 * i), .sbi, .mds, .arc (2 * i + 1)]

/-- Poseidon, the naive schedule (R197). -/
def poseidonRounds (rf rp : Nat) : List (List Layer) :=
  (List.range (rf + rp)).map fun r =>
    [.arc r, if r < rf / 2 ∨ rf / 2 + rp ≤ r then .sbf else .sbfe 0, .mds]

/-- The full rounds `a .. a+n-1` of the optimised Poseidon schedule (R203). -/
def optFullRounds (a n : Nat) : List (List Layer) :=
  (List.range n).map fun i => [.arco (a + i), .sbf, .mds]

/-- The partial rounds `1 .. RP` of the optimised Poseidon schedule; the last adds no constant (R203). -/
def optPartialRounds (h rp : Nat) : List (List Layer) :=
  (List.range rp).map fun i =>
    if i + 1 < rp then [.sbfe 0, .arco0 (h + i + 1), .spm i] else [.sbfe 0, .spm i]

/-- Poseidon, the optimised schedule (R203). The transitional `ARCO h; MPR` counts to round `h`, the first partial
round, whose constants it adds (DESIGN CHOICE, log 3). -/
def poseidonOptRounds (rf rp : Nat) : List (List Layer) :=
  optFullRounds 0 (rf / 2) ++ leadWith [.arco (rf / 2), .mpr]
    (optPartialRounds (rf / 2) rp ++ optFullRounds (rf / 2 + rp) (rf - rf / 2))

/-- The full rounds `a .. a+n-1` of Poseidon2 (R205). -/
def poseidon2FullRounds (a n : Nat) : List (List Layer) :=
  (List.range n).map fun i => [.arc (a + i), .sbf, .exl]

/-- The partial rounds `a .. a+n-1` of Poseidon2 (R205). -/
def poseidon2PartialRounds (a n : Nat) : List (List Layer) :=
  (List.range n).map fun i => [.arc0 (a + i), .sbfe 0, .inl]

/-- Poseidon2 (R205). The external layer before the first full round counts to round 0 (DESIGN CHOICE, log 3). -/
def poseidon2Rounds (rf rp : Nat) : List (List Layer) :=
  leadWith [.exl] (poseidon2FullRounds 0 (rf / 2) ++ poseidon2PartialRounds (rf / 2) rp
    ++ poseidon2FullRounds (rf / 2 + rp) (rf - rf / 2))

/-- The rounds of PERMUTE for the configured family and schedule (R190). -/
def State.rounds (s : State) : List (List Layer) :=
  match s.csr.family.toNat with
  | 0 => rescueRounds s.rf
  | 1 => if s.opt then poseidonOptRounds s.rf s.rp else poseidonRounds s.rf s.rp
  | 2 => poseidon2Rounds s.rf s.rp
  | _ => rescuePrimeRounds s.rf

/-- The expansion of PERMUTE: its layer operations in order (R190, R207). -/
def State.expansion (s : State) : List Layer := s.rounds.flatten

/-- `permute(v)` under the committed parameters (R190, R191). -/
def State.permute (s : State) (v : List Nat) : List Nat := applyLayers s s.expansion v

/-- PERMUTE (R190). After its entry checks it cannot fault (R208). -/
def execPermute (s : State) : Out :=
  runCommand true 0
    (fun s _ =>
      if !s.pvalid then .error .paramsNotCommitted else .ok (s.setRegs (s.permute s.regs), []))
    s

-- The sequencer, layer by layer (R207)

/-- The layer operation at phase `ph` of round `rnd` (R45). Which round the layers outside the rounds count to is
the model's choice (`leadWith`, log 3). -/
def State.layerAt (s : State) (rnd ph : Nat) : Option Layer := (s.rounds.getD rnd [])[ph]?

/-- The position after `(rnd, ph)`: the next phase of the round, or the first of the next round (R45, R207). -/
def State.nextPosition (s : State) (rnd ph : Nat) : Activity :=
  if ph + 1 < (s.rounds.getD rnd []).length then .permuting rnd (ph + 1) else .permuting (rnd + 1) 0

/-- One layer operation of a PERMUTE in progress; past the last one the counters are dead (R45, R207).
DESIGN CHOICE (log 3): one further step finds that no layer is left and makes the engine idle, and this run appends
no response. R207 speaks of the final registers of a run layer by layer, not of when its response is given; the ok
response of PERMUTE is that of the command as one step (`execPermute`). -/
def State.sequencerStep (s : State) (rnd ph : Nat) : State :=
  match s.layerAt rnd ph with
  | some l => (s.setRegs (applyLayer s l s.regs)).setActivity (s.nextPosition rnd ph)
  | none => s.setActivity .idle

end Sys2Proof.Machine
end

