-- ==== Sys2Proof/Machine/Domain.lean ====
section
/-! DEFINITION. The domain strategies, DCAP and DPAD (R230 to R240). -/

namespace Sys2Proof.Machine

/-- `cap(strat, n)`: the capacity value as a field element, if the strategy has one (R231 to R237). -/
def capacityValue (P R : Nat) (st : Strategy) (n : Nat) : Option Nat :=
  match st with
  | .fixedLength => some ((n * 2 ^ 64 + (R - 1)) % P)
  | .variableLength => some ((2 ^ 64 + (R - 1)) % P)
  | .customFixedLength => some (n % P)
  | .customVariableLength => none
  | .noPadding => none

/-- `pad(strat, n)`: the padding elements, or `none` for the signal MisalignedVariableLengthInput (R232 to
R237). VariableLength always pads (R233); NoPadding is as CustomVariableLength (R236).
-/
def paddingValues (R : Nat) (st : Strategy) (n : Nat) : Option (List Nat) :=
  match st with
  | .fixedLength => some (List.replicate ((R - n % R) % R) 0)
  | .variableLength => some (1 :: List.replicate (R - n % R - 1) 0)
  | .customFixedLength => some (List.replicate ((R - n % R) % R) 0)
  | .customVariableLength => if n % R = 0 then some [] else none
  | .noPadding => if n % R = 0 then some [] else none

/-- DCAP (R238): a flag and an element. -/
def execDcap (st : Strategy) (s : State) : Out :=
  runCommand true 0
    (fun s _ =>
      match capacityValue s.geom.P s.geom.R st s.hLen with
      | some v => .ok (s, [.csr 1, .elem v])
      | none => .ok (s, [.csr 0, .elem 0]))
    s

/-- DPAD (R239): a count and that many elements, or the signal. -/
def execDpad (st : Strategy) (s : State) : Out :=
  runCommand true 0
    (fun s _ =>
      match paddingValues s.geom.R st s.hLen with
      | some p => .ok (s, .csr (BitVec.ofNat 64 p.length) :: p.map .elem)
      | none => .error .misalignedVariableLengthInput)
    s

end Sys2Proof.Machine
end

