-- ==== Sys2Proof/Machine/Sponge.lean ====
section
/-! DEFINITION. The sponge unit: SPNEW, ABSORB, ABSORBN, SQUEEZE, SQUEEZEN, HASH (R250 to R260). -/

namespace Sys2Proof.Machine

/-- An empty buffer (R25). -/
def State.emptyBuf (s : State) : List (Option Nat) := List.replicate s.geom.R none

/-- The SPNEW effect: all-zero state, Absorbing, empty buffer (R251). -/
def State.newSponge (s : State) : State :=
  s.setSponge (List.replicate s.geom.W 0) .absorbing s.emptyBuf

/-- `value(BUF[i])`. The sponge reads only entries that are present (R250); any other is free (log 8). -/
def State.bufValue (s : State) (i : Nat) : Nat := (s.buf.getD i none).getD (freeElem s.geom.P i)

/-- `S` with the buffer added into its first `R` elements (R253). -/
def State.blockAdded (s : State) : List Nat :=
  (List.range s.geom.W).map fun i =>
    if i < s.geom.R then fieldAdd s.geom.P (s.reg i) (s.bufValue i) else s.reg i

/-- `absorb_block()`: add the buffer, permute, clear the buffer (R253). -/
def State.absorbBlock (s : State) : State := s.setSponge (s.permute s.blockAdded) s.mode s.emptyBuf

/-- Squeezing: the unread output is dropped and `S` kept; Absorbing: nothing (R252). -/
def State.toAbsorbing (s : State) : State :=
  match s.mode with
  | .squeezing => s.setSponge s.regs .absorbing s.emptyBuf
  | .absorbing => s

/-- The push of one element: `BUF[BUFCNT] <- some(x)` (R252). -/
def State.push (s : State) (x : Nat) : State :=
  s.setSponge s.regs s.mode (s.buf.set s.bufCount (some x))

/-- `absorb(x)` (R252). The block step is eager: it runs as soon as the buffer holds `R` elements. -/
def State.absorbOne (s : State) (x : Nat) : State :=
  let t := s.toAbsorbing.push x
  if t.bufCount = t.geom.R then t.absorbBlock else t

/-- The copy of the rate part into the buffer: `BUF[i] <- some(S[i])` for `i < R` (R255). -/
def State.rateCopy (s : State) : List (Option Nat) := (List.range s.geom.R).map fun i => some (s.reg i)

/-- The first half of `squeeze()` (R255): from Absorbing to Squeezing with a copy of the rate part, a full
buffer being absorbed first; `none` is the signal SqueezeNeedsPadding. -/
def State.toSqueezing (s : State) : Option State :=
  match s.mode with
  | .squeezing => some s
  | .absorbing =>
    if 0 < s.bufCount ∧ s.bufCount < s.geom.R then none
    else
      let t := if s.bufCount = s.geom.R then s.absorbBlock else s
      some (t.setSponge t.regs .squeezing t.rateCopy)

/-- When everything is read, permute and copy the rate part again (R255). -/
def State.refill (s : State) : State :=
  if s.bufCount = 0 then
    let t := s.setRegs (s.permute s.regs)
    t.setSponge t.regs t.mode t.rateCopy
  else s

/-- The lowest unread element is taken from the buffer (R255). -/
def State.takeUnread (s : State) : Nat × State :=
  let j := s.geom.R - s.bufCount
  (s.bufValue j, s.setSponge s.regs s.mode (s.buf.set j none))

/-- `squeeze()` (R255): the output element and the new state, or `none` for SqueezeNeedsPadding. -/
def State.squeezeOne (s : State) : Option (Nat × State) :=
  match s.toSqueezing with
  | some t => some t.refill.takeUnread
  | none => none

/-- `k` executions of `squeeze()` and their outputs in order (R257). -/
def State.squeezeMany : Nat → State → Option (List Nat × State)
  | 0, s => some ([], s)
  | k + 1, s =>
    match s.squeezeOne with
    | none => none
    | some (v, t) =>
      match State.squeezeMany k t with
      | none => none
      | some (vs, u) => some (v :: vs, u)

/-- A fold of `absorb` in order (R254). -/
def State.absorbMany (s : State) (xs : List Nat) : State := xs.foldl State.absorbOne s

/-- The capacity element written to the last register, if the strategy has one (R258). -/
def State.setCapacity (s : State) (c : Option Nat) : State :=
  match c with
  | some v => s.setReg (s.geom.W - 1) v
  | none => s

/-- The state of HASH when input and padding have been absorbed (R258). -/
def State.hashAbsorbed (s : State) (st : Strategy) (xs pad : List Nat) : State :=
  (s.newSponge.setCapacity (capacityValue s.geom.P s.geom.R st s.hLen)).absorbMany (xs ++ pad)

/-- SPNEW (R251). -/
def execSpnew (s : State) : Out := runCommand true 0 (fun s _ => .ok (s.newSponge, [])) s

/-- The absorbing commands: every element checked, then the parameters, then the fold (R252, R254). -/
def absorbCommand (n : Nat) (s : State) : Out :=
  runCommand true (n * s.geom.limbs)
    (fun s payload =>
      let xs := elemsOfBeats s.geom.limbs n payload
      if !xs.all (canonical s.geom.P) then .error .nonCanonicalOperand
      else if !s.pvalid then .error .paramsNotCommitted
      else .ok (s.absorbMany xs, []))
    s

/-- ABSORB (R252). -/
def execAbsorb (s : State) : Out := absorbCommand 1 s

/-- ABSORBN (R254). -/
def execAbsorbn (n : Nat) (s : State) : Out := absorbCommand n s

/-- The squeezing commands (R255, R257). -/
def squeezeCommand (k : Nat) (s : State) : Out :=
  runCommand true 0
    (fun s _ =>
      if !s.pvalid then .error .paramsNotCommitted
      else
        match s.squeezeMany k with
        | some (vs, t) => .ok (t, vs.map .elem)
        | none => .error .squeezeNeedsPadding)
    s

/-- SQUEEZE (R255). -/
def execSqueeze (s : State) : Out := squeezeCommand 1 s

/-- SQUEEZEN (R257). -/
def execSqueezen (k : Nat) (s : State) : Out := squeezeCommand k s

/-- HASH (R258): `HLEN` elements of payload; the outputs are those of `R` executions of `squeeze()`. The last
arm cannot be reached: the padded input fills whole blocks (R258). -/
def execHash (st : Strategy) (s : State) : Out :=
  runCommand true (s.hLen * s.geom.limbs)
    (fun s payload =>
      let xs := elemsOfBeats s.geom.limbs s.hLen payload
      if !xs.all (canonical s.geom.P) then .error .nonCanonicalOperand
      else if !s.pvalid then .error .paramsNotCommitted
      else
        match paddingValues s.geom.R st s.hLen with
        | none => .error .misalignedVariableLengthInput
        | some pad =>
          match (s.hashAbsorbed st xs pad).squeezeMany s.geom.R with
          | some (vs, t) => .ok (t, vs.map .elem)
          | none => .error .squeezeNeedsPadding)
    s

end Sys2Proof.Machine
end

