-- ==== Sys2Proof/Machine/Commit.lean ====
section
/-! DEFINITION. The commit checks K1 to K13 of R327, one function each. -/

namespace Sys2Proof.Machine

/-- The first row whose head is not 0, and the other rows. -/
def splitPivot (P : Nat) : Mat → Option (List Nat × Mat)
  | [] => none
  | row :: rest =>
    if row.headD 0 % P ≠ 0 then some (row, rest)
    else
      match splitPivot P rest with
      | some (p, others) => some (p, row :: others)
      | none => none

/-- A row less the multiple of the pivot row that clears its head; the head is dropped. -/
def clearHead (P : Nat) (pivot row : List Nat) : List Nat :=
  let f := fieldMul P (row.headD 0) (fieldInv P (pivot.headD 0))
  List.zipWith (fun x y => fieldSub P x (fieldMul P f y)) row.tail pivot.tail

/-- Elimination: every column of an n×n matrix finds a pivot, which decides `det != 0` (R327: any method
that decides it will do). -/
def nonsingular (P : Nat) : Nat → Mat → Bool
  | 0, _ => true
  | n + 1, m =>
    match splitPivot P m with
    | none => false
    | some (pivot, rest) => nonsingular P n (rest.map (clearHead P pivot))

/-- `5 * e ≡ 1 (mod P-1)` (K9, K11). -/
def invertsFive (P e : Nat) : Bool := 5 * e % (P - 1) == 1 % (P - 1)

/-- K1: `ALPHA = 5`. -/
def State.k1 (s : State) : Bool := s.csr.alpha == 5

/-- K2: `RF >= 1`. -/
def State.k2 (s : State) : Bool := decide (1 ≤ s.rf)

/-- K3: the lengths fit the depths. -/
def State.k3 (s : State) : Bool :=
  decide (s.rcLen ≤ s.geom.maxRc) && decide (s.orcLen ≤ s.geom.maxRc) && decide (s.spLen ≤ s.geom.maxRp)
    && decide (s.chainLen ≤ s.geom.maxChain)

/-- K4, Rescue. -/
def State.k4 (s : State) : Bool :=
  s.csr.family.toNat != 0 || (s.rp == 0 && s.rcLen == 2 * s.rf + 1)

/-- K5, RescuePrime. -/
def State.k5 (s : State) : Bool :=
  s.csr.family.toNat != 3 || (s.rp == 0 && s.rcLen == 2 * s.rf)

/-- K6, Poseidon. -/
def State.k6 (s : State) : Bool :=
  s.csr.family.toNat != 1 || (s.rf % 2 == 0 && decide (1 ≤ s.rp) && s.rcLen == s.rf + s.rp)

/-- K7, Poseidon2. -/
def State.k7 (s : State) : Bool :=
  s.csr.family.toNat != 2 || (s.rf % 2 == 0 && decide (1 ≤ s.rp) && s.rcLen == s.rf + s.rp
    && (s.geom.W == 2 || s.geom.W == 3 || s.geom.W % 4 == 0))

/-- K8: the inverse S-box descriptor is of a kind that exists. -/
def State.k8 (s : State) : Bool := s.csr.sboxinv.toNat == 1 || s.csr.sboxinv.toNat == 2

/-- K9: the direct exponent inverts 5. -/
def State.k9 (s : State) : Bool :=
  s.csr.sboxinv.toNat != 1 || (decide (1 ≤ s.expValue) && invertsFive s.geom.P s.expValue)

/-- K10: every step of the chain is valid. -/
def State.k10 (s : State) : Bool := s.csr.sboxinv.toNat != 2 || chainValidFrom 0 s.chainWords

/-- K11: the chain's exponent inverts 5. -/
def State.k11 (s : State) : Bool :=
  s.csr.sboxinv.toNat != 2 || invertsFive s.geom.P (chainExponent s.chainWords)

/-- K12: `det(MDS) != 0`, for the families that use MDS. -/
def State.k12 (s : State) : Bool :=
  s.csr.family.toNat == 2 || nonsingular s.geom.P s.geom.W (s.matrix .mds)

/-- `MPRIME` has the first row and first column of the identity (R296). -/
def State.mprimeShape (s : State) : Bool :=
  (s.matrix .mprime).entry 0 0 == 1 &&
    (List.range s.geom.W).all fun j =>
      j == 0 || ((s.matrix .mprime).entry 0 j == 0 && (s.matrix .mprime).entry j 0 == 0)

/-- A sparse matrix is the identity off row 0 and column 0 (R181, R296). -/
def sparseShape (W : Nat) (q : Mat) : Bool :=
  (List.range W).all fun i => (List.range W).all fun j =>
    i == 0 || j == 0 || q.entry i j == (if i = j then 1 else 0)

/-- The single constants of the optimised partial rounds: `ORC[h+k][j] = 0` for `k = 1 .. RP-1` and `j >= 1`
(R296). -/
def State.orcShape (s : State) : Bool :=
  (List.range s.rp).all fun k => k == 0 || (List.range s.geom.W).all fun j =>
    j == 0 || s.entry .orc ((s.half + k) * s.geom.W + j) == 0

/-- K13: the lengths and shapes of the optimisation bundle, for Poseidon with CTRL.OPT = 1. -/
def State.k13 (s : State) : Bool :=
  !(s.csr.family.toNat == 1 && s.opt) || (s.orcLen == s.rf + s.rp && s.spLen == s.rp && s.mprimeShape
    && ((List.range s.rp).all fun k => sparseShape s.geom.W (s.sparseMatrix k)) && s.orcShape)

/-- `WellFormed` of R326: the conjunction of the checks K2 to K13. -/
def State.commitChecks (s : State) : Bool :=
  s.k2 && s.k3 && s.k4 && s.k5 && s.k6 && s.k7 && s.k8 && s.k9 && s.k10 && s.k11 && s.k12 && s.k13

end Sys2Proof.Machine
end

