-- ==== Sys2Proof/Machine/HostCommands.lean ====
section
/-! DEFINITION. The host, configuration and commit commands: NOP, RST, CSRW, CSRR, PWR, PRD, PCOMMIT, SWR, SRD
(R320 to R332). -/

namespace Sys2Proof.Machine

/-- NOP (R320). -/
def execNop (s : State) : Out := runCommand true 0 (fun s _ => .ok (s, [])) s

/-- RST (R321): never refused with `Faulted`. -/
def execRst (s : State) : Out := runCommand false 0 (fun s _ => .ok (s.resetArch, [])) s

/-- CSRW (R322). -/
def execCsrw (n : Nat) (s : State) : Out :=
  runCommand true 1
    (fun s payload =>
      match csrOfNumber n with
      | none => .error .indexOutOfRange
      | some id =>
        if csrReadOnly id then .error .illegalCommand
        else if csrLockable id && s.pvalid then .error .paramsLocked
        else if 2 ^ csrWidth id ≤ (itemOfBeats payload).toNat then .error .illegalValue
        else .ok (s.setCsr (s.csr.write (itemOfBeats payload) id), []))
    s

/-- CSRR (R323): runs on a faulted engine, and reading changes nothing. -/
def execCsrr (n : Nat) (s : State) : Out :=
  runCommand false 0
    (fun s _ =>
      match csrOfNumber n with
      | none => .error .indexOutOfRange
      | some id => .ok (s, [.csr (s.csrValue id)]))
    s

/-- PWR (R324). -/
def execPwr (sp : Space) (idx : Nat) (s : State) : Out :=
  runCommand true (entryBeats s.geom sp)
    (fun s payload =>
      if entryCount s.geom sp ≤ idx then .error .indexOutOfRange
      else if holdsElements sp && !canonical s.geom.P (entryOfBeats sp payload) then .error .nonCanonicalOperand
      else if s.pvalid then .error .paramsLocked
      else .ok (s.setEntry sp idx (entryOfBeats sp payload), []))
    s

/-- PRD (R325): runs on a faulted engine. -/
def execPrd (sp : Space) (idx : Nat) (s : State) : Out :=
  runCommand false 0
    (fun s _ =>
      if entryCount s.geom sp ≤ idx then .error .indexOutOfRange
      else .ok (s, [entryItem sp (s.entry sp idx)]))
    s

/-- PCOMMIT (R326). -/
def execPcommit (s : State) : Out :=
  runCommand true 0
    (fun s _ =>
      if s.pvalid then .ok (s, [])
      else if !s.k1 then .error .unsupportedSboxExponent
      else if !s.commitChecks then .error .invalidConfiguration
      else .ok (s.setPvalid, []))
    s

/-- SWR (R328). -/
def execSwr (i : Nat) (s : State) : Out :=
  runCommand true s.geom.limbs
    (fun s payload =>
      if !s.regOk i then .error .indexOutOfRange
      else if !canonical s.geom.P (elemOfBeats payload) then .error .nonCanonicalOperand
      else .ok (s.setReg i (elemOfBeats payload), []))
    s

/-- SRD (R329): runs on a faulted engine. -/
def execSrd (i : Nat) (s : State) : Out :=
  runCommand false 0
    (fun s _ => if !s.regOk i then .error .indexOutOfRange else .ok (s, [.elem (s.reg i)]))
    s

end Sys2Proof.Machine
end

