-- ==== Sys2Proof/Machine/Dispatch.lean ====
section
/-! DEFINITION. One arm per instruction, each one call of its meaning. -/

namespace Sys2Proof.Machine

-- One command, or one chain step of a run in progress (R90, R159).
def exec (i : Instr) (s : State) : Host.Outcome State Fault Refusal :=
  match i with
  | .nop => Sys2Proof.Machine.execNop s
  | .rst => Sys2Proof.Machine.execRst s
  | .csrw n => Sys2Proof.Machine.execCsrw n s
  | .csrr n => Sys2Proof.Machine.execCsrr n s
  | .pwr sp idx => Sys2Proof.Machine.execPwr sp idx s
  | .prd sp idx => Sys2Proof.Machine.execPrd sp idx s
  | .pcommit => Sys2Proof.Machine.execPcommit s
  | .swr r => Sys2Proof.Machine.execSwr r s
  | .srd r => Sys2Proof.Machine.execSrd r s
  | .fadd d a b => Sys2Proof.Machine.execFadd d a b s
  | .fsub d a b => Sys2Proof.Machine.execFsub d a b s
  | .fneg d a => Sys2Proof.Machine.execFneg d a s
  | .fmul d a b => Sys2Proof.Machine.execFmul d a b s
  | .fsqr d a => Sys2Proof.Machine.execFsqr d a s
  | .fpow d a => Sys2Proof.Machine.execFpow d a s
  | .finv d a => Sys2Proof.Machine.execFinv d a s
  | .sbf => Sys2Proof.Machine.execSbf s
  | .sbfe e => Sys2Proof.Machine.execSbfe e s
  | .sbi => Sys2Proof.Machine.execSbi s
  | .sbie e => Sys2Proof.Machine.execSbie e s
  | .arc r => Sys2Proof.Machine.execArc r s
  | .arc0 r => Sys2Proof.Machine.execArc0 r s
  | .arco r => Sys2Proof.Machine.execArco r s
  | .arco0 r => Sys2Proof.Machine.execArco0 r s
  | .mds => Sys2Proof.Machine.execMds s
  | .mpr => Sys2Proof.Machine.execMpr s
  | .spm k => Sys2Proof.Machine.execSpm k s
  | .exl => Sys2Proof.Machine.execExl s
  | .inl => Sys2Proof.Machine.execInl s
  | .permute => Sys2Proof.Machine.execPermute s
  | .spnew => Sys2Proof.Machine.execSpnew s
  | .absorb => Sys2Proof.Machine.execAbsorb s
  | .absorbn n => Sys2Proof.Machine.execAbsorbn n s
  | .squeeze => Sys2Proof.Machine.execSqueeze s
  | .squeezen k => Sys2Proof.Machine.execSqueezen k s
  | .hash st => Sys2Proof.Machine.execHash st s
  | .dcap st => Sys2Proof.Machine.execDcap st s
  | .dpad st => Sys2Proof.Machine.execDpad st s
  | .chDbl index => Sys2Proof.Machine.execChDbl index s
  | .chAdd left right => Sys2Proof.Machine.execChAdd left right s

end Sys2Proof.Machine
end

