-- ==== Sys2Proof/Machine/HostParams.lean ====
section
/-! DEFINITION. What the host computes before it loads the engine (R280 to R297): constants, the Cauchy matrix,
the inverse exponent, the binary chain, the Poseidon optimisation bundle. No command runs any of it (R6); the
premise `bundleConsistent` of R204 is stated through it. -/

namespace Sys2Proof.Machine

/-- What R285 leaves open of the constant generator: the hash `XOF32` to 32 bytes, the fixed prefix, the nonce
encoding `enc`, the digest map `int` and the family's tag (log 16). -/
structure ConstantSource where
  xof32 : List (BitVec 8) → List (BitVec 8)
  tag : List (BitVec 8)
  fixedPrefix : List (BitVec 8)
  enc : Nat → List (BitVec 8)
  int : List (BitVec 8) → Nat

/-- The element one nonce gives: `int(XOF32(tag ‖ PREFIX ‖ enc(nonce))) mod P` (R284). -/
def ConstantSource.residue (src : ConstantSource) (P nonce : Nat) : Nat :=
  src.int (src.xof32 (src.tag ++ src.fixedPrefix ++ src.enc nonce)) % P

/-- The loop of R284 from the nonce `nonce` on: nonzero residues until `need` of them are there. `tries` bounds the
nonces looked at (log 16); `none` when they are used up before. -/
def collectConstants (src : ConstantSource) (P : Nat) : Nat → Nat → Nat → Option (List Nat)
  | _, _, 0 => some []
  | 0, _, _ + 1 => none
  | tries + 1, nonce, need + 1 =>
    let v := src.residue P nonce
    if v = 0 then collectConstants src P tries (nonce + 1) (need + 1)
    else (collectConstants src P tries (nonce + 1) need).map (v :: ·)

/-- `N`, the number of constant vectors of a family (R284): Rescue, Poseidon, Poseidon2, RescuePrime. -/
def constantVectors (family rf rp : Nat) : Nat :=
  match family with
  | 0 => 2 * rf + 1
  | 3 => 2 * rf
  | _ => rf + rp

/-- The generator of round constants (R284): from nonce 0 on, `W * N` nonzero elements. -/
def generateConstants (src : ConstantSource) (P W family rf rp tries : Nat) : Option (List Nat) :=
  collectConstants src P tries 0 (W * constantVectors family rf rp)

/-- Fill order: `RC[r][j] = out[r*W + j]` (R286). -/
def constantVector (W : Nat) (out : List Nat) (r : Nat) : List Nat :=
  (List.range W).map fun j => out.getD (r * W + j) 0

/-- The constant vectors `RC[0] .. RC[N-1]` that the host loads (R284, R286). -/
def generateVectors (src : ConstantSource) (P W family rf rp tries : Nat) : Option (List (List Nat)) :=
  (generateConstants src P W family rf rp tries).map fun out =>
    (List.range (constantVectors family rf rp)).map (constantVector W out)

/-- The ascending pass of batch inversion: the running product before each entry, and the whole product of the
nonzero entries (R287). -/
def prefixProducts (P : Nat) : Nat → List Nat → List Nat × Nat
  | acc, [] => ([], acc)
  | acc, v :: vs =>
    let r := prefixProducts P (if v = 0 then acc else fieldMul P acc v) vs
    (acc :: r.1, r.2)

/-- The descending pass, on the reversed list: `out[i] = t *F pre[i]`, then `t = t *F v[i]`; zeros stay
(R287). -/
def unwindInverse (P : Nat) : Nat → List (Nat × Nat) → List Nat
  | _, [] => []
  | t, (v, pre) :: rest =>
    if v = 0 then 0 :: unwindInverse P t rest
    else fieldMul P t pre :: unwindInverse P (fieldMul P t v) rest

/-- Batch inversion with a single field inversion; zero entries are left in place (R287). -/
def batchInverse (P : Nat) (v : List Nat) : List Nat :=
  let r := prefixProducts P 1 v
  (unwindInverse P (fieldInv P r.2) ((v.zip r.1).reverse)).reverse

/-- The precondition of R288: `W` nodes `x` and `W` nodes `y`, field elements, all `2W` pairwise different. -/
def cauchyNodesOk (P W : Nat) (x y : List Nat) : Bool :=
  x.length == W && y.length == W && (x ++ y).all (fun v => decide (v < P)) && decide (x ++ y).Nodup

/-- The Cauchy matrix `M[i][j] = 1/(x_i - y_j)` by one batch inversion over the differences (R288); `none` for
nodes that do not meet the precondition. -/
def cauchyMatrix (P W : Nat) (x y : List Nat) : Option Mat :=
  if cauchyNodesOk P W x y then
    let inv := batchInverse P
      ((List.range (W * W)).map fun n => fieldSub P (x.getD (n / W) 0) (y.getD (n % W) 0))
    some (matOf W W fun i j => inv.getD (i * W + j) 0)
  else none

/-- `alpha_inv`: the `e` with `1 <= e < P-1` and `5 * e ≡ 1 (mod P-1)` (R290). Such an `e` is
`(k * (P-1) + 1) / 5` for one `k` below 5, so no GCD loop is needed to name it.
DESIGN CHOICE (log 18): for `P = 2`, which R8 allows, no `e` lies in the range, and R290 does not name the case; the
answer is `none`, no exponent chosen by the model. -/
def alphaInverse (P : Nat) : Option Nat :=
  if P ≤ 2 then none else ((List.range 5).find? fun k => (k * (P - 1) + 1) % 5 == 0).map fun k => (k * (P - 1) + 1) / 5

/-- The binary chain of R291 below the leading bit: `bits` bits of `e` remain, the newest entry is `t`. -/
def binaryChainFrom (e : Nat) : Nat → Nat → List ChainStep
  | 0, _ => []
  | bits + 1, t =>
    if e / 2 ^ bits % 2 = 1 then .double t :: .add (t + 1) 0 :: binaryChainFrom e bits (t + 2)
    else .double t :: binaryChainFrom e bits (t + 1)

/-- A chain for `e` that needs no solver (R291). -/
def binaryChain (e : Nat) : List ChainStep := binaryChainFrom e e.log2 0

/-- `matmul` of an n×k by a k×m matrix (R292). -/
def matMul (P n k m : Nat) (a b : Mat) : Mat :=
  matOf n m fun i j => fieldSum P ((List.range k).map fun t => fieldMul P (a.entry i t) (b.entry t j))

/-- The transpose of an n×m matrix (R292). -/
def transpose (n m : Nat) (a : Mat) : Mat := matOf m n fun i j => a.entry j i

/-- The identity (R292). -/
def identityMat (n : Nat) : Mat := matOf n n fun i j => if i = j then 1 else 0

/-- `sub`: the rows `r .. r+rows-1` and the columns `c .. c+cols-1` (R292). -/
def subMat (a : Mat) (r rows c cols : Nat) : Mat := matOf rows cols fun i j => a.entry (r + i) (c + j)

/-- `inject`: the n×m matrix `a` with the rows `r .. r+rows-1` and the columns `c .. c+cols-1` replaced by the
block `b` (R292). -/
def injectMat (n m : Nat) (a : Mat) (r rows c cols : Nat) (b : Mat) : Mat :=
  matOf n m fun i j =>
    if r ≤ i ∧ i < r + rows ∧ c ≤ j ∧ j < c + cols then b.entry (i - r) (j - c) else a.entry i j

/-- The 2×2 closed form (R293). -/
def inverse2 (P : Nat) (m : Mat) : Option Mat :=
  let a := m.entry 0 0; let b := m.entry 0 1; let c := m.entry 1 0; let d := m.entry 1 1
  let det := fieldSub P (fieldMul P a d) (fieldMul P b c)
  if det = 0 then none
  else
    let di := fieldInv P det
    some [[fieldMul P di d, fieldMul P di (fieldNeg P b)], [fieldMul P di (fieldNeg P c), fieldMul P di a]]

/-- A cofactor `x*y - z*w` of a 3×3 matrix (R293). -/
def minor2 (P x y z w : Nat) : Nat := fieldSub P (fieldMul P x y) (fieldMul P z w)

/-- The 3×3 closed form: the transposed cofactor matrix over the determinant (R293). -/
def inverse3 (P : Nat) (m : Mat) : Option Mat :=
  let a := m.entry 0 0; let b := m.entry 0 1; let c := m.entry 0 2
  let d := m.entry 1 0; let e := m.entry 1 1; let f := m.entry 1 2
  let g := m.entry 2 0; let h := m.entry 2 1; let i := m.entry 2 2
  let c00 := minor2 P e i f h; let c01 := minor2 P f g d i; let c02 := minor2 P d h e g
  let c10 := minor2 P c h b i; let c11 := minor2 P a i c g; let c12 := minor2 P b g a h
  let c20 := minor2 P b f c e; let c21 := minor2 P c d a f; let c22 := minor2 P a e b d
  let det := fieldSum P [fieldMul P a c00, fieldMul P b c01, fieldMul P c c02]
  if det = 0 then none
  else
    let di := fieldInv P det
    some [[fieldMul P di c00, fieldMul P di c10, fieldMul P di c20],
      [fieldMul P di c01, fieldMul P di c11, fieldMul P di c21],
      [fieldMul P di c02, fieldMul P di c12, fieldMul P di c22]]

/-- Gauss-Jordan elimination of the first `n` columns of rows that carry the identity on their right (R293:
any method for other sizes). `done` holds the reduced rows, the last found first. -/
def eliminate (P : Nat) : Nat → Mat → Mat → Option Mat
  | 0, done, _ => some done.reverse
  | n + 1, done, m =>
    match splitPivot P m with
    | none => none
    | some (pivot, rest) =>
      let scale := fieldInv P (pivot.headD 0)
      let unit := pivot.map (fieldMul P scale)
      let clear := fun row : List Nat =>
        List.zipWith (fun x y => fieldSub P x (fieldMul P (row.headD 0) y)) row.tail unit.tail
      eliminate P n (unit.tail :: done.map clear) (rest.map clear)

/-- The inverse by elimination (R293). -/
def inverseGeneral (P n : Nat) (m : Mat) : Option Mat :=
  eliminate P n [] ((List.range n).map fun i => m.getD i [] ++ (identityMat n).getD i [])

/-- The inverse of an n×n matrix, `none` when it is singular (R293). The candidate is the closed form for the
sizes 2 and 3 and elimination for the others; it is answered only if it is an inverse on both sides, which an
inverse, being unique, is. -/
def matInverse (P n : Nat) (m : Mat) : Option Mat :=
  let candidate := if n = 2 then inverse2 P m else if n = 3 then inverse3 P m else inverseGeneral P n m
  match candidate with
  | none => none
  | some b =>
    if matMul P n n n m b = identityMat n ∧ matMul P n n n b m = identityMat n then some b else none

/-- `M'`: the identity with the lower-right block of `a` injected (R294). -/
def blockMat (W : Nat) (a : Mat) : Mat :=
  injectMat W W (identityMat W) 1 (W - 1) 1 (W - 1) (subMat a 1 (W - 1) 1 (W - 1))

/-- `M''` of one iteration: the identity with row 0 of `a` and, below it in column 0, the vector `what`
(R294). -/
def sparseFactor (W : Nat) (a what : Mat) : Mat :=
  matOf W W fun i j =>
    if i = 0 then a.entry 0 j else if j = 0 then what.entry (i - 1) 0 else if i = j then 1 else 0

/-- The iterations of the decomposition (R294), `n` of them left, from the matrix `a`. Each checks
`M' · M'' = A`; the list of factors comes out reversed, in application order. -/
def decomposeFrom (P W : Nat) (mds : Mat) : Nat → Mat → Mat → List Mat → Option (Mat × List Mat)
  | 0, _, mp, acc => some (mp, acc)
  | n + 1, a, _, acc =>
    match matInverse P (W - 1) (subMat a 1 (W - 1) 1 (W - 1)) with
    | none => none
    | some hatInv =>
      let what := matMul P (W - 1) (W - 1) 1 hatInv (subMat a 1 (W - 1) 0 1)
      let mp := blockMat W a
      let ms := sparseFactor W a what
      if matMul P W W W mp ms = a then
        decomposeFrom P W mds n (matMul P W W W mds mp) mp (ms :: acc)
      else none

/-- The M'/M'' decomposition: `MPRIME` and `SPARSE[0 .. RP-1]` (R294). -/
def decompose (P W rp : Nat) (mds : Mat) : Option (Mat × List Mat) :=
  decomposeFrom P W mds rp mds (identityMat W) []

/-- The backward pass of constant folding (R295) for the partial rounds `k, k-1, .. 1` with constants
`c k, .. , c 1`: from `cp`, the vector at the transitional step and the single constants `b_1 .. b_k`
in rising order of their round, those already found standing in `acc`. -/
def foldBackFrom (P W : Nat) (minv : Mat) (c : Nat → List Nat) : Nat → List Nat → List Nat → List Nat × List Nat
  | 0, cp, acc => (cp, acc)
  | k + 1, cp, acc =>
    let t := vecmat P W cp minv
    let c' := c (k + 1)
    foldBackFrom P W minv c k
      ((List.range W).map fun j => if j = 0 then c'.getD 0 0 else fieldAdd P (c'.getD j 0) (t.getD j 0))
      (t.getD 0 0 :: acc)

/-- The optimised round constants `ORC[0 .. RF+RP-1]` (R295) from the constant vectors `rc`. -/
def foldConstants (P W rf rp : Nat) (minv : Mat) (rc : Nat → List Nat) : List (List Nat) :=
  let h := rf / 2
  let r := foldBackFrom P W minv (fun k => rc (h + k - 1)) (rp - 1) (rc (h + rp - 1)) []
  (List.range h).map rc ++ [r.1] ++ r.2.map (fun b => b :: List.replicate (W - 1) 0)
    ++ (List.range (rf - h)).map fun i => rc (h + rp + i)

/-- `BundleConsistent` (R204): MPRIME, SPARSE and ORC hold what R294 and R295 compute from the loaded MDS and
RC. -/
def State.bundleConsistent (s : State) : Bool :=
  match matInverse s.geom.P s.geom.W (s.matrix .mds) with
  | none => false
  | some minv =>
    decide (decompose s.geom.P s.geom.W s.rp (s.matrix .mds)
        = some (s.matrix .mprime, (List.range s.rp).map s.sparseMatrix))
      && decide (foldConstants s.geom.P s.geom.W s.rf s.rp minv (s.vector .rc)
        = (List.range (s.rf + s.rp)).map (s.vector .orc))

end Sys2Proof.Machine
end

