-- ==== Sys2Proof/Machine/HostProgram.lean ====
section
/-! DEFINITION. What the host sends: the transfers of a command with its payload (R90, R97, R99), the assembler
pseudo-commands (R111) and the raw permutation call (R332). -/

namespace Sys2Proof.Machine

/-- A 32-bit word as one transfer (log 4). -/
def wordBeat (w : Word) : Beat := w.setWidth 64

/-- The transfers of one item; an element goes in `limbs` limbs, limb 0 first (R63, R97). -/
def itemBeats (g : Geometry) : Item → List Beat
  | .csr v => [v]
  | .elem v => beatsOfElem g.limbs v
  | .limb v => [v]
  | .step w => [wordBeat w]

/-- One command with its payload (R90). -/
def commandBeats (g : Geometry) (i : Instr) (payload : List Item) : List Beat :=
  wordBeat (encode i) :: payload.flatMap (itemBeats g)

/-- `LDV space, base ; v0, ...` (R111). -/
def ldv (g : Geometry) (sp : Space) (base : Nat) (vs : List Nat) : List Beat :=
  vs.zipIdx.flatMap fun (v, i) => commandBeats g (.pwr sp (base + i)) [entryItem sp v]

/-- `LDS ; v0, ...` (R111). -/
def lds (g : Geometry) (vs : List Nat) : List Beat :=
  vs.zipIdx.flatMap fun (v, i) => commandBeats g (.swr i) [.elem v]

/-- `RDS` (R111). -/
def rds (g : Geometry) : List Beat := (List.range g.W).flatMap fun i => commandBeats g (.srd i) []

/-- `LDCHAIN ; step0, ...` (R111). -/
def ldchain (g : Geometry) (steps : List ChainStep) : List Beat :=
  ldv g .chain 0 (steps.map fun st => (encode st.toInstr).toNat)
    ++ commandBeats g (.csrw 5) [.csr (BitVec.ofNat 64 steps.length)]

/-- `LDEXP ; e` (R111). -/
def ldexp (g : Geometry) (e : Nat) : List Beat :=
  ldv g .exp 0 ((beatsOfElem g.limbs e).map BitVec.toNat) ++ commandBeats g (.csrw 4) [.csr 1]

/-- The raw permutation call (R332). -/
def rawPermutation (g : Geometry) (vs : List Nat) : List Beat :=
  lds g vs ++ commandBeats g .permute [] ++ rds g

end Sys2Proof.Machine
end

