-- ==== Sys2Proof/Machine/Fetch.lean ====
section
/-! DEFINITION. What a step fetches and runs: a command from the command port, or a step word of the chain. -/

namespace Sys2Proof.Machine

/-- A step of a chain run in progress with scratch list `t`: the next step word of space CHAIN is decoded and
run; past the last word the run is over and its scratch list is dead (R45, R159).
DESIGN CHOICE (log 3): a run that starts from the hidden state `.chain t` belongs to no lane. Its value, the last entry
`T[n]` of R159, is dropped when it ends: no register is written, no element index is held and no response is given.
SBI and SBIE write theirs as commands of one step (`chainValue`). -/
def chainStep (t : List Nat) (s : State) : Out :=
  match s.fetchChainWord t with
  | none => .next (s.setActivity .idle)
  | some w =>
    match decodeStep w with
    | .ok st => exec st.toInstr s
    | .error _ => .fault .malformedChainStep

/-- A step at the command port: with nothing sent the engine waits (R382); a legal word is its command; an
illegal word raises a fault (R102). -/
def commandStep (s : State) : Out :=
  match s.fetchWord with
  | none => .next s
  | some w =>
    match decode w with
    | .ok i => exec i s
    | .error _ => .next (s.illegalWord w)

/-- The number of payload transfers of a command (R99). -/
def payloadBeats (s : State) : Instr → Nat
  | .csrw _ => 1
  | .pwr sp _ => entryBeats s.geom sp
  | .swr _ => s.geom.limbs
  | .absorb => s.geom.limbs
  | .absorbn n => n * s.geom.limbs
  | .hash _ => s.hLen * s.geom.limbs
  | .nop | .rst | .csrr _ | .prd _ _ | .pcommit | .srd _ | .fadd _ _ _ | .fsub _ _ _ | .fneg _ _
  | .fmul _ _ _ | .fsqr _ _ | .fpow _ _ | .finv _ _ | .sbf | .sbfe _ | .sbi | .sbie _ | .arc _ | .arc0 _
  | .arco _ | .arco0 _ | .mds | .mpr | .spm _ | .exl | .inl | .permute | .spnew | .squeeze | .squeezen _
  | .dcap _ | .dpad _ | .chDbl _ | .chAdd _ _ => 0

/-- A chain run in progress on the element 0 whose next step is step `t` with the word `w`, the last of its
chain. -/
def State.placeChainWord (s : State) (t w : Nat) : State :=
  ((s.setEntry .chain t w).setCsr { s.csr with chainlen := BitVec.ofNat 16 (t + 1) }).setActivity
    (.chain (List.replicate (t + 1) 0))

end Sys2Proof.Machine
end

