-- ==== Sys2Proof/Machine/Step.lean ====
section
/-! DEFINITION. One step of the machine, and how the host places an instruction for the next step. -/

namespace Sys2Proof.Machine

/-- One step: the next command, whole (R207); or, inside a command, the next step of its chain run or the next
layer operation of its permutation (R45). -/
def step (s : State) : Host.Outcome State Fault Refusal :=
  match s.activity with
  | .idle => commandStep s
  | .chain t => chainStep t s
  | .permuting rnd ph => .next (s.sequencerStep rnd ph)

/-- The state in which the next step fetches the instruction whose bits are `w`. A word that is no step word of
a chain stands at the head of the command stream, with a payload of zeros as long as its command takes; a word
that only the chain decoder reads becomes the last step of a chain run in progress on the element 0, in which
every entry it refers to is computed (log 5). -/
def State.withFetchWord (s : State) (nbits w : Nat) : State :=
  match decodeTableWord nbits w with
  | some (.chDbl index) => s.placeChainWord index w
  | some (.chAdd left right) => s.placeChainWord (max left right) w
  | some i =>
    (s.setActivity .idle).setInput
      (wordBeat (BitVec.ofNat 32 w) :: (List.replicate (payloadBeats s i) 0 ++ s.input))
  | none => (s.setActivity .idle).setInput (wordBeat (BitVec.ofNat 32 w) :: s.input)

end Sys2Proof.Machine
end

