-- ==== Sys2Proof/Safety.lean ====
section
/-! DEFINITION. What a valid geometry and a reachable state are, and the words the statements use: a command
that is ready, a state that has answered, a state that has faulted. -/

namespace Sys2Proof.Machine

/-- The constraints on the static and sizing parameters (R8, R9, R61, R95, R105). An engine that violates one
does not exist. -/
structure GeometryValid (g : Geometry) : Prop where
  prime : g.P.Prime
  coprimeFive : Nat.Coprime 5 (g.P - 1)
  twoLeW : 2 ≤ g.W
  wLe : g.W ≤ 256
  oneLeR : 1 ≤ g.R
  rLtW : g.R < g.W
  rcFits : g.maxRc * g.W ≤ 2 ^ 20
  sparseFits : g.maxRp * g.W * g.W ≤ 2 ^ 20
  chainFits : g.maxChain ≤ 2 ^ 15
  limbsHold : Geometry.defaultLimbs g.P ≤ g.limbs

/-- A W-vector of field elements (R12, R21). -/
abbrev IsVector (g : Geometry) (v : List Nat) : Prop := v.length = g.W ∧ ∀ x ∈ v, x < g.P

/-- The sponge buffer (R25): `R` optional elements, a prefix of fewer than `R` in Absorbing mode, a suffix in
Squeezing mode. -/
def BufOk (s : State) : Prop :=
  s.buf.length = s.geom.R ∧ (∀ v, some v ∈ s.buf → v < s.geom.P) ∧
    match s.mode with
    | .absorbing =>
      s.bufCount < s.geom.R ∧ ∀ i, i < s.geom.R → ((s.buf.getD i none).isSome = true ↔ i < s.bufCount)
    | .squeezing => ∀ i, i < s.geom.R → ((s.buf.getD i none).isSome = true ↔ s.geom.R - s.bufCount ≤ i)

/-- The values an entry of a space can hold (R61): field elements, 64-bit limbs, 32-bit step words. -/
def entryBound (g : Geometry) (sp : Space) : Nat :=
  match sp with
  | .rc | .mds | .ext | .diag | .mprime | .sparse | .orc => g.P
  | .exp => 2 ^ 64
  | .chain => 2 ^ 32

/-- A space in its canonical form, with every listed entry inside the space and of the entry type (R61). -/
def SpaceOk (s : State) (sp : Space) : Prop :=
  (s.params.get sp).wf ∧
    ∀ c ∈ (s.params.get sp).cells, c.1 < entryCount s.geom sp ∧ c.2 < entryBound s.geom sp

/-- FAULT and ERR (R26, R356): no code without a fault, and the code of a fault that can be the first. -/
def FaultOk (s : State) : Prop :=
  (s.fault = false → s.err = 0) ∧
    (s.fault = true → ∃ c : Code, c ≠ .ok ∧ c ≠ .faulted ∧ c.isSignal = false ∧ s.err = c.byte)

/-- What the hidden state of a chain run holds (R27). -/
def ActivityOk (s : State) : Prop :=
  match s.activity with
  | .chain t => t ≠ [] ∧ ∀ x ∈ t, x < s.geom.P
  | .idle => True
  | .permuting _ _ => True

/-- The invariant of the engine: a valid geometry (R8), canonical elements everywhere (R120), the sponge
invariant (R250), a well-formed parameter store, and a committed engine passes the commit checks (R330). -/
structure Inv (s : State) : Prop where
  geometry : GeometryValid s.geom
  regs : IsVector s.geom s.regs
  buf : BufOk s
  spaces : ∀ sp, SpaceOk s sp
  fault : FaultOk s
  committed : s.pvalid = true → s.k1 = true ∧ s.commitChecks = true
  activity : ActivityOk s

/-- What the control registers 0 to 12 read as, in the order of R28's table: FAMILY, RF, RP, ALPHA, SBOXINV, CHAINLEN,
RCLEN, CTRL, SPLEN, ORCLEN, HLEN, each its field above zeros, then STATUS and GEOM. -/
def csrTable (s : State) : List (BitVec 64) :=
  [s.csr.family.setWidth 64, s.csr.rf.setWidth 64, s.csr.rp.setWidth 64, s.csr.alpha, s.csr.sboxinv.setWidth 64,
    s.csr.chainlen.setWidth 64, s.csr.rclen.setWidth 64, s.csr.ctrl.setWidth 64, s.csr.splen.setWidth 64,
    s.csr.orclen.setWidth 64, s.csr.hlen, s.statusWord, s.geomWord]

/-- The engine is not faulted and a command word stands at the port with `payload` transfers after it. -/
abbrev Ready (s : State) (payload : Nat) : Prop := s.fault = false ∧ 1 + payload ≤ s.input.length

/-- The `n` payload transfers after the command word. -/
def State.payload (s : State) (n : Nat) : List Beat := (s.input.drop 1).take n

/-- `s` when the engine has consumed a command word and `payload` transfers and has given one response. -/
def State.answered (s : State) (payload : Nat) (code : BitVec 8) (items : List Item) : State :=
  { s with
    input := s.input.drop (1 + payload)
    output := s.output ++ [{ code := code, items := items }] }

/-- `s`, not faulted before, when a command has raised a fault: FAULT and ERR written, the command and its
payload consumed, the code answered with no items, and nothing else changed (R356). -/
def State.faultedWith (s : State) (payload : Nat) (code : BitVec 8) : State :=
  { s with
    fault := true
    err := code
    input := s.input.drop (1 + payload)
    output := s.output ++ [{ code := code, items := [] }] }

/-- `t` is what `n` steps make of `s`, each of them answering a next state. -/
def Runs : Nat → State → State → Prop
  | 0, s, t => s = t
  | n + 1, s, t => ∃ u, step s = .next u ∧ Runs n u t

end Sys2Proof.Machine
end

