-- ==== Sys2Proof/Certificates/Slice0/Obligations.lean ====
section
/-! DEFINITION. The statements of this model for the provers. `s.answered n c items` is `s` when it has consumed a
command word and `n` payload transfers and given one response; `s.faultedWith n c` is the same for a raised fault;
`Ready s n` says that no fault is recorded and word and payload are at the port (Safety). An equation with either
of them is also the frame: every field it does not write is unchanged. -/

open Sys2Proof Sys2Proof.Machine

-- Encoding

/-- Decoding an encoded well-formed command gives it back, every operand at every value its field admits
(R93 to R96, R100). -/
def Obligations.DecodeEncodeCommands : Prop :=
  ∀ i : Instr, i.wellFormed = true → i.isCommand = true → decode (encode i) = .ok i

/-- Decoding an encoded well-formed chain step gives it back (R105). -/
def Obligations.DecodeEncodeChainSteps : Prop :=
  ∀ st : ChainStep, st.toInstr.wellFormed = true → decodeStep (encode st.toInstr) = .ok st

/-- A legal word is the encoding of the one instruction it decodes to, at the command port and in space CHAIN
(R100, R105). -/
def Obligations.LegalWordsHaveOneMeaning : Prop :=
  (∀ (w : Word) (i : Instr), decode w = .ok i →
    i.isCommand = true ∧ i.wellFormed = true ∧ encode i = w) ∧
  (∀ (w : Word) (st : ChainStep), decodeStep w = .ok st →
    st.toInstr.wellFormed = true ∧ encode st.toInstr = w)

/-- Words that the spec writes out, or that its formats give, decode to the commands they stand for: one word for
each row of the opcode map, for each space code at PWR and PRD, for each strategy code at HASH, DCAP and DPAD, and the
two kinds of chain step (R61, R93 to R96, R100, R105). -/
def Obligations.SpecWordsDecode : Prop :=
  (decode 0x00000000 = .ok .nop ∧ decode 0x00000001 = .ok .rst ∧ decode 0x0000A002 = .ok (.csrw 10) ∧
    decode 0x0000B003 = .ok (.csrr 11) ∧ decode 0x00003804 = .ok (.pwr .chain 3) ∧
    decode 0x00004104 = .ok (.pwr .mds 4) ∧ decode 0x00000105 = .ok (.prd .mds 0) ∧
    decode 0x00000006 = .ok .pcommit ∧ decode 0x00002008 = .ok (.swr 2) ∧ decode 0x00001009 = .ok (.srd 1)) ∧
  (decode 0x01000210 = .ok (.fadd 2 0 1) ∧ decode 0x00010211 = .ok (.fsub 2 1 0) ∧
    decode 0x00020112 = .ok (.fneg 1 2) ∧ decode 0x00010113 = .ok (.fmul 1 1 0) ∧
    decode 0x00010214 = .ok (.fsqr 2 1) ∧ decode 0x00010215 = .ok (.fpow 2 1) ∧
    decode 0x00010216 = .ok (.finv 2 1)) ∧
  (decode 0x00000020 = .ok .sbf ∧ decode 0x00000021 = .ok (.sbfe 0) ∧ decode 0x00000022 = .ok .sbi ∧
    decode 0x00002023 = .ok (.sbie 2)) ∧
  (decode 0x00003028 = .ok (.arc 3) ∧ decode 0x00001029 = .ok (.arc0 1) ∧ decode 0x0000102A = .ok (.arco 1) ∧
    decode 0x0000202B = .ok (.arco0 2) ∧ decode 0x0000002C = .ok .mds ∧ decode 0x0000002D = .ok .mpr ∧
    decode 0x0000102E = .ok (.spm 1) ∧ decode 0x0000002F = .ok .exl ∧ decode 0x00000030 = .ok .inl ∧
    decode 0x00000038 = .ok .permute) ∧
  (decode 0x00000040 = .ok .spnew ∧ decode 0x00000041 = .ok .absorb ∧ decode 0x00002042 = .ok (.absorbn 2) ∧
    decode 0x00000043 = .ok .squeeze ∧ decode 0x00003044 = .ok (.squeezen 3) ∧
    decode 0x00000245 = .ok (.hash .customFixedLength) ∧
    decode 0x00000346 = .ok (.dcap .customVariableLength) ∧ decode 0x00000147 = .ok (.dpad .variableLength)) ∧
  (decode 0x00001004 = .ok (.pwr .rc 1) ∧ decode 0x00001104 = .ok (.pwr .mds 1) ∧
    decode 0x00001204 = .ok (.pwr .ext 1) ∧ decode 0x00001304 = .ok (.pwr .diag 1) ∧
    decode 0x00008404 = .ok (.pwr .mprime 8) ∧ decode 0x00011504 = .ok (.pwr .sparse 17) ∧
    decode 0x00001604 = .ok (.pwr .orc 1) ∧ decode 0x00000704 = .ok (.pwr .exp 0) ∧
    decode 0x00000804 = .ok (.pwr .chain 0)) ∧
  (decode 0x00001005 = .ok (.prd .rc 1) ∧ decode 0x00001105 = .ok (.prd .mds 1) ∧
    decode 0x00001205 = .ok (.prd .ext 1) ∧ decode 0x00001305 = .ok (.prd .diag 1) ∧
    decode 0x00008405 = .ok (.prd .mprime 8) ∧ decode 0x00011505 = .ok (.prd .sparse 17) ∧
    decode 0x00001605 = .ok (.prd .orc 1) ∧ decode 0x00000705 = .ok (.prd .exp 0) ∧
    decode 0x00000805 = .ok (.prd .chain 0)) ∧
  (decode 0x00000045 = .ok (.hash .fixedLength) ∧ decode 0x00000145 = .ok (.hash .variableLength) ∧
    decode 0x00000245 = .ok (.hash .customFixedLength) ∧
    decode 0x00000345 = .ok (.hash .customVariableLength) ∧ decode 0x00000445 = .ok (.hash .noPadding)) ∧
  (decode 0x00000046 = .ok (.dcap .fixedLength) ∧ decode 0x00000146 = .ok (.dcap .variableLength) ∧
    decode 0x00000246 = .ok (.dcap .customFixedLength) ∧
    decode 0x00000346 = .ok (.dcap .customVariableLength) ∧ decode 0x00000446 = .ok (.dcap .noPadding)) ∧
  (decode 0x00000047 = .ok (.dpad .fixedLength) ∧ decode 0x00000147 = .ok (.dpad .variableLength) ∧
    decode 0x00000247 = .ok (.dpad .customFixedLength) ∧
    decode 0x00000347 = .ok (.dpad .customVariableLength) ∧ decode 0x00000447 = .ok (.dpad .noPadding)) ∧
  (decodeStep 0x00000002 = .ok (.double 2) ∧ decodeStep 0x80000003 = .ok (.add 3 0))

/-- A word is illegal exactly when its opcode is reserved, a must-be-zero field is not zero, or its selector is a
reserved strategy or space code (R101, R102). An illegal word raises IllegalCommand and consumes no payload; any
other word runs as the command it decodes to. On a faulted engine the response is the one that R357, R360 and R361
lead to, which the model deduces (log 9): Faulted, but IllegalCommand for the four opcodes that the fault gate
does not stop. -/
def Obligations.IllegalWords : Prop :=
  ∀ (s : State) (w : Word), s.activity = .idle → s.fetchWord = some w →
    let op := (w.extractLsb' 0 8).toNat
    let sel := (w.extractLsb' 8 4).toNat
    let imm := (w.extractLsb' 12 20).toNat
    let b := (w.extractLsb' 24 8).toNat
    let noOperand := [0x00, 0x01, 0x06, 0x20, 0x22, 0x2C, 0x2D, 0x2F, 0x30, 0x38, 0x40, 0x41, 0x43]
    let immediate := [0x02, 0x03, 0x08, 0x09, 0x21, 0x23, 0x28, 0x29, 0x2A, 0x2B, 0x2E, 0x42, 0x44]
    let space := [0x04, 0x05]
    let threeRegisters := [0x10, 0x11, 0x13]
    let twoRegisters := [0x12, 0x14, 0x15, 0x16]
    let strategy := [0x45, 0x46, 0x47]
    if op ∉ noOperand ++ immediate ++ space ++ threeRegisters ++ twoRegisters ++ strategy ∨
        (op ∈ noOperand ∧ (w.extractLsb' 8 24).toNat ≠ 0) ∨ (op ∈ immediate ∧ sel ≠ 0) ∨
        (op ∈ space ∧ 9 ≤ sel) ∨ (op ∈ twoRegisters ∧ b ≠ 0) ∨ (op ∈ strategy ∧ (imm ≠ 0 ∨ 5 ≤ sel)) then
      step s = .next
        (if s.fault = true then s.answered 0 (if op ∈ [0x01, 0x03, 0x05, 0x09] then 0x20 else 0x26) []
          else s.faultedWith 0 0x20)
    else ∃ i, decode w = .ok i ∧ step s = exec i s

-- The step

/-- A step runs the decoded instruction: at the command port the command at the head of the stream, inside an
addition-chain run the step word the interpreter takes next (R90, R159). With nothing sent the engine waits
(R382); past the last step word the run is over (R45). That a word stands in the low half of a 64-bit transfer is the
model's choice (log 4), and so are the last two clauses' machine steps inside a chain run and the one more step that
ends it and writes no register (DESIGN CHOICE, log 3: `activity` in State). -/
def Obligations.StepRunsTheInstruction : Prop :=
  (∀ (s : State) (w : Word) (i : Instr), s.activity = .idle → s.fetchWord = some w → decode w = .ok i →
    step s = exec i s) ∧
  (∀ (s : State) (i : Instr) (rest : List Beat), s.activity = .idle → i.wellFormed = true →
    i.isCommand = true → s.input = wordBeat (encode i) :: rest → step s = exec i s) ∧
  (∀ s : State, s.activity = .idle → s.input = [] → step s = .next s) ∧
  (∀ (s : State) (t : List Nat) (w : Word) (st : ChainStep), s.activity = .chain t →
    t.length - 1 < s.chainLen → w = BitVec.ofNat 32 (s.entry .chain (t.length - 1)) →
    decodeStep w = .ok st → step s = exec st.toInstr s) ∧
  (∀ (s : State) (t : List Nat), s.activity = .chain t → s.chainLen ≤ t.length - 1 →
    step s = .next { s with activity := .idle })

/-- The fault gate (R357): on a faulted engine every command but RST, CSRR, PRD and SRD consumes its payload,
answers Faulted and has no effect; those four run as on a healthy engine, and an index out of range leaves ERR as it
was. -/
def Obligations.FaultGate : Prop :=
  ∀ s : State, s.fault = true →
    (∀ i : Instr, i.isCommand = true → i ≠ .rst → (∀ n, i ≠ .csrr n) → (∀ sp idx, i ≠ .prd sp idx) →
      (∀ r, i ≠ .srd r) → 1 + payloadBeats s i ≤ s.input.length →
      exec i s = .next (s.answered (payloadBeats s i) 0x26 [])) ∧
    (1 ≤ s.input.length →
      exec .rst s = .next { State.resetOf s.geom with
        input := s.input.drop 1, output := s.output ++ [{ code := 0x00, items := [] }] }) ∧
    (1 ≤ s.input.length → ∀ n id, csrOfNumber n = some id →
      exec (.csrr n) s = .next (s.answered 0 0x00 [.csr (s.csrValue id)])) ∧
    (1 ≤ s.input.length → ∀ sp idx, idx < entryCount s.geom sp →
      exec (.prd sp idx) s = .next (s.answered 0 0x00 [entryItem sp (s.entry sp idx)])) ∧
    (1 ≤ s.input.length → ∀ r, r < s.geom.W →
      exec (.srd r) s = .next (s.answered 0 0x00 [.elem (s.reg r)])) ∧
    (1 ≤ s.input.length →
      (∀ n, csrOfNumber n = none → exec (.csrr n) s = .next (s.answered 0 0x24 [])) ∧
      (∀ sp idx, entryCount s.geom sp ≤ idx → exec (.prd sp idx) s = .next (s.answered 0 0x24 [])) ∧
      ∀ r, s.geom.W ≤ r → exec (.srd r) s = .next (s.answered 0 0x24 []))

/-- Every command on a healthy engine ends in exactly one response, after its whole payload is consumed: ok; a
signal, which changes nothing else; or a fault, which writes FAULT and ERR and nothing else (R98, R99, R350, R354,
R356, R359). Until word and payload are complete the model's engine waits unchanged (log 10). -/
def Obligations.EveryOutcomeIsPrecise : Prop :=
  ∀ (s : State) (i : Instr), i.isCommand = true →
    (s.input.length < 1 + payloadBeats s i → exec i s = .next s) ∧
    (Ready s (payloadBeats s i) →
      (∃ t items, exec i s = .next t ∧ t.fault = false ∧ t.input = s.input.drop (1 + payloadBeats s i) ∧
        t.output = s.output ++ [{ code := 0x00, items := items }]) ∨
      (∃ c ∈ ([0x01, 0x02] : List (BitVec 8)), exec i s = .next (s.answered (payloadBeats s i) c [])) ∨
      (∃ c ∈ ([0x10, 0x11, 0x20, 0x21, 0x22, 0x23, 0x24, 0x25, 0x27] : List (BitVec 8)),
        exec i s = .next (s.faultedWith (payloadBeats s i) c)))

/-- The only way out of the faulted state is the RST command, which gives the complete reset state; ERR keeps the
first fault's code, and between commands nothing but the ports changes (R356, R358). -/
def Obligations.OnlyRstLeavesTheFault : Prop :=
  ∀ s t : State, s.fault = true → step s = .next t →
    (s.activity = .idle ∧ s.fetchWord = some 0x00000001 ∧
      t = { State.resetOf s.geom with
        input := s.input.drop 1, output := s.output ++ [{ code := 0x00, items := [] }] }) ∨
    (t.fault = true ∧ t.err = s.err ∧
      (s.activity = .idle → t = { s with input := t.input, output := t.output }))

/-- From PCOMMIT until RST the parameter store, the lockable CSRs and the static parameters keep their values
(R37, R69): of the writable CSRs only HLEN can change. -/
def Obligations.CommittedParametersAreFrozen : Prop :=
  ∀ s t : State, s.pvalid = true → step s = .next t →
    (t.pvalid = true ∧ t.params = s.params ∧ t.csr = { s.csr with hlen := t.csr.hlen } ∧ t.geom = s.geom) ∨
    (s.activity = .idle ∧ s.fetchWord = some 0x00000001)

/-- PVALID is set only by a PCOMMIT on a healthy engine that finds `ALPHA = 5` and every commit check true, and
that PCOMMIT writes nothing else (R26, R326). -/
def Obligations.PvalidOnlyByCommit : Prop :=
  ∀ s t : State, s.pvalid = false → step s = .next t → t.pvalid = true →
    s.activity = .idle ∧ s.fetchWord = some 0x00000006 ∧ s.fault = false ∧ s.csr.alpha = 5 ∧
      s.commitChecks = true ∧ t = { s with pvalid := true }.answered 0 0x00 []

/-- Every step keeps the engine's invariant: canonical elements, the sponge's buffer rule, the canonical form of
every space, FAULT and ERR in agreement, and a committed engine passing its commit checks (R12, R25, R61, R250,
R330, R356). -/
def Obligations.StepKeepsInvariant : Prop :=
  ∀ s t : State, Inv s → step s = .next t → Inv t

/-- The reset state meets the invariant for every valid geometry (R50, R382). `State.reset` is that of the one
geometry the model chose (DESIGN CHOICE, log 1). -/
def Obligations.ResetHasInvariant : Prop :=
  State.reset = State.resetOf Config.geometry ∧ Inv State.reset ∧
    ∀ g : Geometry, GeometryValid g → Inv (State.resetOf g)

/-- No step stops the machine: not between commands, not inside a permutation, and not inside a chain run of a
committed engine, whose step words PCOMMIT has checked (R162, R208). A command is one step, so the engine is idle
again after it (R45, R207; log 3). -/
def Obligations.EngineNeverStops : Prop :=
  ∀ s : State,
    (s.activity = .idle → ∃ t, step s = .next t ∧ t.activity = .idle) ∧
    (∀ rnd ph, s.activity = .permuting rnd ph → ∃ t, step s = .next t) ∧
    (∀ t, s.activity = .chain t → Inv s → s.pvalid = true → s.csr.sboxinv = 2 → ∃ u, step s = .next u)

-- Reset

/-- The reset state and the RST command (R50), for every geometry: registers, MODE, BUF, CSRs 0 to 10, STATUS and
every parameter entry are zero or empty, nothing is in progress, GEOM keeps its value; RST gives that state whatever
the state before it, a fault included, and answers ok. -/
def Obligations.ResetState : Prop :=
  ∀ g : Geometry,
    ((State.resetOf g).regs.length = g.W ∧ (∀ i, (State.resetOf g).reg i = 0) ∧
      (State.resetOf g).mode = .absorbing ∧ (State.resetOf g).buf.length = g.R ∧
      (∀ e ∈ (State.resetOf g).buf, e = none) ∧ (State.resetOf g).bufCount = 0 ∧
      (∀ n id, n ≤ 10 → csrOfNumber n = some id → (State.resetOf g).csrValue id = 0) ∧
      (State.resetOf g).csrValue .status = 0 ∧ (State.resetOf g).activity = .idle ∧
      (∀ u : State, u.geom = g → (State.resetOf g).csrValue .geom = u.csrValue .geom) ∧
      ∀ sp idx, (State.resetOf g).entry sp idx = 0) ∧
    ∀ s : State, s.geom = g → 1 ≤ s.input.length →
      exec .rst s = .next { State.resetOf g with
        input := s.input.drop 1, output := s.output ++ [{ code := 0x00, items := [] }] }

-- Host commands

/-- NOP answers ok and does nothing else (R320). -/
def Obligations.NopOnlyAnswers : Prop :=
  ∀ s : State, Ready s 0 → exec .nop s = .next (s.answered 0 0x00 [])

/-- CSRW stores a value that fits the register's field and changes no other register (`csrTable` lists the fields in
the order of their numbers); else it raises, in this
order, IllegalCommand for a read-only register, IndexOutOfRange above 12, ParamsLocked for CSRs 0 to 9 on a
committed engine, IllegalValue for a value beyond the field (R28, R29, R322). -/
def Obligations.CsrwWritesOneRegister : Prop :=
  ∀ (s : State) (n : Nat), Ready s 1 →
    let v := (s.payload 1).headD 0
    let width := [2, 16, 16, 64, 2, 16, 16, 1, 16, 16, 64].getD n 0
    (n ≤ 10 → n = 10 ∨ s.pvalid = false → v.toNat < 2 ^ width →
      ∃ t, exec (.csrw n) s = .next t ∧ t = { s.answered 1 0x00 [] with csr := t.csr } ∧
        (∀ m id, m ≤ 10 → csrOfNumber m = some id → t.csrValue id = if m = n then v else s.csrValue id) ∧
        ∀ m, m ≤ 10 → (csrTable t).getD m 0 = if m = n then v else (csrTable s).getD m 0) ∧
    (n = 11 ∨ n = 12 → exec (.csrw n) s = .next (s.faultedWith 1 0x20)) ∧
    (13 ≤ n → exec (.csrw n) s = .next (s.faultedWith 1 0x24)) ∧
    (n ≤ 9 → s.pvalid = true → exec (.csrw n) s = .next (s.faultedWith 1 0x23)) ∧
    (n ≤ 10 → n = 10 ∨ s.pvalid = false → 2 ^ width ≤ v.toNat →
      exec (.csrw n) s = .next (s.faultedWith 1 0x27))

/-- CSRR answers the register's value and changes nothing else, faulted or not: number 0 is FAMILY, 1 RF, 2 RP,
3 ALPHA, 4 SBOXINV, 5 CHAINLEN, 6 RCLEN, 7 CTRL, 8 SPLEN, 9 ORCLEN, 10 HLEN, each its field with zeros above it, 11
STATUS and 12 GEOM, whose bits `StatusAndGeomLayout` gives. A number above 12 raises IndexOutOfRange, which a recorded
fault outlives (R28, R323, R356). -/
def Obligations.CsrrReadsOneRegister : Prop :=
  ∀ (s : State) (n : Nat), 1 ≤ s.input.length →
    let values := [s.csr.family.setWidth 64, s.csr.rf.setWidth 64, s.csr.rp.setWidth 64, s.csr.alpha,
      s.csr.sboxinv.setWidth 64, s.csr.chainlen.setWidth 64, s.csr.rclen.setWidth 64, s.csr.ctrl.setWidth 64,
      s.csr.splen.setWidth 64, s.csr.orclen.setWidth 64, s.csr.hlen, s.csrValue .status, s.csrValue .geom]
    (n ≤ 12 → ∃ id, csrOfNumber n = some id ∧ s.csrValue id = values.getD n 0 ∧
      exec (.csrr n) s = .next (s.answered 0 0x00 [.csr (s.csrValue id)])) ∧
    csrTable s = values ∧
    (13 ≤ n →
      exec (.csrr n) s = .next (if s.fault = true then s.answered 0 0x24 [] else s.faultedWith 0 0x24))

/-- The layout of STATUS and GEOM (R28): PVALID, MODE, FAULT at bits 0, 1, 2, ERR at 15:8, BUFCNT at 31:16; W, R,
LIMBS at 15:0, 31:16, 47:32; every unlisted bit reads as 0. That BUFCNT, W, R and LIMBS of 2^16 or more are shown
modulo 2^16, the width of their fields, is the model's inference (DEDUCED, log 17). -/
def Obligations.StatusAndGeomLayout : Prop :=
  ∀ s : State,
    (s.csrValue .status).getLsbD 0 = s.pvalid ∧
    (s.csrValue .status).getLsbD 1 = decide (s.mode = .squeezing) ∧
    (s.csrValue .status).getLsbD 2 = s.fault ∧
    (s.csrValue .status).extractLsb' 8 8 = s.err ∧
    (s.csrValue .status).extractLsb' 16 16 = BitVec.ofNat 16 (s.buf.countP Option.isSome) ∧
    (∀ k, (3 ≤ k ∧ k < 8) ∨ 32 ≤ k → (s.csrValue .status).getLsbD k = false) ∧
    (s.csrValue .geom).extractLsb' 0 16 = BitVec.ofNat 16 s.geom.W ∧
    (s.csrValue .geom).extractLsb' 16 16 = BitVec.ofNat 16 s.geom.R ∧
    (s.csrValue .geom).extractLsb' 32 16 = BitVec.ofNat 16 s.geom.limbs ∧
    ∀ k, 48 ≤ k → (s.csrValue .geom).getLsbD k = false

/-- Sizes and payload formats of the parameter spaces (R61, R63, R65, R97): the entry counts; a field element is
LIMBS transfers of 64 bits, limb 0 first, whose value is the sum of the limbs' weights; what the host sends for a
value is read back as that value. PWR reads its entry as such an element for spaces 0 to 6, as one 64-bit limb for
EXP, as a 32-bit step word for CHAIN, and PRD answers an item of the same kind. That limbs, items and step words
are single 64-bit transfers, a step word in the low half, is the model's choice (log 4). -/
def Obligations.SpaceFormats : Prop :=
  (∀ g : Geometry,
    [Space.rc, .mds, .ext, .diag, .mprime, .sparse, .orc, .exp, .chain].map (entryCount g)
      = [g.maxRc * g.W, g.W * g.W, g.W * g.W, g.W, g.W * g.W, g.maxRp * g.W * g.W, g.maxRc * g.W, g.limbs,
          g.maxChain] ∧
    [Space.rc, .mds, .ext, .diag, .mprime, .sparse, .orc, .exp, .chain].map (entryBeats g)
      = [g.limbs, g.limbs, g.limbs, g.limbs, g.limbs, g.limbs, g.limbs, 1, 1]) ∧
  (∀ bs : List Beat,
    elemOfBeats bs = ((List.range bs.length).map fun i => (bs.getD i 0).toNat * 2 ^ (64 * i)).sum) ∧
  (∀ n v : Nat, v < 2 ^ (64 * n) →
    (beatsOfElem n v).length = n ∧ elemOfBeats (beatsOfElem n v) = v) ∧
  (∀ sp ∈ [Space.rc, .mds, .ext, .diag, .mprime, .sparse, .orc],
    holdsElements sp = true ∧ (∀ bs, entryOfBeats sp bs = elemOfBeats bs) ∧ ∀ v, entryItem sp v = .elem v) ∧
  (holdsElements .exp = false ∧ holdsElements .chain = false) ∧
  (∀ (b : Beat) (bs : List Beat),
    entryOfBeats .exp (b :: bs) = b.toNat ∧ entryOfBeats .chain (b :: bs) = b.toNat % 2 ^ 32) ∧
  (∀ b : BitVec 64, entryItem .exp b.toNat = .limb b) ∧ ∀ w : Word, entryItem .chain w.toNat = .step w

/-- PWR replaces exactly the addressed entry; else it raises, in this order, IndexOutOfRange outside the space,
NonCanonicalOperand for an element not below P, ParamsLocked on a committed engine (R62, R69, R129, R324). -/
def Obligations.PwrWritesOneEntry : Prop :=
  ∀ (s : State) (sp : Space) (idx : Nat), (s.params.get sp).wf → Ready s (entryBeats s.geom sp) →
    let n := entryBeats s.geom sp
    let x := entryOfBeats sp (s.payload n)
    (idx < entryCount s.geom sp → (holdsElements sp = true → x < s.geom.P) → s.pvalid = false →
      ∃ t, exec (.pwr sp idx) s = .next t ∧ t = { s.answered n 0x00 [] with params := t.params } ∧
        ∀ sp' idx', t.entry sp' idx' = if sp' = sp ∧ idx' = idx then x else s.entry sp' idx') ∧
    (entryCount s.geom sp ≤ idx → exec (.pwr sp idx) s = .next (s.faultedWith n 0x24)) ∧
    (idx < entryCount s.geom sp → holdsElements sp = true → s.geom.P ≤ x →
      exec (.pwr sp idx) s = .next (s.faultedWith n 0x21)) ∧
    (idx < entryCount s.geom sp → (holdsElements sp = true → x < s.geom.P) → s.pvalid = true →
      exec (.pwr sp idx) s = .next (s.faultedWith n 0x23))

/-- PRD answers the addressed entry and changes nothing else, faulted or not, committed or not; an index outside
the space raises IndexOutOfRange (R62, R325). -/
def Obligations.PrdReadsOneEntry : Prop :=
  ∀ (s : State) (sp : Space) (idx : Nat), 1 ≤ s.input.length →
    (idx < entryCount s.geom sp →
      exec (.prd sp idx) s = .next (s.answered 0 0x00 [entryItem sp (s.entry sp idx)])) ∧
    (entryCount s.geom sp ≤ idx →
      exec (.prd sp idx) s = .next (if s.fault = true then s.answered 0 0x24 [] else s.faultedWith 0 0x24))

/-- PCOMMIT (R326, R331): nothing on a committed engine; else UnsupportedSboxExponent unless `ALPHA = 5`, then
InvalidConfiguration unless the checks hold, else PVALID is set and nothing else. -/
def Obligations.PcommitOutcomes : Prop :=
  ∀ s : State, Ready s 0 →
    (s.pvalid = true → exec .pcommit s = .next (s.answered 0 0x00 [])) ∧
    (s.pvalid = false → s.csr.alpha.toNat ≠ 5 → exec .pcommit s = .next (s.faultedWith 0 0x11)) ∧
    (s.pvalid = false → s.csr.alpha.toNat = 5 → s.commitChecks = false →
      exec .pcommit s = .next (s.faultedWith 0 0x10)) ∧
    (s.pvalid = false → s.csr.alpha.toNat = 5 → s.commitChecks = true →
      exec .pcommit s = .next ({ s with pvalid := true }.answered 0 0x00 []))

/-- What the model's commit checks decide is the table K2 to K13 of R327 with the shapes of R296; `det(MDS) != 0`
is the determinant over the field. -/
def Obligations.CommitChecksMean : Prop :=
  ∀ s : State, GeometryValid s.geom →
    let W := s.geom.W
    let family := s.csr.family.toNat
    let sboxinv := s.csr.sboxinv.toNat
    (s.commitChecks = true ↔
      1 ≤ s.rf ∧
      (s.rcLen ≤ s.geom.maxRc ∧ s.orcLen ≤ s.geom.maxRc ∧ s.spLen ≤ s.geom.maxRp ∧
        s.chainLen ≤ s.geom.maxChain) ∧
      (family = 0 → s.rp = 0 ∧ s.rcLen = 2 * s.rf + 1) ∧
      (family = 3 → s.rp = 0 ∧ s.rcLen = 2 * s.rf) ∧
      (family = 1 → Even s.rf ∧ 1 ≤ s.rp ∧ s.rcLen = s.rf + s.rp) ∧
      (family = 2 → Even s.rf ∧ 1 ≤ s.rp ∧ s.rcLen = s.rf + s.rp ∧ (W = 2 ∨ W = 3 ∨ W % 4 = 0)) ∧
      (sboxinv = 1 ∨ sboxinv = 2) ∧
      (sboxinv = 1 → 1 ≤ s.expValue ∧ 5 * s.expValue ≡ 1 [MOD s.geom.P - 1]) ∧
      (sboxinv = 2 → ∀ t, t < s.chainLen →
        (∃ i, decodeStep (s.chainWord t) = .ok (.double i) ∧ i ≤ t) ∨
        (∃ l r, decodeStep (s.chainWord t) = .ok (.add l r) ∧ l ≤ t ∧ r ≤ t)) ∧
      (sboxinv = 2 → 5 * chainExponent s.chainWords ≡ 1 [MOD s.geom.P - 1]) ∧
      (family ≠ 2 →
        (Matrix.of fun i j : Fin W => (s.entry .mds (i.val * W + j.val) : ZMod s.geom.P)).det ≠ 0) ∧
      (family = 1 → s.csr.ctrl = 1 →
        s.orcLen = s.rf + s.rp ∧ s.spLen = s.rp ∧ s.entry .mprime 0 = 1 ∧
        (∀ j, 1 ≤ j → j < W → s.entry .mprime j = 0 ∧ s.entry .mprime (j * W) = 0) ∧
        (∀ k i j, k < s.rp → 1 ≤ i → i < W → 1 ≤ j → j < W →
          s.entry .sparse (k * W * W + i * W + j) = if i = j then 1 else 0) ∧
        (∀ k j, 1 ≤ k → k < s.rp → 1 ≤ j → j < W → s.entry .orc ((s.rf / 2 + k) * W + j) = 0)))

/-- SWR writes one register; else IndexOutOfRange for a register that does not exist, then NonCanonicalOperand
(R328). -/
def Obligations.SwrWritesOneRegister : Prop :=
  ∀ (s : State) (r : Nat), Ready s s.geom.limbs →
    let x := elemOfBeats (s.payload s.geom.limbs)
    (r < s.geom.W → x < s.geom.P →
      exec (.swr r) s = .next ({ s with regs := s.regs.set r x }.answered s.geom.limbs 0x00 [])) ∧
    (s.geom.W ≤ r → exec (.swr r) s = .next (s.faultedWith s.geom.limbs 0x24)) ∧
    (r < s.geom.W → s.geom.P ≤ x → exec (.swr r) s = .next (s.faultedWith s.geom.limbs 0x21))

/-- SRD answers one register and changes nothing else, faulted or not (R329). -/
def Obligations.SrdReadsOneRegister : Prop :=
  ∀ (s : State) (r : Nat), 1 ≤ s.input.length →
    (r < s.geom.W → exec (.srd r) s = .next (s.answered 0 0x00 [.elem (s.reg r)])) ∧
    (s.geom.W ≤ r →
      exec (.srd r) s = .next (if s.fault = true then s.answered 0 0x24 [] else s.faultedWith 0 0x24))

-- Field datapath

/-- FADD, FSUB, FNEG, FMUL and FSQR (R121 to R125, R130 to R134): the destination register gets the reduced
result of the old sources; nothing else changes, committed or not. -/
def Obligations.FieldCommands : Prop :=
  ∀ (s : State) (d a b : Nat), Ready s 0 → d < s.geom.W → a < s.geom.W → b < s.geom.W →
    let P := s.geom.P
    exec (.fadd d a b) s
      = .next ({ s with regs := s.regs.set d ((s.reg a + s.reg b) % P) }.answered 0 0x00 []) ∧
    exec (.fsub d a b) s
      = .next ({ s with regs := s.regs.set d ((s.reg a + P - s.reg b) % P) }.answered 0 0x00 []) ∧
    exec (.fneg d a) s = .next ({ s with regs := s.regs.set d ((P - s.reg a) % P) }.answered 0 0x00 []) ∧
    exec (.fmul d a b) s
      = .next ({ s with regs := s.regs.set d (s.reg a * s.reg b % P) }.answered 0 0x00 []) ∧
    exec (.fsqr d a) s = .next ({ s with regs := s.regs.set d (s.reg a * s.reg a % P) }.answered 0 0x00 [])

/-- FPOW raises to the exponent of space EXP, limb 0 least significant, whatever SBOXINV says; before PCOMMIT it
raises ParamsNotCommitted (R35, R126, R135). -/
def Obligations.FpowRaisesToExp : Prop :=
  ∀ (s : State) (d a : Nat), 1 < s.geom.P → Ready s 0 → d < s.geom.W → a < s.geom.W →
    let e := ((List.range s.geom.limbs).map fun i => s.entry .exp i * 2 ^ (64 * i)).sum
    (s.pvalid = true →
      exec (.fpow d a) s
        = .next ({ s with regs := s.regs.set d (s.reg a ^ e % s.geom.P) }.answered 0 0x00 [])) ∧
    (s.pvalid = false → exec (.fpow d a) s = .next (s.faultedWith 0 0x22))

/-- FINV writes the one element whose product with the source is 1; a zero source raises InverseOfZero
(R127, R136). -/
def Obligations.FinvInverts : Prop :=
  ∀ (s : State) (d a : Nat), s.geom.P.Prime → Ready s 0 → d < s.geom.W → a < s.geom.W →
    s.reg a < s.geom.P →
    (s.reg a ≠ 0 → ∃ b, b < s.geom.P ∧ s.reg a * b % s.geom.P = 1 ∧
      exec (.finv d a) s = .next ({ s with regs := s.regs.set d b }.answered 0 0x00 [])) ∧
    (s.reg a = 0 → exec (.finv d a) s = .next (s.faultedWith 0 0x25))

/-- A register index of W or more raises IndexOutOfRange, before any later check (R95, R103, R137). -/
def Obligations.RegisterIndexFaults : Prop :=
  ∀ (s : State) (d a b : Nat), Ready s 0 →
    (s.geom.W ≤ d ∨ s.geom.W ≤ a →
      exec (.fneg d a) s = .next (s.faultedWith 0 0x24) ∧ exec (.fsqr d a) s = .next (s.faultedWith 0 0x24) ∧
      exec (.fpow d a) s = .next (s.faultedWith 0 0x24) ∧ exec (.finv d a) s = .next (s.faultedWith 0 0x24)) ∧
    (s.geom.W ≤ d ∨ s.geom.W ≤ a ∨ s.geom.W ≤ b →
      exec (.fadd d a b) s = .next (s.faultedWith 0 0x24) ∧
      exec (.fsub d a b) s = .next (s.faultedWith 0 0x24) ∧
      exec (.fmul d a b) s = .next (s.faultedWith 0 0x24))

-- S-box engine

/-- SBF and SBFE: the fifth power of every register, or of one (R150, R152, R153). -/
def Obligations.SbfIsTheFifthPower : Prop :=
  ∀ s : State, Ready s 0 → s.pvalid = true →
    exec .sbf s = .next ({ s with regs := s.regs.map fun x => x ^ 5 % s.geom.P }.answered 0 0x00 []) ∧
    ∀ i, i < s.geom.W →
      exec (.sbfe i) s
        = .next ({ s with regs := s.regs.set i (s.reg i ^ 5 % s.geom.P) }.answered 0 0x00 [])

/-- SBI and SBIE on a committed engine: the power by the exponent of the descriptor, EXP for SBOXINV = 1 and the
chain's exponent for SBOXINV = 2, an inverse of 5 modulo P - 1 (R154 to R157, R163). -/
def Obligations.SbiIsTheInversePower : Prop :=
  ∀ s : State, Inv s → Ready s 0 → s.pvalid = true →
    let e := if s.csr.sboxinv = 1 then s.expValue else chainExponent s.chainWords
    5 * e ≡ 1 [MOD s.geom.P - 1] ∧
    exec .sbi s = .next ({ s with regs := s.regs.map fun x => x ^ e % s.geom.P }.answered 0 0x00 []) ∧
    ∀ i, i < s.geom.W →
      exec (.sbie i) s
        = .next ({ s with regs := s.regs.set i (s.reg i ^ e % s.geom.P) }.answered 0 0x00 [])

/-- The round trip (R155): on a committed engine the inverse S-box raises to an exponent `e >= 1` that inverts 5
modulo P - 1, and the forward and the inverse S-box undo each other, on every element and, as the commands SBF and
SBI, on the whole state; 0, 1 and P - 1 are their own inverse images. -/
def Obligations.SboxRoundTrip : Prop :=
  ∀ s : State, Inv s → s.pvalid = true →
    let P := s.geom.P
    let e := s.inverseExponent
    (1 ≤ e ∧ 5 * e ≡ 1 [MOD P - 1]) ∧
    (∀ x, x < P → s.sboxInverse x = x ^ e % P ∧
      s.sboxInverse x ^ 5 % P = x ∧ s.sboxInverse (x ^ 5 % P) = x) ∧
    s.sboxInverse 0 = 0 ∧ s.sboxInverse 1 = 1 ∧ s.sboxInverse (P - 1) = P - 1 ∧
    (Ready s 1 → ∃ t u t' u',
      exec .sbf s = .next t ∧ exec .sbi t = .next u ∧ u.regs = s.regs ∧
      exec .sbi s = .next t' ∧ exec .sbf t' = .next u' ∧ u'.regs = s.regs)

/-- CH.DBL and CH.ADD append the square of one computed entry, or the product of two, to the scratch list of the
run in progress and change nothing else (R159 to R161). Outside a run the spec gives them no effect and the model
stops (log 3). -/
def Obligations.ChainStepsAppend : Prop :=
  (∀ (s : State) (t : List Nat) (i : Nat), s.activity = .chain t → i < t.length →
    exec (.chDbl i) s = .next { s with activity := .chain (t ++ [t.getD i 0 * t.getD i 0 % s.geom.P]) }) ∧
  (∀ (s : State) (t : List Nat) (l r : Nat), s.activity = .chain t → l < t.length → r < t.length →
    exec (.chAdd l r) s = .next { s with activity := .chain (t ++ [t.getD l 0 * t.getD r 0 % s.geom.P]) }) ∧
  (∀ (s : State) (i l r : Nat), (∀ t, s.activity ≠ .chain t) →
    exec (.chDbl i) s = .fault .chainStepOutsideRun ∧ exec (.chAdd l r) s = .fault .chainStepOutsideRun)

/-- The exponent of a chain (R163): `cexp(0) = 1`, a Double doubles, an Add adds, and entry `t` of a valid chain's
run on `x` is `x` to the power `cexp(t)`. -/
def Obligations.ChainEntriesArePowers : Prop :=
  ∀ (P x : Nat) (ws : List Word), 1 < P → x < P → chainValidFrom 0 ws = true →
    let cexp := fun t => (ws.foldl chainExpAppend [1]).getD t 0
    let T := chainScratch P [x] ws
    cexp 0 = 1 ∧ chainExponent ws = cexp ws.length ∧ chainValue P ws x = T.getD ws.length 0 ∧
    (∀ t i, t < ws.length → decodeStep (ws.getD t 0) = .ok (.double i) → cexp (t + 1) = 2 * cexp i) ∧
    (∀ t l r, t < ws.length → decodeStep (ws.getD t 0) = .ok (.add l r) →
      cexp (t + 1) = cexp l + cexp r) ∧
    ∀ t, t ≤ ws.length → T.getD t 0 = x ^ cexp t % P

/-- The chain interpreter step by step (R159, R163): from a run seeded with `x`, one machine step per step word
leaves the scratch list whose last entry is the chain's value, and one more step ends the run. Machine steps inside a
chain run, and the one more step that ends it with no register written, are the model's choice (DESIGN CHOICE, log 3);
R45 and R159 give the order of the words and the scratch list. -/
def Obligations.SteppingRunsTheChain : Prop :=
  ∀ (s : State) (x : Nat), x < s.geom.P → 1 < s.geom.P → s.activity = .chain [x] →
    chainValidFrom 0 s.chainWords = true →
    ∃ T, Runs s.chainLen s { s with activity := .chain T } ∧ T.length = s.chainLen + 1 ∧
      T.getD 0 0 = x ∧ T.getD s.chainLen 0 = x ^ chainExponent s.chainWords % s.geom.P ∧
      T.getD s.chainLen 0 = chainValue s.geom.P s.chainWords x ∧
      Runs (s.chainLen + 1) s { s with activity := .idle }

-- Linear layers

/-- ARC, ARC0, ARCO and ARCO0 add a constant vector, or its first component only (R171 to R174). -/
def Obligations.RoundConstantCommands : Prop :=
  ∀ (s : State) (r : Nat), s.regs.length = s.geom.W → Ready s 0 → s.pvalid = true → r < s.geom.maxRc →
    let W := s.geom.W
    let P := s.geom.P
    (r < s.rcLen →
      exec (.arc r) s = .next ({ s with
        regs := (List.range W).map fun j => (s.reg j + s.entry .rc (r * W + j)) % P }.answered 0 0x00 []) ∧
      exec (.arc0 r) s = .next ({ s with
        regs := s.regs.set 0 ((s.reg 0 + s.entry .rc (r * W)) % P) }.answered 0 0x00 [])) ∧
    (r < s.orcLen →
      exec (.arco r) s = .next ({ s with
        regs := (List.range W).map fun j => (s.reg j + s.entry .orc (r * W + j)) % P }.answered 0 0x00 []) ∧
      exec (.arco0 r) s = .next ({ s with
        regs := s.regs.set 0 ((s.reg 0 + s.entry .orc (r * W)) % P) }.answered 0 0x00 []))

/-- MDS, MPR and EXL multiply the state, as a row vector, by the matrix of their space (R170, R176, R177, R179). -/
def Obligations.DenseLayerCommands : Prop :=
  ∀ s : State, Ready s 0 → s.pvalid = true →
    let W := s.geom.W
    let product := fun sp : Space => (List.range W).map fun j =>
      ((List.range W).map fun i => s.reg i * s.entry sp (i * W + j)).sum % s.geom.P
    exec .mds s = .next ({ s with regs := product .mds }.answered 0 0x00 []) ∧
    exec .mpr s = .next ({ s with regs := product .mprime }.answered 0 0x00 []) ∧
    exec .exl s = .next ({ s with regs := product .ext }.answered 0 0x00 [])

/-- SPM reads row 0 and column 0 of its sparse matrix only (R178). -/
def Obligations.SpmSparseProduct : Prop :=
  ∀ (s : State) (k : Nat), Ready s 0 → s.pvalid = true → k < s.geom.maxRp → k < s.spLen →
    let W := s.geom.W
    let q := fun i j => s.entry .sparse (k * W * W + i * W + j)
    exec (.spm k) s = .next ({ s with
      regs := (List.range W).map fun j =>
        if j = 0 then ((List.range W).map fun i => s.reg i * q i 0).sum % s.geom.P
        else (s.reg 0 * q 0 j + s.reg j) % s.geom.P }.answered 0 0x00 [])

/-- INL: `((DIAG[i] - 1) * S[i]) + sum(S)` in every element (R180). -/
def Obligations.InlInternalLayer : Prop :=
  ∀ s : State, s.regs.length = s.geom.W → Ready s 0 → s.pvalid = true →
    let P := s.geom.P
    exec .inl s = .next ({ s with
      regs := (List.range s.geom.W).map fun i =>
        ((s.entry .diag i + P - 1) % P * s.reg i + s.regs.sum) % P }.answered 0 0x00 [])

/-- The order of checks of the layer commands and PERMUTE (R153, R157, R175, R190, R360): the static bound, then
the parameters, then the committed length. -/
def Obligations.LayerCheckOrder : Prop :=
  ∀ (s : State) (n : Nat), Ready s 0 →
    (s.pvalid = false → ∀ i ∈ [Instr.sbf, .sbi, .mds, .mpr, .exl, .inl, .permute],
      exec i s = .next (s.faultedWith 0 0x22)) ∧
    (∀ i ∈ [Instr.sbfe n, .sbie n],
      (s.geom.W ≤ n → exec i s = .next (s.faultedWith 0 0x24)) ∧
      (n < s.geom.W → s.pvalid = false → exec i s = .next (s.faultedWith 0 0x22))) ∧
    (∀ i ∈ [Instr.arc n, .arc0 n, .arco n, .arco0 n],
      (s.geom.maxRc ≤ n → exec i s = .next (s.faultedWith 0 0x24)) ∧
      (n < s.geom.maxRc → s.pvalid = false → exec i s = .next (s.faultedWith 0 0x22))) ∧
    ((s.geom.maxRp ≤ n → exec (.spm n) s = .next (s.faultedWith 0 0x24)) ∧
      (n < s.geom.maxRp → s.pvalid = false → exec (.spm n) s = .next (s.faultedWith 0 0x22))) ∧
    (s.pvalid = true →
      (n < s.geom.maxRc → s.rcLen ≤ n →
        exec (.arc n) s = .next (s.faultedWith 0 0x24) ∧ exec (.arc0 n) s = .next (s.faultedWith 0 0x24)) ∧
      (n < s.geom.maxRc → s.orcLen ≤ n →
        exec (.arco n) s = .next (s.faultedWith 0 0x24) ∧ exec (.arco0 n) s = .next (s.faultedWith 0 0x24)) ∧
      (n < s.geom.maxRp → s.spLen ≤ n → exec (.spm n) s = .next (s.faultedWith 0 0x24)))

/-- The sparse product is the full product for a matrix of the sparse shape (R181, R182). -/
def Obligations.SparseProductIsVecmat : Prop :=
  ∀ (P W : Nat) (v : List Nat) (q : Mat),
    (∀ i j, 1 ≤ i → i < W → 1 ≤ j → j < W → q.entry i j = if i = j then 1 else 0) →
    sparseMul P W v q = vecmat P W v q

/-- The internal layer is the product by `J + diag(DIAG[i] - 1)`, `J` the all-ones matrix (R180). -/
def Obligations.InternalLayerIsVecmat : Prop :=
  ∀ (P W : Nat) (v d : List Nat), v.length = W → d.length = W →
    internalLayer P v d
      = vecmat P W v (matOf W W fun i j => if i = j then fieldAdd P 1 (fieldSub P (d.getD i 0) 1) else 1)

-- Permutations

/-- PERMUTE applies the layer operations of its family's expansion, in order, to the registers and changes nothing
else (R190, R192, R195, R197, R203, R205), as many as the spec counts for a committed configuration (R193, R196,
R198, R203, R206). -/
def Obligations.PermuteAppliesItsExpansion : Prop :=
  ∀ s : State, Ready s 0 → s.pvalid = true →
    let rf := s.rf
    let rp := s.rp
    let h := s.rf / 2
    let rescue : List Layer := .arc 0 :: (List.range (2 * rf)).flatMap fun round =>
      [if round % 2 = 0 then .sbi else .sbf, .mds, .arc (round + 1)]
    let rescuePrime : List Layer := (List.range rf).flatMap fun i =>
      [.sbf, .mds, .arc (2 * i), .sbi, .mds, .arc (2 * i + 1)]
    let poseidon : List Layer := (List.range (rf + rp)).flatMap fun r =>
      [.arc r, if r < h ∨ h + rp ≤ r then .sbf else .sbfe 0, .mds]
    let poseidonOpt : List Layer :=
      ((List.range h).flatMap fun r => [.arco r, .sbf, .mds]) ++ [.arco h, .mpr] ++
      ((List.range rp).flatMap fun k =>
        [Layer.sbfe 0] ++ (if k + 1 < rp then [.arco0 (h + (k + 1))] else []) ++ [.spm k]) ++
      ((List.range (rf - h)).flatMap fun i => [.arco (h + rp + i), .sbf, .mds])
    let poseidon2 : List Layer :=
      [.exl] ++ ((List.range h).flatMap fun r => [.arc r, .sbf, .exl]) ++
      ((List.range rp).flatMap fun i => [.arc0 (h + i), .sbfe 0, .inl]) ++
      ((List.range (rf - h)).flatMap fun i => [.arc (h + rp + i), .sbf, .exl])
    let layers :=
      if s.csr.family = 0 then rescue
      else if s.csr.family = 1 then (if s.csr.ctrl = 1 then poseidonOpt else poseidon)
      else if s.csr.family = 2 then poseidon2
      else rescuePrime
    exec .permute s
      = .next ({ s with regs := layers.foldl (fun v l => applyLayer s l v) s.regs }.answered 0 0x00 []) ∧
    rescue.length = 1 + 6 * rf ∧ rescuePrime.length = 6 * rf ∧ poseidon.length = 3 * (rf + rp) ∧
    (Even rf → 1 ≤ rp → poseidonOpt.length = 3 * rf + 2 + 3 * rp - 1) ∧
    (Even rf → poseidon2.length = 1 + 3 * (rf + rp))

/-- PERMUTE is its layer commands issued one by one (R92, R207, R367): a host that sends the commands of the
expansion instead gets the same registers and one ok response for each, no index check failing, since the commit
has checked every index (R330). That each command is one 64-bit transfer (`wordBeat`) is the model's choice (log 4). -/
def Obligations.PermuteEqualsItsLayerCommands : Prop :=
  ∀ (s : State) (rest : List Beat), Inv s → s.pvalid = true → s.fault = false → s.activity = .idle →
    s.input = s.expansion.map (fun l => wordBeat (encode l.command)) ++ rest →
    Runs s.expansion.length s { s with
      regs := s.permute s.regs
      input := rest
      output := s.output ++ List.replicate s.expansion.length { code := 0x00, items := [] } }

/-- The sequencer, layer by layer, from round 0 and phase 0 (R207): as many steps as the expansion has layer
operations and one to find that none is left give the registers of PERMUTE and change nothing else. Machine steps from
a hidden position, the one more step, and that such a run appends no response are the model's choice (DESIGN CHOICE,
log 3); R45 and R207 give the positions, their order and the final registers. -/
def Obligations.SequencerRunsPermute : Prop :=
  ∀ s : State, s.activity = .permuting 0 0 →
    Runs (s.expansion.length + 1) s { s with regs := s.permute s.regs, activity := .idle }

/-- The optimised Poseidon schedule computes Poseidon when the loaded bundle is the one that R293 to R295 compute
from the committed MDS and RC (R204, R297). -/
def Obligations.PoseidonOptEqualsPoseidon : Prop :=
  ∀ (s : State) (v : List Nat), Inv s → s.pvalid = true → s.csr.family = 1 → s.bundleConsistent = true →
    IsVector s.geom v →
    applyLayers s (poseidonOptRounds s.rf s.rp).flatten v = applyLayers s (poseidonRounds s.rf s.rp).flatten v

/-- PERMUTE is a function of the registers and the committed parameters, and changes nothing but the registers
(R191). -/
def Obligations.PermuteIsAFunction : Prop :=
  ∀ s u : State, s.geom = u.geom → s.regs = u.regs → s.params = u.params →
    s.csr = { u.csr with hlen := s.csr.hlen } → Ready s 0 → Ready u 0 → s.pvalid = true → u.pvalid = true →
    ∃ v, exec .permute s = .next ({ s with regs := v }.answered 0 0x00 []) ∧
      exec .permute u = .next ({ u with regs := v }.answered 0 0x00 [])

/-- The raw permutation call (R332): a host that writes the W registers, issues PERMUTE and reads the W registers
gets the permutation of what it wrote, element by element, whatever stood in the registers before; mode and buffer
are not touched (R391). That its commands come in 64-bit transfers is the model's choice (log 4). -/
def Obligations.RawPermutationCall : Prop :=
  ∀ (s : State) (vs : List Nat) (rest : List Beat), Inv s → s.pvalid = true → s.fault = false →
    s.activity = .idle → IsVector s.geom vs → s.input = rawPermutation s.geom vs ++ rest →
    Runs (2 * s.geom.W + 1) s { s with
      regs := s.permute vs
      input := rest
      output := s.output ++ List.replicate (s.geom.W + 1) { code := 0x00, items := [] }
        ++ (s.permute vs).map fun v => { code := 0x00, items := [.elem v] } }

/-- On a committed engine Rescue, RescuePrime, Poseidon and, with a consistent bundle, optimised Poseidon permute
the W-vectors over the field (R209). -/
def Obligations.PermuteIsABijection : Prop :=
  ∀ s : State, Inv s → s.pvalid = true →
    s.csr.family = 0 ∨ s.csr.family = 3 ∨
      (s.csr.family = 1 ∧ (s.csr.ctrl = 0 ∨ s.bundleConsistent = true)) →
    (∀ v, IsVector s.geom v → IsVector s.geom (s.permute v)) ∧
    (∀ v w, IsVector s.geom v → IsVector s.geom w → s.permute v = s.permute w → v = w) ∧
    ∀ w, IsVector s.geom w → ∃ v, IsVector s.geom v ∧ s.permute v = w

-- Domain strategies

/-- DCAP answers a flag and the capacity value, reduced modulo P, and changes nothing else (R231 to R238).
Code 4, NoPadding, is accepted by the model's choice (DESIGN CHOICE, log 11; U6 lets an engine refuse
it). -/
def Obligations.DcapAnswersTheCapacity : Prop :=
  ∀ s : State, Ready s 0 →
    let n := s.csr.hlen.toNat
    let some' := fun v : Nat => Host.Outcome.next (s.answered 0 0x00 [.csr 1, .elem (v % s.geom.P)])
    exec (.dcap .fixedLength) s = some' (n * 2 ^ 64 + (s.geom.R - 1)) ∧
    exec (.dcap .variableLength) s = some' (2 ^ 64 + (s.geom.R - 1)) ∧
    exec (.dcap .customFixedLength) s = some' n ∧
    ∀ st ∈ [Strategy.customVariableLength, .noPadding],
      exec (.dcap st) s = .next (s.answered 0 0x00 [.csr 0, .elem 0])

/-- DPAD answers the count and the padding elements, or the signal MisalignedVariableLengthInput, and changes
nothing else; input and padding fill whole blocks (R232 to R237, R239). Code 4, NoPadding, is accepted by the
model's choice (DESIGN CHOICE, log 11; U6 lets an engine refuse it). -/
def Obligations.DpadAnswersThePadding : Prop :=
  ∀ s : State, Ready s 0 → 1 ≤ s.geom.R →
    let n := s.csr.hlen.toNat
    let R := s.geom.R
    let z := (R - n % R) % R
    let y := R - n % R
    (∀ st ∈ [Strategy.fixedLength, .customFixedLength],
      exec (.dpad st) s
        = .next (s.answered 0 0x00 (.csr (BitVec.ofNat 64 z) :: List.replicate z (.elem 0)))) ∧
    exec (.dpad .variableLength) s
      = .next (s.answered 0 0x00
          (.csr (BitVec.ofNat 64 y) :: .elem 1 :: List.replicate (y - 1) (.elem 0))) ∧
    (∀ st ∈ [Strategy.customVariableLength, .noPadding],
      exec (.dpad st) s = .next (if n % R = 0 then s.answered 0 0x00 [.csr 0] else s.answered 0 0x02 [])) ∧
    (n + z) % R = 0 ∧ z < R ∧ (n + y) % R = 0 ∧ 1 ≤ y ∧ y ≤ R

-- Sponge

/-- SPNEW: zero registers, Absorbing, empty buffer; it needs no committed parameters (R251). -/
def Obligations.SpnewClearsTheSponge : Prop :=
  ∀ s : State, Ready s 0 →
    exec .spnew s = .next ({ s with
      regs := List.replicate s.geom.W 0
      mode := .absorbing
      buf := List.replicate s.geom.R none }.answered 0 0x00 [])

/-- ABSORB, one clause for each row of the transition table (R252, R253, R260): push while the buffer does not
fill; at the R-th element add the buffer into the rate part, permute and clear it; in Squeezing mode drop the
unread output first and keep the registers. -/
def Obligations.AbsorbTransitions : Prop :=
  ∀ (s : State), Inv s → Ready s s.geom.limbs → s.pvalid = true →
    let R := s.geom.R
    let x := elemOfBeats (s.payload s.geom.limbs)
    let c := s.buf.countP Option.isSome
    let done := fun t : State => Host.Outcome.next (t.answered s.geom.limbs 0x00 [])
    x < s.geom.P →
    (s.mode = .absorbing → c + 1 < R →
      exec .absorb s = done { s with buf := s.buf.set c (some x) }) ∧
    (s.mode = .absorbing → c + 1 = R →
      exec .absorb s = done { s with
        regs := s.permute ((List.range s.geom.W).map fun i =>
          if i < c then (s.reg i + (s.buf.getD i none).getD 0) % s.geom.P
          else if i = c then (s.reg i + x) % s.geom.P else s.reg i)
        buf := List.replicate R none }) ∧
    (s.mode = .squeezing → 1 < R →
      exec .absorb s = done { s with
        mode := .absorbing, buf := (List.replicate R none).set 0 (some x) }) ∧
    (s.mode = .squeezing → R = 1 →
      exec .absorb s = done { s with
        regs := s.permute (s.regs.set 0 ((s.reg 0 + x) % s.geom.P))
        mode := .absorbing
        buf := List.replicate R none })

/-- ABSORBN is that many ABSORB commands in payload order, answered once (R254); with no element it changes
nothing. The 64-bit transfers of words and elements are the model's choice (log 4). -/
def Obligations.AbsorbnEqualsAbsorbs : Prop :=
  ∀ (s : State) (xs : List Nat) (w : Beat) (rest : List Beat), Inv s → s.fault = false → s.pvalid = true →
    s.activity = .idle → (∀ x ∈ xs, x < s.geom.P) →
    s.input = w :: (xs.flatMap (beatsOfElem s.geom.limbs) ++ rest) →
    ∃ (regs : List Nat) (mode : Mode) (buf : List (Option Nat)),
      exec (.absorbn xs.length) s = .next { s with
        regs := regs, mode := mode, buf := buf, input := rest
        output := s.output ++ [{ code := 0x00, items := [] }] } ∧
      Runs xs.length
        { s with input :=
            xs.flatMap (fun x => wordBeat 0x00000041 :: beatsOfElem s.geom.limbs x) ++ rest }
        { s with
          regs := regs, mode := mode, buf := buf, input := rest
          output := s.output ++ List.replicate xs.length { code := 0x00, items := [] } } ∧
      (xs = [] → regs = s.regs ∧ mode = s.mode ∧ buf = s.buf)

/-- SQUEEZE, one clause for each row of the transition table (R255, R260): from an empty Absorbing buffer the rate
part is copied without a permutation; a partly filled one gives the signal; in Squeezing mode the lowest unread
element is taken, after a permutation and a new copy when everything was read. -/
def Obligations.SqueezeTransitions : Prop :=
  ∀ s : State, Inv s → Ready s 0 → s.pvalid = true →
    let R := s.geom.R
    let c := s.buf.countP Option.isSome
    let copied := fun v : List Nat =>
      (List.range R).map fun i => if i = 0 then none else some (v.getD i 0)
    (s.mode = .absorbing → c = 0 →
      exec .squeeze s = .next ({ s with
        mode := .squeezing, buf := copied s.regs }.answered 0 0x00 [.elem (s.reg 0)])) ∧
    (s.mode = .absorbing → 0 < c → exec .squeeze s = .next (s.answered 0 0x01 [])) ∧
    (s.mode = .squeezing → 0 < c → ∃ v, s.buf.getD (R - c) none = some v ∧
      exec .squeeze s = .next ({ s with buf := s.buf.set (R - c) none }.answered 0 0x00 [.elem v])) ∧
    (s.mode = .squeezing → c = 0 →
      exec .squeeze s = .next ({ s with
        regs := s.permute s.regs
        buf := copied (s.permute s.regs) }.answered 0 0x00 [.elem ((s.permute s.regs).getD 0 0)]))

/-- SQUEEZEN is that many SQUEEZE commands, their elements in one response (R257); only at its first element can
it give the signal, and then nothing changes. The 64-bit transfers of the command words are the model's choice
(log 4). -/
def Obligations.SqueezenEqualsSqueezes : Prop :=
  ∀ (s : State) (k : Nat), Inv s → Ready s 0 → s.pvalid = true → s.activity = .idle →
    let partly := s.mode = .absorbing ∧ 0 < s.buf.countP Option.isSome
    (k = 0 ∨ ¬partly → ∃ (regs : List Nat) (mode : Mode) (buf : List (Option Nat)) (vs : List Nat), vs.length = k ∧
      exec (.squeezen k) s
        = .next ({ s with regs := regs, mode := mode, buf := buf }.answered 0 0x00 (vs.map .elem)) ∧
      Runs k { s with input := List.replicate k (wordBeat 0x00000043) ++ s.input.drop 1 }
        { s with
          regs := regs, mode := mode, buf := buf, input := s.input.drop 1
          output := s.output ++ vs.map fun v => { code := 0x00, items := [.elem v] } } ∧
      (k = 0 → regs = s.regs ∧ mode = s.mode ∧ buf = s.buf)) ∧
    (0 < k → partly → exec (.squeezen k) s = .next (s.answered 0 0x01 []))

/-- HASH is the block sponge over the padded input (R253, R258, R259): from the zero state with the capacity value
in its last element, each block of R elements is added into the rate part and the state permuted; the answer is the
rate part, and the engine is left Squeezing with everything read. Code 4, NoPadding, is accepted by the model's
choice (DESIGN CHOICE, log 11; U6 lets an engine refuse it). -/
def Obligations.HashIsTheBlockSponge : Prop :=
  ∀ (s : State) (st : Strategy) (pad : List Nat), Inv s → Ready s (s.hLen * s.geom.limbs) →
    s.pvalid = true → paddingValues s.geom.R st s.hLen = some pad →
    let n := s.hLen
    let W := s.geom.W
    let R := s.geom.R
    let xs := elemsOfBeats s.geom.limbs n (s.payload (n * s.geom.limbs))
    let initial := List.replicate (W - 1) 0 ++ [(capacityValue s.geom.P R st n).getD 0]
    let block := fun (v : List Nat) (k : Nat) => s.permute ((List.range W).map fun i =>
      if i < R then (v.getD i 0 + (xs ++ pad).getD (k * R + i) 0) % s.geom.P else v.getD i 0)
    let final := (List.range ((n + pad.length) / R)).foldl block initial
    (∀ x ∈ xs, x < s.geom.P) →
    exec (.hash st) s = .next ({ s with
      regs := final
      mode := .squeezing
      buf := List.replicate R none }.answered (n * s.geom.limbs) 0x00 ((final.take R).map .elem))

/-- The order of checks of the absorbing and squeezing commands and HASH (R252, R254, R255, R257, R258, R360):
NonCanonicalOperand, then ParamsNotCommitted, then the signals, each with nothing else changed and the whole payload
consumed. Code 4, NoPadding, is accepted by the model's choice (DESIGN CHOICE, log 11; U6 lets an engine refuse
it). -/
def Obligations.SpongeCheckOrder : Prop :=
  (∀ s : State, s.fault = false → ∀ i n, (i, n) ∈ [(Instr.absorb, 1), (.hash .fixedLength, s.hLen),
      (.hash .variableLength, s.hLen), (.hash .customFixedLength, s.hLen),
      (.hash .customVariableLength, s.hLen), (.hash .noPadding, s.hLen)] ∨ i = .absorbn n →
    1 + n * s.geom.limbs ≤ s.input.length →
    let xs := elemsOfBeats s.geom.limbs n (s.payload (n * s.geom.limbs))
    ((∃ x ∈ xs, s.geom.P ≤ x) → exec i s = .next (s.faultedWith (n * s.geom.limbs) 0x21)) ∧
    ((∀ x ∈ xs, x < s.geom.P) → s.pvalid = false →
      exec i s = .next (s.faultedWith (n * s.geom.limbs) 0x22)) ∧
    ((∀ x ∈ xs, x < s.geom.P) → s.pvalid = true → s.hLen % s.geom.R ≠ 0 →
      i = .hash .customVariableLength ∨ i = .hash .noPadding →
      exec i s = .next (s.answered (n * s.geom.limbs) 0x02 []))) ∧
  (∀ (s : State) (k : Nat), Ready s 0 → s.pvalid = false →
    exec .squeeze s = .next (s.faultedWith 0 0x22) ∧ exec (.squeezen k) s = .next (s.faultedWith 0 0x22))

-- Host-side construction

/-- What the host computes (R287, R290, R291): batch inversion is the element-wise inverse with zeros left in
place; the inverse exponent is the inverse of 5 modulo P - 1 (for P = 2 the model answers none, log 18, and nothing is
stated); the binary chain for `e` is valid, has exponent `e`
and at most `2 * (bitlen(e) - 1)` steps. -/
def Obligations.HostConstruction : Prop :=
  (∀ (P : Nat) (v : List Nat), P.Prime → (∀ x ∈ v, x < P) →
    (batchInverse P v).length = v.length ∧
    ∀ i, i < v.length →
      (v.getD i 0 = 0 → (batchInverse P v).getD i 0 = 0) ∧
      (v.getD i 0 ≠ 0 → (batchInverse P v).getD i 0 < P ∧ v.getD i 0 * (batchInverse P v).getD i 0 % P = 1)) ∧
  (∀ P : Nat, P.Prime → 2 < P → Nat.Coprime 5 (P - 1) →
    ∃ e, alphaInverse P = some e ∧ 1 ≤ e ∧ e < P - 1 ∧ 5 * e ≡ 1 [MOD P - 1]) ∧
  (∀ e : Nat, 1 ≤ e → 2 * e.log2 < 2 ^ 15 →
    let ws := (binaryChain e).map fun st => encode st.toInstr
    chainValidFrom 0 ws = true ∧ chainExponent ws = e ∧ ws.length ≤ 2 * e.log2)
end

