-- ==== Sys2Proof/Laws/State.lean ====
section
/-! SUPPORT. What each update of the state does to each field: one lemma per field per update. -/

namespace Sys2Proof.Machine

variable (s : State)

-- State.setRegs

@[simp] theorem State.setRegs_geom (v : List Nat) : (s.setRegs v).geom = s.geom := rfl
@[simp] theorem State.setRegs_regs (v : List Nat) : (s.setRegs v).regs = v := rfl
@[simp] theorem State.setRegs_mode (v : List Nat) : (s.setRegs v).mode = s.mode := rfl
@[simp] theorem State.setRegs_buf (v : List Nat) : (s.setRegs v).buf = s.buf := rfl
@[simp] theorem State.setRegs_pvalid (v : List Nat) : (s.setRegs v).pvalid = s.pvalid := rfl
@[simp] theorem State.setRegs_fault (v : List Nat) : (s.setRegs v).fault = s.fault := rfl
@[simp] theorem State.setRegs_err (v : List Nat) : (s.setRegs v).err = s.err := rfl
@[simp] theorem State.setRegs_csr (v : List Nat) : (s.setRegs v).csr = s.csr := rfl
@[simp] theorem State.setRegs_params (v : List Nat) : (s.setRegs v).params = s.params := rfl
@[simp] theorem State.setRegs_activity (v : List Nat) : (s.setRegs v).activity = s.activity := rfl
@[simp] theorem State.setRegs_input (v : List Nat) : (s.setRegs v).input = s.input := rfl
@[simp] theorem State.setRegs_output (v : List Nat) : (s.setRegs v).output = s.output := rfl

-- State.setReg

@[simp] theorem State.setReg_geom (i v : Nat) : (s.setReg i v).geom = s.geom := rfl
@[simp] theorem State.setReg_regs (i v : Nat) : (s.setReg i v).regs = s.regs.set i v := rfl
@[simp] theorem State.setReg_mode (i v : Nat) : (s.setReg i v).mode = s.mode := rfl
@[simp] theorem State.setReg_buf (i v : Nat) : (s.setReg i v).buf = s.buf := rfl
@[simp] theorem State.setReg_pvalid (i v : Nat) : (s.setReg i v).pvalid = s.pvalid := rfl
@[simp] theorem State.setReg_fault (i v : Nat) : (s.setReg i v).fault = s.fault := rfl
@[simp] theorem State.setReg_err (i v : Nat) : (s.setReg i v).err = s.err := rfl
@[simp] theorem State.setReg_csr (i v : Nat) : (s.setReg i v).csr = s.csr := rfl
@[simp] theorem State.setReg_params (i v : Nat) : (s.setReg i v).params = s.params := rfl
@[simp] theorem State.setReg_activity (i v : Nat) : (s.setReg i v).activity = s.activity := rfl
@[simp] theorem State.setReg_input (i v : Nat) : (s.setReg i v).input = s.input := rfl
@[simp] theorem State.setReg_output (i v : Nat) : (s.setReg i v).output = s.output := rfl

-- State.setSponge

@[simp] theorem State.setSponge_geom (v : List Nat) (m : Mode) (b : List (Option Nat)) :
    (s.setSponge v m b).geom = s.geom := rfl
@[simp] theorem State.setSponge_regs (v : List Nat) (m : Mode) (b : List (Option Nat)) :
    (s.setSponge v m b).regs = v := rfl
@[simp] theorem State.setSponge_mode (v : List Nat) (m : Mode) (b : List (Option Nat)) :
    (s.setSponge v m b).mode = m := rfl
@[simp] theorem State.setSponge_buf (v : List Nat) (m : Mode) (b : List (Option Nat)) :
    (s.setSponge v m b).buf = b := rfl
@[simp] theorem State.setSponge_pvalid (v : List Nat) (m : Mode) (b : List (Option Nat)) :
    (s.setSponge v m b).pvalid = s.pvalid := rfl
@[simp] theorem State.setSponge_fault (v : List Nat) (m : Mode) (b : List (Option Nat)) :
    (s.setSponge v m b).fault = s.fault := rfl
@[simp] theorem State.setSponge_err (v : List Nat) (m : Mode) (b : List (Option Nat)) :
    (s.setSponge v m b).err = s.err := rfl
@[simp] theorem State.setSponge_csr (v : List Nat) (m : Mode) (b : List (Option Nat)) :
    (s.setSponge v m b).csr = s.csr := rfl
@[simp] theorem State.setSponge_params (v : List Nat) (m : Mode) (b : List (Option Nat)) :
    (s.setSponge v m b).params = s.params := rfl
@[simp] theorem State.setSponge_activity (v : List Nat) (m : Mode) (b : List (Option Nat)) :
    (s.setSponge v m b).activity = s.activity := rfl
@[simp] theorem State.setSponge_input (v : List Nat) (m : Mode) (b : List (Option Nat)) :
    (s.setSponge v m b).input = s.input := rfl
@[simp] theorem State.setSponge_output (v : List Nat) (m : Mode) (b : List (Option Nat)) :
    (s.setSponge v m b).output = s.output := rfl

-- State.setPvalid

@[simp] theorem State.setPvalid_geom : (s.setPvalid).geom = s.geom := rfl
@[simp] theorem State.setPvalid_regs : (s.setPvalid).regs = s.regs := rfl
@[simp] theorem State.setPvalid_mode : (s.setPvalid).mode = s.mode := rfl
@[simp] theorem State.setPvalid_buf : (s.setPvalid).buf = s.buf := rfl
@[simp] theorem State.setPvalid_pvalid : (s.setPvalid).pvalid = true := rfl
@[simp] theorem State.setPvalid_fault : (s.setPvalid).fault = s.fault := rfl
@[simp] theorem State.setPvalid_err : (s.setPvalid).err = s.err := rfl
@[simp] theorem State.setPvalid_csr : (s.setPvalid).csr = s.csr := rfl
@[simp] theorem State.setPvalid_params : (s.setPvalid).params = s.params := rfl
@[simp] theorem State.setPvalid_activity : (s.setPvalid).activity = s.activity := rfl
@[simp] theorem State.setPvalid_input : (s.setPvalid).input = s.input := rfl
@[simp] theorem State.setPvalid_output : (s.setPvalid).output = s.output := rfl

-- State.setCsr

@[simp] theorem State.setCsr_geom (c : Csrs) : (s.setCsr c).geom = s.geom := rfl
@[simp] theorem State.setCsr_regs (c : Csrs) : (s.setCsr c).regs = s.regs := rfl
@[simp] theorem State.setCsr_mode (c : Csrs) : (s.setCsr c).mode = s.mode := rfl
@[simp] theorem State.setCsr_buf (c : Csrs) : (s.setCsr c).buf = s.buf := rfl
@[simp] theorem State.setCsr_pvalid (c : Csrs) : (s.setCsr c).pvalid = s.pvalid := rfl
@[simp] theorem State.setCsr_fault (c : Csrs) : (s.setCsr c).fault = s.fault := rfl
@[simp] theorem State.setCsr_err (c : Csrs) : (s.setCsr c).err = s.err := rfl
@[simp] theorem State.setCsr_csr (c : Csrs) : (s.setCsr c).csr = c := rfl
@[simp] theorem State.setCsr_params (c : Csrs) : (s.setCsr c).params = s.params := rfl
@[simp] theorem State.setCsr_activity (c : Csrs) : (s.setCsr c).activity = s.activity := rfl
@[simp] theorem State.setCsr_input (c : Csrs) : (s.setCsr c).input = s.input := rfl
@[simp] theorem State.setCsr_output (c : Csrs) : (s.setCsr c).output = s.output := rfl

-- State.setActivity

@[simp] theorem State.setActivity_geom (a : Activity) : (s.setActivity a).geom = s.geom := rfl
@[simp] theorem State.setActivity_regs (a : Activity) : (s.setActivity a).regs = s.regs := rfl
@[simp] theorem State.setActivity_mode (a : Activity) : (s.setActivity a).mode = s.mode := rfl
@[simp] theorem State.setActivity_buf (a : Activity) : (s.setActivity a).buf = s.buf := rfl
@[simp] theorem State.setActivity_pvalid (a : Activity) : (s.setActivity a).pvalid = s.pvalid := rfl
@[simp] theorem State.setActivity_fault (a : Activity) : (s.setActivity a).fault = s.fault := rfl
@[simp] theorem State.setActivity_err (a : Activity) : (s.setActivity a).err = s.err := rfl
@[simp] theorem State.setActivity_csr (a : Activity) : (s.setActivity a).csr = s.csr := rfl
@[simp] theorem State.setActivity_params (a : Activity) : (s.setActivity a).params = s.params := rfl
@[simp] theorem State.setActivity_activity (a : Activity) : (s.setActivity a).activity = a := rfl
@[simp] theorem State.setActivity_input (a : Activity) : (s.setActivity a).input = s.input := rfl
@[simp] theorem State.setActivity_output (a : Activity) : (s.setActivity a).output = s.output := rfl

-- State.setInput

@[simp] theorem State.setInput_geom (l : List Beat) : (s.setInput l).geom = s.geom := rfl
@[simp] theorem State.setInput_regs (l : List Beat) : (s.setInput l).regs = s.regs := rfl
@[simp] theorem State.setInput_mode (l : List Beat) : (s.setInput l).mode = s.mode := rfl
@[simp] theorem State.setInput_buf (l : List Beat) : (s.setInput l).buf = s.buf := rfl
@[simp] theorem State.setInput_pvalid (l : List Beat) : (s.setInput l).pvalid = s.pvalid := rfl
@[simp] theorem State.setInput_fault (l : List Beat) : (s.setInput l).fault = s.fault := rfl
@[simp] theorem State.setInput_err (l : List Beat) : (s.setInput l).err = s.err := rfl
@[simp] theorem State.setInput_csr (l : List Beat) : (s.setInput l).csr = s.csr := rfl
@[simp] theorem State.setInput_params (l : List Beat) : (s.setInput l).params = s.params := rfl
@[simp] theorem State.setInput_activity (l : List Beat) : (s.setInput l).activity = s.activity := rfl
@[simp] theorem State.setInput_input (l : List Beat) : (s.setInput l).input = l := rfl
@[simp] theorem State.setInput_output (l : List Beat) : (s.setInput l).output = s.output := rfl

-- State.consume

@[simp] theorem State.consume_geom (n : Nat) : (s.consume n).geom = s.geom := rfl
@[simp] theorem State.consume_regs (n : Nat) : (s.consume n).regs = s.regs := rfl
@[simp] theorem State.consume_mode (n : Nat) : (s.consume n).mode = s.mode := rfl
@[simp] theorem State.consume_buf (n : Nat) : (s.consume n).buf = s.buf := rfl
@[simp] theorem State.consume_pvalid (n : Nat) : (s.consume n).pvalid = s.pvalid := rfl
@[simp] theorem State.consume_fault (n : Nat) : (s.consume n).fault = s.fault := rfl
@[simp] theorem State.consume_err (n : Nat) : (s.consume n).err = s.err := rfl
@[simp] theorem State.consume_csr (n : Nat) : (s.consume n).csr = s.csr := rfl
@[simp] theorem State.consume_params (n : Nat) : (s.consume n).params = s.params := rfl
@[simp] theorem State.consume_activity (n : Nat) : (s.consume n).activity = s.activity := rfl
@[simp] theorem State.consume_input (n : Nat) : (s.consume n).input = s.input.drop n := rfl
@[simp] theorem State.consume_output (n : Nat) : (s.consume n).output = s.output := rfl

-- State.setEntry

@[simp] theorem State.setEntry_geom (sp : Space) (i v : Nat) : (s.setEntry sp i v).geom = s.geom := rfl
@[simp] theorem State.setEntry_regs (sp : Space) (i v : Nat) : (s.setEntry sp i v).regs = s.regs := rfl
@[simp] theorem State.setEntry_mode (sp : Space) (i v : Nat) : (s.setEntry sp i v).mode = s.mode := rfl
@[simp] theorem State.setEntry_buf (sp : Space) (i v : Nat) : (s.setEntry sp i v).buf = s.buf := rfl
@[simp] theorem State.setEntry_pvalid (sp : Space) (i v : Nat) : (s.setEntry sp i v).pvalid = s.pvalid := rfl
@[simp] theorem State.setEntry_fault (sp : Space) (i v : Nat) : (s.setEntry sp i v).fault = s.fault := rfl
@[simp] theorem State.setEntry_err (sp : Space) (i v : Nat) : (s.setEntry sp i v).err = s.err := rfl
@[simp] theorem State.setEntry_csr (sp : Space) (i v : Nat) : (s.setEntry sp i v).csr = s.csr := rfl
@[simp] theorem State.setEntry_params (sp : Space) (i v : Nat) :
    (s.setEntry sp i v).params = s.params.set sp ((s.params.get sp).write i v) := rfl
@[simp] theorem State.setEntry_activity (sp : Space) (i v : Nat) : (s.setEntry sp i v).activity = s.activity := rfl
@[simp] theorem State.setEntry_input (sp : Space) (i v : Nat) : (s.setEntry sp i v).input = s.input := rfl
@[simp] theorem State.setEntry_output (sp : Space) (i v : Nat) : (s.setEntry sp i v).output = s.output := rfl

-- State.respond

@[simp] theorem State.respond_geom (c : Code) (l : List Item) : (s.respond c l).geom = s.geom := rfl
@[simp] theorem State.respond_regs (c : Code) (l : List Item) : (s.respond c l).regs = s.regs := rfl
@[simp] theorem State.respond_mode (c : Code) (l : List Item) : (s.respond c l).mode = s.mode := rfl
@[simp] theorem State.respond_buf (c : Code) (l : List Item) : (s.respond c l).buf = s.buf := rfl
@[simp] theorem State.respond_pvalid (c : Code) (l : List Item) : (s.respond c l).pvalid = s.pvalid := rfl
@[simp] theorem State.respond_fault (c : Code) (l : List Item) : (s.respond c l).fault = s.fault := rfl
@[simp] theorem State.respond_err (c : Code) (l : List Item) : (s.respond c l).err = s.err := rfl
@[simp] theorem State.respond_csr (c : Code) (l : List Item) : (s.respond c l).csr = s.csr := rfl
@[simp] theorem State.respond_params (c : Code) (l : List Item) : (s.respond c l).params = s.params := rfl
@[simp] theorem State.respond_activity (c : Code) (l : List Item) : (s.respond c l).activity = s.activity := rfl
@[simp] theorem State.respond_input (c : Code) (l : List Item) : (s.respond c l).input = s.input := rfl
@[simp] theorem State.respond_output (c : Code) (l : List Item) :
    (s.respond c l).output = s.output ++ [{ code := c.byte, items := l }] := rfl

-- State.answered

@[simp] theorem State.answered_geom (n : Nat) (c : BitVec 8) (l : List Item) : (s.answered n c l).geom = s.geom := rfl
@[simp] theorem State.answered_regs (n : Nat) (c : BitVec 8) (l : List Item) : (s.answered n c l).regs = s.regs := rfl
@[simp] theorem State.answered_mode (n : Nat) (c : BitVec 8) (l : List Item) : (s.answered n c l).mode = s.mode := rfl
@[simp] theorem State.answered_buf (n : Nat) (c : BitVec 8) (l : List Item) : (s.answered n c l).buf = s.buf := rfl
@[simp] theorem State.answered_pvalid (n : Nat) (c : BitVec 8) (l : List Item) :
    (s.answered n c l).pvalid = s.pvalid := rfl
@[simp] theorem State.answered_fault (n : Nat) (c : BitVec 8) (l : List Item) :
    (s.answered n c l).fault = s.fault := rfl
@[simp] theorem State.answered_err (n : Nat) (c : BitVec 8) (l : List Item) : (s.answered n c l).err = s.err := rfl
@[simp] theorem State.answered_csr (n : Nat) (c : BitVec 8) (l : List Item) : (s.answered n c l).csr = s.csr := rfl
@[simp] theorem State.answered_params (n : Nat) (c : BitVec 8) (l : List Item) :
    (s.answered n c l).params = s.params := rfl
@[simp] theorem State.answered_activity (n : Nat) (c : BitVec 8) (l : List Item) :
    (s.answered n c l).activity = s.activity := rfl
@[simp] theorem State.answered_input (n : Nat) (c : BitVec 8) (l : List Item) :
    (s.answered n c l).input = s.input.drop (1 + n) := rfl
@[simp] theorem State.answered_output (n : Nat) (c : BitVec 8) (l : List Item) :
    (s.answered n c l).output = s.output ++ [{ code := c, items := l }] := rfl

-- State.faultedWith

@[simp] theorem State.faultedWith_geom (n : Nat) (c : BitVec 8) : (s.faultedWith n c).geom = s.geom := rfl
@[simp] theorem State.faultedWith_regs (n : Nat) (c : BitVec 8) : (s.faultedWith n c).regs = s.regs := rfl
@[simp] theorem State.faultedWith_mode (n : Nat) (c : BitVec 8) : (s.faultedWith n c).mode = s.mode := rfl
@[simp] theorem State.faultedWith_buf (n : Nat) (c : BitVec 8) : (s.faultedWith n c).buf = s.buf := rfl
@[simp] theorem State.faultedWith_pvalid (n : Nat) (c : BitVec 8) : (s.faultedWith n c).pvalid = s.pvalid := rfl
@[simp] theorem State.faultedWith_fault (n : Nat) (c : BitVec 8) : (s.faultedWith n c).fault = true := rfl
@[simp] theorem State.faultedWith_err (n : Nat) (c : BitVec 8) : (s.faultedWith n c).err = c := rfl
@[simp] theorem State.faultedWith_csr (n : Nat) (c : BitVec 8) : (s.faultedWith n c).csr = s.csr := rfl
@[simp] theorem State.faultedWith_params (n : Nat) (c : BitVec 8) : (s.faultedWith n c).params = s.params := rfl
@[simp] theorem State.faultedWith_activity (n : Nat) (c : BitVec 8) : (s.faultedWith n c).activity = s.activity := rfl
@[simp] theorem State.faultedWith_input (n : Nat) (c : BitVec 8) :
    (s.faultedWith n c).input = s.input.drop (1 + n) := rfl
@[simp] theorem State.faultedWith_output (n : Nat) (c : BitVec 8) :
    (s.faultedWith n c).output = s.output ++ [{ code := c, items := [] }] := rfl

-- State.newSponge

@[simp] theorem State.newSponge_geom : (s.newSponge).geom = s.geom := rfl
@[simp] theorem State.newSponge_regs : (s.newSponge).regs = List.replicate s.geom.W 0 := rfl
@[simp] theorem State.newSponge_mode : (s.newSponge).mode = .absorbing := rfl
@[simp] theorem State.newSponge_buf : (s.newSponge).buf = List.replicate s.geom.R none := rfl
@[simp] theorem State.newSponge_pvalid : (s.newSponge).pvalid = s.pvalid := rfl
@[simp] theorem State.newSponge_fault : (s.newSponge).fault = s.fault := rfl
@[simp] theorem State.newSponge_err : (s.newSponge).err = s.err := rfl
@[simp] theorem State.newSponge_csr : (s.newSponge).csr = s.csr := rfl
@[simp] theorem State.newSponge_params : (s.newSponge).params = s.params := rfl
@[simp] theorem State.newSponge_activity : (s.newSponge).activity = s.activity := rfl
@[simp] theorem State.newSponge_input : (s.newSponge).input = s.input := rfl
@[simp] theorem State.newSponge_output : (s.newSponge).output = s.output := rfl

-- State.resetArch

@[simp] theorem State.resetArch_geom : s.resetArch.geom = s.geom := rfl
@[simp] theorem State.resetArch_regs : s.resetArch.regs = List.replicate s.geom.W 0 := rfl
@[simp] theorem State.resetArch_mode : s.resetArch.mode = .absorbing := rfl
@[simp] theorem State.resetArch_buf : s.resetArch.buf = List.replicate s.geom.R none := rfl
@[simp] theorem State.resetArch_pvalid : s.resetArch.pvalid = false := rfl
@[simp] theorem State.resetArch_fault : s.resetArch.fault = false := rfl
@[simp] theorem State.resetArch_err : s.resetArch.err = 0 := rfl
@[simp] theorem State.resetArch_csr : s.resetArch.csr = .zero := rfl
@[simp] theorem State.resetArch_params : s.resetArch.params = .empty := rfl
@[simp] theorem State.resetArch_activity : s.resetArch.activity = .idle := rfl
@[simp] theorem State.resetArch_input : s.resetArch.input = s.input := rfl
@[simp] theorem State.resetArch_output : s.resetArch.output = s.output := rfl

-- Fault entry

@[simp] theorem State.recordFault_geom (c : Code) : (s.recordFault c).geom = s.geom := by
  unfold State.recordFault; split <;> rfl
@[simp] theorem State.recordFault_regs (c : Code) : (s.recordFault c).regs = s.regs := by
  unfold State.recordFault; split <;> rfl
@[simp] theorem State.recordFault_mode (c : Code) : (s.recordFault c).mode = s.mode := by
  unfold State.recordFault; split <;> rfl
@[simp] theorem State.recordFault_buf (c : Code) : (s.recordFault c).buf = s.buf := by
  unfold State.recordFault; split <;> rfl
@[simp] theorem State.recordFault_pvalid (c : Code) : (s.recordFault c).pvalid = s.pvalid := by
  unfold State.recordFault; split <;> rfl
@[simp] theorem State.recordFault_csr (c : Code) : (s.recordFault c).csr = s.csr := by
  unfold State.recordFault; split <;> rfl
@[simp] theorem State.recordFault_params (c : Code) : (s.recordFault c).params = s.params := by
  unfold State.recordFault; split <;> rfl
@[simp] theorem State.recordFault_activity (c : Code) : (s.recordFault c).activity = s.activity := by
  unfold State.recordFault; split <;> rfl
@[simp] theorem State.recordFault_input (c : Code) : (s.recordFault c).input = s.input := by
  unfold State.recordFault; split <;> rfl
@[simp] theorem State.recordFault_output (c : Code) : (s.recordFault c).output = s.output := by
  unfold State.recordFault; split <;> rfl
@[simp] theorem State.recordFault_fault (c : Code) : (s.recordFault c).fault = true := by
  unfold State.recordFault; split <;> simp_all
theorem State.recordFault_err (c : Code) :
    (s.recordFault c).err = if s.fault = true then s.err else c.byte := by
  unfold State.recordFault; split <;> simp_all

@[simp] theorem State.raise_geom (c : Code) : (s.raise c).geom = s.geom := by simp [State.raise]
@[simp] theorem State.raise_regs (c : Code) : (s.raise c).regs = s.regs := by simp [State.raise]
@[simp] theorem State.raise_mode (c : Code) : (s.raise c).mode = s.mode := by simp [State.raise]
@[simp] theorem State.raise_buf (c : Code) : (s.raise c).buf = s.buf := by simp [State.raise]
@[simp] theorem State.raise_pvalid (c : Code) : (s.raise c).pvalid = s.pvalid := by simp [State.raise]
@[simp] theorem State.raise_csr (c : Code) : (s.raise c).csr = s.csr := by simp [State.raise]
@[simp] theorem State.raise_params (c : Code) : (s.raise c).params = s.params := by simp [State.raise]
@[simp] theorem State.raise_activity (c : Code) : (s.raise c).activity = s.activity := by simp [State.raise]
@[simp] theorem State.raise_input (c : Code) : (s.raise c).input = s.input := by simp [State.raise]
@[simp] theorem State.raise_fault (c : Code) : (s.raise c).fault = true := by simp [State.raise]
@[simp] theorem State.raise_output (c : Code) :
    (s.raise c).output = s.output ++ [{ code := c.byte, items := [] }] := by simp [State.raise]
theorem State.raise_err (c : Code) : (s.raise c).err = if s.fault = true then s.err else c.byte := by
  simp [State.raise, State.recordFault_err]

@[simp] theorem State.report_geom (c : Code) : (s.report c).geom = s.geom := by
  unfold State.report; split <;> simp
@[simp] theorem State.report_regs (c : Code) : (s.report c).regs = s.regs := by
  unfold State.report; split <;> simp
@[simp] theorem State.report_mode (c : Code) : (s.report c).mode = s.mode := by
  unfold State.report; split <;> simp
@[simp] theorem State.report_buf (c : Code) : (s.report c).buf = s.buf := by
  unfold State.report; split <;> simp
@[simp] theorem State.report_pvalid (c : Code) : (s.report c).pvalid = s.pvalid := by
  unfold State.report; split <;> simp
@[simp] theorem State.report_csr (c : Code) : (s.report c).csr = s.csr := by
  unfold State.report; split <;> simp
@[simp] theorem State.report_params (c : Code) : (s.report c).params = s.params := by
  unfold State.report; split <;> simp
@[simp] theorem State.report_activity (c : Code) : (s.report c).activity = s.activity := by
  unfold State.report; split <;> simp
@[simp] theorem State.report_input (c : Code) : (s.report c).input = s.input := by
  unfold State.report; split <;> simp
@[simp] theorem State.report_output (c : Code) :
    (s.report c).output = s.output ++ [{ code := c.byte, items := [] }] := by
  unfold State.report; split <;> simp
theorem State.report_fault (c : Code) :
    (s.report c).fault = (if c.isSignal = true then s.fault else true) := by
  unfold State.report; split <;> simp
theorem State.report_err (c : Code) :
    (s.report c).err = if c.isSignal = true ∨ s.fault = true then s.err else c.byte := by
  unfold State.report; split <;> simp_all [State.raise_err]

/-- Two states with the same fields are the same state. -/
theorem State.eq_of_fields {s t : State} (hg : s.geom = t.geom) (hr : s.regs = t.regs) (hm : s.mode = t.mode)
    (hb : s.buf = t.buf) (hp : s.pvalid = t.pvalid) (hf : s.fault = t.fault) (he : s.err = t.err)
    (hc : s.csr = t.csr) (hs : s.params = t.params) (ha : s.activity = t.activity) (hi : s.input = t.input)
    (ho : s.output = t.output) : s = t := by
  cases s; cases t; simp_all

end Sys2Proof.Machine
end

