-- ==== Sys2Proof/Laws/Memory.lean ====
section
/-! SUPPORT. The laws of the parameter store: read after write, and the canonical form. -/

namespace Sys2Proof.Machine

theorem lookupCell_insertCell_same (l : List (Nat × Nat)) (a v : Nat)
    (h : l.Pairwise (fun x y => x.1 < y.1)) : lookupCell (insertCell l a v) a = v := by
  induction l with
  | nil => unfold insertCell; split <;> simp_all [lookupCell, Memory.unlisted]
  | cons c l ih =>
    obtain ⟨k, u⟩ := c
    have hl := List.pairwise_cons.1 h
    have absent : ∀ l' : List (Nat × Nat), (∀ c ∈ l', a < c.1) → lookupCell l' a = 0 := by
      intro l' h'
      induction l' with
      | nil => rfl
      | cons c l' ih' =>
        have := h' c (by simp)
        have hne : a ≠ c.1 := by omega
        simp only [lookupCell, hne, if_false]
        exact ih' fun c hc => h' c (by simp [hc])
    unfold insertCell
    split
    · rename_i hlt
      split
      · rename_i hv
        rw [absent _ (by
          intro c hc
          rcases List.mem_cons.1 hc with rfl | hc
          · exact hlt
          · exact Nat.lt_trans hlt (hl.1 c hc))]
        simpa [Memory.unlisted] using hv.symm
      · simp [lookupCell]
    · split
      · rename_i _ heq
        split
        · rename_i hv
          rw [absent _ (by intro c hc; rw [heq]; exact hl.1 c hc)]
          simpa [Memory.unlisted] using hv.symm
        · simp [lookupCell]
      · rename_i _ hne
        simp only [lookupCell, hne, if_false]
        exact ih hl.2

theorem lookupCell_insertCell_other (l : List (Nat × Nat)) {a b : Nat} (v : Nat) (h : b ≠ a) :
    lookupCell (insertCell l a v) b = lookupCell l b := by
  induction l with
  | nil => unfold insertCell; split <;> simp [lookupCell, h]
  | cons c l ih =>
    obtain ⟨k, u⟩ := c
    unfold insertCell
    split
    · split <;> simp [lookupCell, h]
    · split
      · rename_i _ heq
        split <;> simp [lookupCell, ← heq, h]
      · simp [lookupCell, ih]

theorem mem_insertCell {l : List (Nat × Nat)} {a v : Nat} {c : Nat × Nat} (h : c ∈ insertCell l a v) :
    c ∈ l ∨ (c = (a, v) ∧ v ≠ 0) := by
  induction l with
  | nil =>
    simp only [insertCell] at h
    split at h <;> simp_all [Memory.unlisted]
  | cons d l ih =>
    obtain ⟨k, u⟩ := d
    unfold insertCell at h
    split at h
    · split at h
      · exact .inl h
      · rcases List.mem_cons.1 h with h | h
        · exact .inr ⟨h, by assumption⟩
        · exact .inl h
    · split at h
      · split at h
        · exact .inl (by simp [h])
        · rcases List.mem_cons.1 h with h | h
          · exact .inr ⟨h, by assumption⟩
          · exact .inl (by simp [h])
      · rcases List.mem_cons.1 h with h | h
        · exact .inl (by simp [h])
        · rcases ih h with h | h
          · exact .inl (by simp [h])
          · exact .inr h

theorem pairwise_insertCell (l : List (Nat × Nat)) (a v : Nat) (h : l.Pairwise (fun x y => x.1 < y.1)) :
    (insertCell l a v).Pairwise (fun x y => x.1 < y.1) := by
  induction l with
  | nil => unfold insertCell; split <;> simp
  | cons c l ih =>
    obtain ⟨k, u⟩ := c
    have hl := List.pairwise_cons.1 h
    unfold insertCell
    split
    · rename_i hlt
      split
      · exact h
      · refine List.pairwise_cons.2 ⟨?_, h⟩
        intro c hc
        rcases List.mem_cons.1 hc with rfl | hc
        · exact hlt
        · exact Nat.lt_trans hlt (hl.1 c hc)
    · split
      · rename_i _ heq
        subst heq
        split
        · exact hl.2
        · exact List.pairwise_cons.2 ⟨hl.1, hl.2⟩
      · rename_i hlt hne
        refine List.pairwise_cons.2 ⟨?_, ih hl.2⟩
        intro c hc
        rcases mem_insertCell hc with hc | ⟨rfl, -⟩
        · exact hl.1 c hc
        · show k < a
          omega

/-- Every write of a memory keeps its canonical form. -/
theorem Memory.wf_write {m : Memory} (h : m.wf) (idx v : Nat) : (m.write idx v).wf := by
  refine ⟨pairwise_insertCell _ _ _ h.1, fun c hc => ?_⟩
  rcases mem_insertCell hc with hc | ⟨rfl, hv⟩
  · exact h.2 c hc
  · exact hv

theorem Memory.wf_empty : Memory.empty.wf := by decide

/-- Every memory of the reset state is in its canonical form. -/
theorem reset_memory_wf (sp : Space) : (State.reset.params.get sp).wf := by cases sp <;> decide

theorem Memory.read_write_same {m : Memory} (h : m.wf) (idx v : Nat) : (m.write idx v).read idx = v :=
  lookupCell_insertCell_same _ _ _ h.1

theorem Memory.read_write_other (m : Memory) {a b : Nat} (v : Nat) (h : b ≠ a) :
    (m.write a v).read b = m.read b := lookupCell_insertCell_other _ _ h

@[simp] theorem Memory.read_empty (idx : Nat) : Memory.empty.read idx = 0 := rfl

theorem lookupCell_mem {l : List (Nat × Nat)} {a : Nat} (h : lookupCell l a ≠ 0) : (a, lookupCell l a) ∈ l := by
  induction l with
  | nil => exact absurd rfl h
  | cons c l ih =>
    obtain ⟨k, u⟩ := c
    simp only [lookupCell] at h ⊢
    split
    · rename_i heq; simp [heq]
    · rename_i hne; rw [if_neg hne] at h; exact List.mem_cons_of_mem _ (ih h)

/-- An entry that does not read as 0 is listed. -/
theorem Memory.mem_of_read {m : Memory} {idx : Nat} (h : m.read idx ≠ 0) : (idx, m.read idx) ∈ m.cells :=
  lookupCell_mem h

theorem ParamStore.get_set_same (p : ParamStore) (sp : Space) (m : Memory) : (p.set sp m).get sp = m := by
  cases sp <;> rfl

theorem ParamStore.get_set_other (p : ParamStore) {sp sp' : Space} (m : Memory) (h : sp' ≠ sp) :
    (p.set sp m).get sp' = p.get sp' := by
  cases sp <;> cases sp' <;> first | rfl | exact absurd rfl h

@[simp] theorem ParamStore.get_empty (sp : Space) : ParamStore.empty.get sp = Memory.empty := by cases sp <;> rfl

/-- A written entry reads as what was written. -/
theorem State.entry_setEntry_same {s : State} {sp : Space} (h : (s.params.get sp).wf) (idx v : Nat) :
    (s.setEntry sp idx v).entry sp idx = v := by
  simp [State.entry, ParamStore.get_set_same, Memory.read_write_same h]

/-- Every other entry reads as before. -/
theorem State.entry_setEntry_other (s : State) {sp sp' : Space} {idx idx' : Nat} (v : Nat)
    (h : ¬(sp' = sp ∧ idx' = idx)) : (s.setEntry sp idx v).entry sp' idx' = s.entry sp' idx' := by
  by_cases hsp : sp' = sp
  · subst hsp
    have hidx : idx' ≠ idx := fun he => h ⟨rfl, he⟩
    simp [State.entry, ParamStore.get_set_same, Memory.read_write_other _ _ hidx]
  · simp [State.entry, ParamStore.get_set_other _ _ hsp]

/-- On a well-formed store every entry is within its entry type. -/
theorem SpaceOk.entry_lt {s : State} {sp : Space} (h : SpaceOk s sp) (hb : 0 < entryBound s.geom sp) (idx : Nat) :
    s.entry sp idx < entryBound s.geom sp := by
  by_cases h0 : s.entry sp idx = 0
  · rw [h0]; exact hb
  · exact (h.2 _ (Memory.mem_of_read h0)).2

/-- Past the end of a space every entry reads as 0. -/
theorem SpaceOk.entry_outside {s : State} {sp : Space} (h : SpaceOk s sp) {idx : Nat}
    (hi : entryCount s.geom sp ≤ idx) : s.entry sp idx = 0 := by
  by_contra h0
  have := (h.2 _ (Memory.mem_of_read h0)).1
  simp only at this
  omega

/-- A write inside the space keeps the store well formed. -/
theorem SpaceOk.setEntry {s : State} (h : ∀ sp, SpaceOk s sp) {sp : Space} {idx v : Nat}
    (hi : idx < entryCount s.geom sp) (hv : v < entryBound s.geom sp) (sp' : Space) :
    SpaceOk (s.setEntry sp idx v) sp' := by
  by_cases hsp : sp' = sp
  · subst hsp
    refine ⟨?_, ?_⟩
    · simpa [ParamStore.get_set_same] using Memory.wf_write (h sp').1 idx v
    · intro c hc
      simp only [State.setEntry_params, ParamStore.get_set_same] at hc
      rcases mem_insertCell hc with hc | ⟨rfl, -⟩
      · exact (h sp').2 c hc
      · exact ⟨hi, hv⟩
  · simpa [SpaceOk, ParamStore.get_set_other _ _ hsp] using h sp'

end Sys2Proof.Machine
end

