-- ==== Sys2Proof/Laws/Ops.lean ====
section
/-! SUPPORT. The command shell, fault entry and the step, each said once. -/

namespace Sys2Proof.Machine

variable {g : Bool} {n : Nat} {body : State → List Beat → Except Code (State × List Item)} {s t : State}

/-- While word and payload are not complete nothing changes. -/
theorem runCommand_waits (h : s.input.length < 1 + n) : runCommand g n body s = .next s := by
  simp [runCommand, h]

/-- The fault gate (R357). -/
theorem runCommand_faulted (h : 1 + n ≤ s.input.length) (hg : g = true) (hf : s.fault = true) :
    runCommand g n body s = .next ((s.consume (1 + n)).raise .faulted) := by
  simp [runCommand, Nat.not_lt.2 h, hg, hf]

/-- A command whose body answers ok. -/
theorem runCommand_ok (h : 1 + n ≤ s.input.length) (hg : (g && s.fault) = false) {items : List Item}
    (hb : body (s.consume (1 + n)) (s.payload n) = .ok (t, items)) :
    runCommand g n body s = .next (t.respond .ok items) := by
  have hb' : body (s.consume (1 + n)) ((s.input.drop 1).take n) = .ok (t, items) := hb
  simp only [runCommand, Nat.not_lt.2 h, if_false, hg, hb', Bool.false_eq_true]

/-- A command whose body answers a signal or a fault. -/
theorem runCommand_error (h : 1 + n ≤ s.input.length) (hg : (g && s.fault) = false) {c : Code}
    (hb : body (s.consume (1 + n)) (s.payload n) = .error c) :
    runCommand g n body s = .next ((s.consume (1 + n)).report c) := by
  have hb' : body (s.consume (1 + n)) ((s.input.drop 1).take n) = .error c := hb
  simp only [runCommand, Nat.not_lt.2 h, if_false, hg, hb', Bool.false_eq_true]

/-- Everything a command can do: wait, be gated, report, or answer ok. -/
theorem runCommand_cases (h : runCommand g n body s = .next t) :
    (s.input.length < 1 + n ∧ t = s) ∨
    (1 + n ≤ s.input.length ∧ g = true ∧ s.fault = true ∧ t = (s.consume (1 + n)).raise .faulted) ∨
    (1 + n ≤ s.input.length ∧ (g && s.fault) = false ∧
      ∃ c, body (s.consume (1 + n)) (s.payload n) = .error c ∧ t = (s.consume (1 + n)).report c) ∨
    (1 + n ≤ s.input.length ∧ (g && s.fault) = false ∧
      ∃ u items, body (s.consume (1 + n)) (s.payload n) = .ok (u, items) ∧ t = u.respond .ok items) := by
  by_cases hw : s.input.length < 1 + n
  · rw [runCommand_waits hw] at h
    exact .inl ⟨hw, by simpa using h.symm⟩
  · have hw' := Nat.not_lt.1 hw
    by_cases hg : (g && s.fault) = true
    · obtain ⟨hg1, hg2⟩ := Bool.and_eq_true_iff.1 hg
      rw [runCommand_faulted hw' hg1 hg2] at h
      exact .inr (.inl ⟨hw', hg1, hg2, by simpa using h.symm⟩)
    · have hg' := Bool.not_eq_true _ |>.mp hg
      rcases hb : body (s.consume (1 + n)) (s.payload n) with c | ⟨u, items⟩
      · rw [runCommand_error hw' hg' hb] at h
        exact .inr (.inr (.inl ⟨hw', hg', c, rfl, by simpa using h.symm⟩))
      · rw [runCommand_ok hw' hg' hb] at h
        exact .inr (.inr (.inr ⟨hw', hg', u, items, rfl, by simpa using h.symm⟩))

/-- A command never stops the model. -/
theorem runCommand_next (g : Bool) (n : Nat) (body : State → List Beat → Except Code (State × List Item))
    (s : State) : ∃ t, runCommand g n body s = .next t := by
  by_cases hw : s.input.length < 1 + n
  · exact ⟨_, runCommand_waits hw⟩
  · by_cases hg : (g && s.fault) = true
    · obtain ⟨hg1, hg2⟩ := Bool.and_eq_true_iff.1 hg
      exact ⟨_, runCommand_faulted (Nat.not_lt.1 hw) hg1 hg2⟩
    · rcases hb : body (s.consume (1 + n)) (s.payload n) with c | ⟨u, items⟩
      · exact ⟨_, runCommand_error (Nat.not_lt.1 hw) (Bool.not_eq_true _ |>.mp hg) hb⟩
      · exact ⟨_, runCommand_ok (Nat.not_lt.1 hw) (Bool.not_eq_true _ |>.mp hg) hb⟩

/-- The answer of a command in the words of the statements. -/
theorem respond_consume (s : State) (n : Nat) (c : Code) (items : List Item) :
    (s.consume (1 + n)).respond c items = s.answered n c.byte items := rfl

/-- A fault raised on an engine that has none recorded (R356). -/
theorem raise_consume (s : State) (n : Nat) (c : Code) (h : s.fault = false) :
    (s.consume (1 + n)).raise c = s.faultedWith n c.byte := by
  apply State.eq_of_fields <;> simp [State.raise_err, h]

/-- A fault raised while one is recorded changes nothing but the ports (R356). -/
theorem raise_consume_faulted (s : State) (n : Nat) (c : Code) (h : s.fault = true) :
    (s.consume (1 + n)).raise c = s.answered n c.byte [] := by
  apply State.eq_of_fields <;> simp [State.raise_err, h]

/-- A signal changes nothing but the ports (R354). -/
theorem report_consume_signal (s : State) (n : Nat) {c : Code} (h : c.isSignal = true) :
    (s.consume (1 + n)).report c = s.answered n c.byte [] := by
  simp [State.report, h, respond_consume]

/-- A code that is no signal is raised. -/
theorem report_of_not_signal (s : State) {c : Code} (h : c.isSignal = false) : s.report c = s.raise c := by
  simp [State.report, h]

/-- An idle step runs the decoded command. -/
theorem step_command {w : Word} {i : Instr} (ha : s.activity = .idle) (hw : s.fetchWord = some w)
    (hd : decode w = .ok i) : step s = exec i s := by
  simp [step, ha, commandStep, hw, hd]

/-- With nothing sent the engine waits. -/
theorem step_waits (ha : s.activity = .idle) (hi : s.input = []) : step s = .next s := by
  simp [step, ha, commandStep, State.fetchWord, hi]

/-- An idle step on an illegal word. -/
theorem step_illegal {w : Word} {e : DecodeError} (ha : s.activity = .idle) (hw : s.fetchWord = some w)
    (hd : decode w = .error e) : step s = .next (s.illegalWord w) := by
  simp [step, ha, commandStep, hw, hd]

/-- Everything an idle step can do. -/
theorem step_idle_cases (ha : s.activity = .idle) (h : step s = .next t) :
    (s.input = [] ∧ t = s) ∨
    (∃ w e, s.fetchWord = some w ∧ decode w = .error e ∧ t = s.illegalWord w) ∨
    (∃ w i, s.fetchWord = some w ∧ decode w = .ok i ∧ exec i s = .next t) := by
  rcases hw : s.fetchWord with _ | w
  · have hi : s.input = [] := by simpa [State.fetchWord] using hw
    rw [step_waits ha hi] at h
    exact .inl ⟨hi, by simpa using h.symm⟩
  · rcases hd : decode w with e | i
    · rw [step_illegal ha hw hd] at h
      exact .inr (.inl ⟨w, e, rfl, hd, by simpa using h.symm⟩)
    · rw [step_command ha hw hd] at h
      exact .inr (.inr ⟨w, i, rfl, hd, h⟩)

end Sys2Proof.Machine
end

