-- ==== Sys2Proof/Laws/Arith.lean ====
section
/-! SUPPORT. The field operations: they are the arithmetic of `ZMod P`, and they answer canonical integers. -/

namespace Sys2Proof.Machine

variable {P : Nat}

theorem fieldAdd_lt (h : 0 < P) (a b : Nat) : fieldAdd P a b < P := Nat.mod_lt _ h
theorem fieldSub_lt (h : 0 < P) (a b : Nat) : fieldSub P a b < P := Nat.mod_lt _ h
theorem fieldNeg_lt (h : 0 < P) (a : Nat) : fieldNeg P a < P := Nat.mod_lt _ h
theorem fieldMul_lt (h : 0 < P) (a b : Nat) : fieldMul P a b < P := Nat.mod_lt _ h
theorem fieldSqr_lt (h : 0 < P) (a : Nat) : fieldSqr P a < P := Nat.mod_lt _ h
theorem freeElem_lt (h : 0 < P) (k : Nat) : freeElem P k < P := Nat.mod_lt _ h

@[simp] theorem cast_fieldAdd (a b : Nat) : (fieldAdd P a b : ZMod P) = a + b := by simp [fieldAdd]
@[simp] theorem cast_fieldMul (a b : Nat) : (fieldMul P a b : ZMod P) = a * b := by simp [fieldMul]
@[simp] theorem cast_fieldSqr (a : Nat) : (fieldSqr P a : ZMod P) = a * a := by simp [fieldSqr]

theorem cast_fieldSub {a b : Nat} (h : b ≤ P) : (fieldSub P a b : ZMod P) = a - b := by
  simp [fieldSub, Nat.cast_sub (show b ≤ a + P by omega)]

theorem cast_fieldNeg {a : Nat} (h : a ≤ P) : (fieldNeg P a : ZMod P) = -a := by
  simp [fieldNeg, Nat.cast_sub h]

/-- A canonical integer is determined by its class. -/
theorem eq_of_cast_eq {a b : Nat} (ha : a < P) (hb : b < P) (h : (a : ZMod P) = b) : a = b := by
  have h' := (ZMod.natCast_eq_natCast_iff' a b P).1 h
  rwa [Nat.mod_eq_of_lt ha, Nat.mod_eq_of_lt hb] at h'

theorem fieldPowBits_lt (h : 1 < P) (a bits e : Nat) : fieldPowBits P a bits e < P := by
  cases bits with
  | zero => exact h
  | succ n =>
    simp only [fieldPowBits]
    split <;> exact Nat.mod_lt _ (by omega)

theorem fieldPowBits_eq (h : 1 < P) (a : Nat) :
    ∀ bits e, e < 2 ^ bits → fieldPowBits P a bits e = a ^ e % P
  | 0, e, he => by
    have : e = 0 := by omega
    simp [fieldPowBits, this, Nat.mod_eq_of_lt h]
  | bits + 1, e, he => by
    have ih := fieldPowBits_eq h a bits (e / 2) (by rw [pow_succ] at he; omega)
    have hsq : fieldSqr P (fieldPowBits P a bits (e / 2)) = a ^ (e / 2 * 2) % P := by
      rw [ih, fieldSqr, fieldMul, ← Nat.mul_mod, ← pow_two, ← pow_mul]
    simp only [fieldPowBits]
    split
    · rename_i hodd
      rw [hsq, fieldMul, Nat.mod_mul_mod, ← pow_succ, show e / 2 * 2 + 1 = e by omega]
    · rename_i heven
      rw [hsq, show e / 2 * 2 = e by omega]

/-- The power is the power (R126). -/
theorem fieldPow_eq (h : 1 < P) (a e : Nat) : fieldPow P a e = a ^ e % P :=
  fieldPowBits_eq h a _ e (Nat.lt_log2_self)

theorem fieldPow_lt (h : 1 < P) (a e : Nat) : fieldPow P a e < P := fieldPowBits_lt h _ _ _

theorem cast_fieldPow (h : 1 < P) (a e : Nat) : (fieldPow P a e : ZMod P) = (a : ZMod P) ^ e := by
  simp [fieldPow_eq h]

theorem foldl_fieldAdd_lt (h : 0 < P) (xs : List Nat) {a : Nat} (ha : a < P) :
    xs.foldl (fieldAdd P) a < P := by
  induction xs generalizing a with
  | nil => exact ha
  | cons x xs ih => exact ih (fieldAdd_lt h a x)

theorem fieldSum_lt (h : 0 < P) (xs : List Nat) : fieldSum P xs < P := foldl_fieldAdd_lt h xs h

theorem foldl_fieldAdd_eq (xs : List Nat) (a : Nat) : xs.foldl (fieldAdd P) (a % P) = (a + xs.sum) % P := by
  induction xs generalizing a with
  | nil => simp
  | cons x xs ih =>
    have : fieldAdd P (a % P) x = (a + x) % P := by simp [fieldAdd]
    rw [List.foldl_cons, this, ih, List.sum_cons, Nat.add_assoc]

/-- A field sum is the sum of the integers, reduced (R170). -/
theorem fieldSum_eq (xs : List Nat) : fieldSum P xs = xs.sum % P := by
  have := foldl_fieldAdd_eq (P := P) xs 0
  simpa [fieldSum] using this

theorem cast_fieldSum (xs : List Nat) : (fieldSum P xs : ZMod P) = (xs.map (Nat.cast : Nat → ZMod P)).sum := by
  rw [fieldSum_eq, ZMod.natCast_mod, Nat.cast_list_sum]

/-- The forward S-box is the fifth power (R150). -/
theorem sboxForward_eq (x : Nat) : sboxForward P x = x ^ 5 % P := by
  simp only [sboxForward, fieldSqr, fieldMul]
  rw [← Nat.mul_mod, Nat.mod_mul_mod]
  congr 1
  ring

theorem sboxForward_lt (h : 0 < P) (x : Nat) : sboxForward P x < P := Nat.mod_lt _ h

end Sys2Proof.Machine
end

