-- ==== Sys2Proof/Laws/Commands.lean ====
section
/-! SUPPORT. What a ready command does, what consuming transfers leaves alone, and the shared command shells. -/

namespace Sys2Proof.Machine

variable {s t : State} {n : Nat} {g : Bool} {body : State → List Beat → Except Code (State × List Item)}

/-- A command that is ready is decided by its body alone. -/
theorem runCommand_ready (h : Ready s n) :
    runCommand g n body s =
      match body (s.consume (1 + n)) (s.payload n) with
      | .ok (t, items) => .next (t.respond .ok items)
      | .error c => .next ((s.consume (1 + n)).report c) := by
  have hg : (g && s.fault) = false := by simp [h.1]
  rcases hb : body (s.consume (1 + n)) (s.payload n) with c | ⟨u, items⟩
  · rw [runCommand_error h.2 hg hb]
  · rw [runCommand_ok h.2 hg hb]

/-- A command that the fault gate does not stop is decided by its body alone. -/
theorem runCommand_ungated (h : 1 + n ≤ s.input.length) :
    runCommand false n body s =
      match body (s.consume (1 + n)) (s.payload n) with
      | .ok (t, items) => .next (t.respond .ok items)
      | .error c => .next ((s.consume (1 + n)).report c) := by
  rcases hb : body (s.consume (1 + n)) (s.payload n) with c | ⟨u, items⟩
  · rw [runCommand_error h rfl hb]
  · rw [runCommand_ok h rfl hb]

/-- A fault reported on a healthy engine (R356). -/
theorem report_consume_fault {c : Code} (h : s.fault = false) (hc : c.isSignal = false) :
    (s.consume (1 + n)).report c = s.faultedWith n c.byte := by
  rw [report_of_not_signal _ hc, raise_consume _ _ _ h]

/-- A fault reported whether or not one is recorded (R356). -/
theorem report_consume_any {c : Code} (hc : c.isSignal = false) :
    (s.consume (1 + n)).report c
      = if s.fault = true then s.answered n c.byte [] else s.faultedWith n c.byte := by
  rw [report_of_not_signal _ hc]
  split
  · rename_i h; exact raise_consume_faulted _ _ _ h
  · rename_i h; exact raise_consume _ _ _ (by simpa using h)

-- Consuming transfers changes the port only

@[simp] theorem reg_consume (s : State) (n i : Nat) : (s.consume n).reg i = s.reg i := rfl
@[simp] theorem regOk_consume (s : State) (n i : Nat) : (s.consume n).regOk i = s.regOk i := rfl
@[simp] theorem entry_consume (s : State) (n : Nat) (sp : Space) (i : Nat) :
    (s.consume n).entry sp i = s.entry sp i := rfl
@[simp] theorem expValue_consume (s : State) (n : Nat) : (s.consume n).expValue = s.expValue := rfl
@[simp] theorem csrValue_consume (s : State) (n : Nat) (id : CsrId) :
    (s.consume n).csrValue id = s.csrValue id := by cases id <;> rfl
@[simp] theorem chainWords_consume (s : State) (n : Nat) : (s.consume n).chainWords = s.chainWords := rfl
@[simp] theorem hLen_consume (s : State) (n : Nat) : (s.consume n).hLen = s.hLen := rfl
@[simp] theorem rcLen_consume (s : State) (n : Nat) : (s.consume n).rcLen = s.rcLen := rfl
@[simp] theorem orcLen_consume (s : State) (n : Nat) : (s.consume n).orcLen = s.orcLen := rfl
@[simp] theorem spLen_consume (s : State) (n : Nat) : (s.consume n).spLen = s.spLen := rfl
@[simp] theorem bufCount_consume (s : State) (n : Nat) : (s.consume n).bufCount = s.bufCount := rfl
@[simp] theorem k1_consume (s : State) (n : Nat) : (s.consume n).k1 = s.k1 := rfl
@[simp] theorem commitChecks_consume (s : State) (n : Nat) : (s.consume n).commitChecks = s.commitChecks := rfl

/-- What a layer operation computes depends on the static parameters, the configuration and the store only. -/
theorem applyLayer_congr (hg : s.geom = t.geom) (hp : s.params = t.params)
    (hc : s.csr = { t.csr with hlen := s.csr.hlen }) : applyLayer s = applyLayer t := by
  obtain ⟨sg, _, _, _, _, _, _, sc, sp, _, _, _⟩ := s
  obtain ⟨tg, _, _, _, _, _, _, tc, tp, _, _, _⟩ := t
  obtain ⟨c0, c1, c2, c3, c4, c5, c6, c7, c8, c9, c10⟩ := sc
  obtain ⟨d0, d1, d2, d3, d4, d5, d6, d7, d8, d9, d10⟩ := tc
  simp only [Csrs.mk.injEq] at hc hg hp
  obtain ⟨rfl, rfl, rfl, rfl, rfl, rfl, rfl, rfl, rfl, rfl, -⟩ := hc
  subst hg hp
  funext l
  cases l <;> rfl

/-- The expansion of PERMUTE depends on the configuration only (R190). -/
theorem expansion_congr (hc : s.csr = { t.csr with hlen := s.csr.hlen }) : s.expansion = t.expansion := by
  obtain ⟨sg, _, _, _, _, _, _, sc, sp, _, _, _⟩ := s
  obtain ⟨tg, _, _, _, _, _, _, tc, tp, _, _, _⟩ := t
  obtain ⟨c0, c1, c2, c3, c4, c5, c6, c7, c8, c9, c10⟩ := sc
  obtain ⟨d0, d1, d2, d3, d4, d5, d6, d7, d8, d9, d10⟩ := tc
  simp only [Csrs.mk.injEq] at hc
  obtain ⟨rfl, rfl, rfl, rfl, rfl, rfl, rfl, rfl, rfl, rfl, -⟩ := hc
  rfl

/-- What PERMUTE computes depends on the static parameters, the configuration and the store only (R191). -/
theorem permute_congr (hg : s.geom = t.geom) (hp : s.params = t.params)
    (hc : s.csr = { t.csr with hlen := s.csr.hlen }) : s.permute = t.permute := by
  funext v
  simp only [State.permute, applyLayers, applyLayer_congr hg hp hc, expansion_congr hc]

@[simp] theorem applyLayer_consume (s : State) (n : Nat) : applyLayer (s.consume n) = applyLayer s :=
  applyLayer_congr rfl rfl rfl
@[simp] theorem permute_consume (s : State) (n : Nat) : (s.consume n).permute = s.permute :=
  permute_congr rfl rfl rfl
@[simp] theorem permute_setRegs (s : State) (v : List Nat) : (s.setRegs v).permute = s.permute :=
  permute_congr rfl rfl rfl
@[simp] theorem permute_setSponge (s : State) (v : List Nat) (m : Mode) (b : List (Option Nat)) :
    (s.setSponge v m b).permute = s.permute := permute_congr rfl rfl rfl

-- The shared shells

/-- The three-register shell (R137). -/
theorem threeRegister_ready {f : Nat → Nat → Nat → Nat} {d a b : Nat} (h : Ready s 0) :
    threeRegister f d a b s = .next
      (if d < s.geom.W ∧ a < s.geom.W ∧ b < s.geom.W then
        (s.setReg d (f s.geom.P (s.reg a) (s.reg b))).answered 0 0x00 []
      else s.faultedWith 0 0x24) := by
  have hf := report_consume_fault (n := 0) (c := .indexOutOfRange) h.1 rfl
  have hk : (s.regOk d && s.regOk a && s.regOk b) = decide (d < s.geom.W ∧ a < s.geom.W ∧ b < s.geom.W) := by
    simp [State.regOk, Bool.and_assoc]
  rw [threeRegister, runCommand_ready h]
  simp only [regOk_consume, hk]
  by_cases hi : d < s.geom.W ∧ a < s.geom.W ∧ b < s.geom.W
  · simp only [hi, decide_true, Bool.not_true, Bool.false_eq_true, if_false, if_true, and_self]; rfl
  · simp only [hi, decide_false, Bool.not_false, if_true, if_false]; exact congrArg _ hf

/-- The two-register shell (R137). -/
theorem twoRegister_ready {f : Nat → Nat → Nat} {d a : Nat} (h : Ready s 0) :
    twoRegister f d a s = .next
      (if d < s.geom.W ∧ a < s.geom.W then (s.setReg d (f s.geom.P (s.reg a))).answered 0 0x00 []
      else s.faultedWith 0 0x24) := by
  have hf := report_consume_fault (n := 0) (c := .indexOutOfRange) h.1 rfl
  have hk : (s.regOk d && s.regOk a) = decide (d < s.geom.W ∧ a < s.geom.W) := by simp [State.regOk]
  rw [twoRegister, runCommand_ready h]
  simp only [regOk_consume, hk]
  by_cases hi : d < s.geom.W ∧ a < s.geom.W
  · simp only [hi, decide_true, Bool.not_true, Bool.false_eq_true, if_false, if_true, and_self]; rfl
  · simp only [hi, decide_false, Bool.not_false, if_true, if_false]; exact congrArg _ hf

/-- The layer shell (R175): static bound, parameters, committed length, then the registers replaced. -/
theorem layerCommand_ready {inBound inLength : State → Bool} {l : Layer} (h : Ready s 0)
    (hb : inBound (s.consume 1) = inBound s) (hl : inLength (s.consume 1) = inLength s) :
    layerCommand inBound inLength l s = .next
      (if inBound s = false then s.faultedWith 0 0x24
      else if s.pvalid = false then s.faultedWith 0 0x22
      else if inLength s = false then s.faultedWith 0 0x24
      else (s.setRegs (applyLayer s l s.regs)).answered 0 0x00 []) := by
  have hf := fun c (hc : Code.isSignal c = false) => report_consume_fault (n := 0) h.1 hc
  rw [layerCommand, runCommand_ready h]
  simp only [Nat.add_zero, hb, hl, Bool.not_eq_true', State.consume_pvalid]
  by_cases h1 : inBound s = false
  · simp only [h1, if_true]; exact congrArg _ (hf .indexOutOfRange rfl)
  · by_cases h2 : s.pvalid = false
    · simp only [h1, h2, if_true]; exact congrArg _ (hf .paramsNotCommitted rfl)
    · by_cases h3 : inLength s = false
      · simp only [h1, h2, h3, if_true]; exact congrArg _ (hf .indexOutOfRange rfl)
      · simp only [h1, h2, h3, applyLayer_consume]; rfl

end Sys2Proof.Machine
end

