-- ==== Sys2Proof/Laws/Decode.lean ====
section
/-! SUPPORT. The fields of the words that the encoder writes, one lemma for each format. -/

namespace Sys2Proof

/-- What `Space.ofCode` answers for the code of a space. -/
@[simp] theorem Space.ofCode_code (sp : Space) : Space.ofCode sp.code = some sp := by cases sp <;> rfl

theorem Space.code_lt (sp : Space) : sp.code < 9 := by cases sp <;> decide

/-- What `Strategy.ofCode` answers for the code of a strategy. -/
@[simp] theorem Strategy.ofCode_code (st : Strategy) : Strategy.ofCode st.code = some st := by
  cases st <;> rfl

theorem Strategy.code_lt (st : Strategy) : st.code < 5 := by cases st <;> decide

/-- A code that names a space is that space's code. -/
theorem Space.code_of_ofCode {n : Nat} {sp : Space} (h : Space.ofCode n = some sp) : sp.code = n := by
  unfold Space.ofCode at h
  split at h <;> simp_all <;> subst h <;> rfl

/-- A code that names a strategy is that strategy's code. -/
theorem Strategy.code_of_ofCode {n : Nat} {st : Strategy} (h : Strategy.ofCode n = some st) : st.code = n := by
  unfold Strategy.ofCode at h
  split at h <;> simp_all <;> subst h <;> rfl

theorem wordN_toNat {op : Nat} (h : op < 2 ^ 8) : (wordN op).toNat = op := by
  rw [wordN, BitVec.toNat_ofNat]; omega

theorem wordI_toNat {op sel imm : Nat} (ho : op < 2 ^ 8) (hs : sel < 2 ^ 4) (hi : imm < 2 ^ 20) :
    (wordI op sel imm).toNat = op + sel * 2 ^ 8 + imm * 2 ^ 12 := by
  rw [wordI, BitVec.toNat_ofNat]; omega

theorem wordT_toNat {op d a b : Nat} (ho : op < 2 ^ 8) (hd : d < 2 ^ 8) (ha : a < 2 ^ 8) (hb : b < 2 ^ 8) :
    (wordT op d a b).toNat = op + d * 2 ^ 8 + a * 2 ^ 16 + b * 2 ^ 24 := by
  rw [wordT, BitVec.toNat_ofNat]; omega

theorem wordStep_toNat {kind right left : Nat} (hk : kind < 2) (hr : right < 2 ^ 15) (hl : left < 2 ^ 15) :
    (wordStep kind right left).toNat = kind * 2 ^ 31 + right * 2 ^ 15 + left := by
  rw [wordStep, BitVec.toNat_ofNat]; omega

/-- The fields of a format N word (R93). -/
theorem bitField_wordN {op : Nat} (h : op < 2 ^ 8) :
    bitField (wordN op) 7 0 = op ∧ bitField (wordN op) 31 8 = 0 := by
  simp only [bitField, wordN_toNat h]; omega

/-- The fields of a format I word (R94). -/
theorem bitField_wordI {op sel imm : Nat} (ho : op < 2 ^ 8) (hs : sel < 2 ^ 4) (hi : imm < 2 ^ 20) :
    bitField (wordI op sel imm) 7 0 = op ∧ bitField (wordI op sel imm) 11 8 = sel ∧
      bitField (wordI op sel imm) 31 12 = imm := by
  simp only [bitField, wordI_toNat ho hs hi]; omega

/-- The fields of a format T word (R95). -/
theorem bitField_wordT {op d a b : Nat} (ho : op < 2 ^ 8) (hd : d < 2 ^ 8) (ha : a < 2 ^ 8) (hb : b < 2 ^ 8) :
    bitField (wordT op d a b) 7 0 = op ∧ bitField (wordT op d a b) 15 8 = d ∧
      bitField (wordT op d a b) 23 16 = a ∧ bitField (wordT op d a b) 31 24 = b := by
  simp only [bitField, wordT_toNat ho hd ha hb]; omega

/-- The fields of a chain step word (R105). -/
theorem bitField_wordStep {kind right left : Nat} (hk : kind < 2) (hr : right < 2 ^ 15) (hl : left < 2 ^ 15) :
    bitField (wordStep kind right left) 31 31 = kind ∧ bitField (wordStep kind right left) 30 30 = 0 ∧
      bitField (wordStep kind right left) 29 15 = right ∧ bitField (wordStep kind right left) 14 0 = left := by
  simp only [bitField, wordStep_toNat hk hr hl]; omega

/-- A word is put together from the fields of format N. -/
theorem wordN_of_fields {w : Word} {op : Nat} (ho : bitField w 7 0 = op) (hz : bitField w 31 8 = 0) :
    wordN op = w := by
  have := w.isLt
  apply BitVec.eq_of_toNat_eq
  simp only [bitField] at ho hz
  rw [wordN, BitVec.toNat_ofNat]; omega

/-- A word is put together from the fields of format I. -/
theorem wordI_of_fields (w : Word) :
    wordI (bitField w 7 0) (bitField w 11 8) (bitField w 31 12) = w := by
  have := w.isLt
  apply BitVec.eq_of_toNat_eq
  simp only [bitField]
  rw [wordI, BitVec.toNat_ofNat]; omega

/-- A word is put together from the fields of format T. -/
theorem wordT_of_fields (w : Word) :
    wordT (bitField w 7 0) (bitField w 15 8) (bitField w 23 16) (bitField w 31 24) = w := by
  have := w.isLt
  apply BitVec.eq_of_toNat_eq
  simp only [bitField]
  rw [wordT, BitVec.toNat_ofNat]; omega

/-- A step word with a zero reserved bit is put together from its fields. -/
theorem wordStep_of_fields {w : Word} (hz : bitField w 30 30 = 0) :
    wordStep (bitField w 31 31) (bitField w 29 15) (bitField w 14 0) = w := by
  have := w.isLt
  apply BitVec.eq_of_toNat_eq
  simp only [bitField] at hz ⊢
  rw [wordStep, BitVec.toNat_ofNat]; omega

end Sys2Proof
end

