-- ==== Sys2Proof/Laws/Layers.lean ====
section
/-! SUPPORT. Layer operations, chain runs and permutations answer vectors of canonical elements. -/

namespace Sys2Proof.Machine

variable {s : State} {P : Nat}

-- Chain runs

/-- One interpreter step makes the scratch list one entry longer (R159). -/
@[simp] theorem chainAppend_length (t : List Nat) (w : Word) :
    (chainAppend P t w).length = t.length + 1 := by
  unfold chainAppend; split <;> simp

/-- One interpreter step overwrites no entry (R159). -/
theorem chainAppend_extends (t : List Nat) (w : Word) : ∃ x, chainAppend P t w = t ++ [x] := by
  unfold chainAppend; split <;> exact ⟨_, rfl⟩

/-- A run appends one entry for each word (R159). -/
@[simp] theorem chainScratch_length (t : List Nat) (ws : List Word) :
    (chainScratch P t ws).length = t.length + ws.length := by
  induction ws generalizing t with
  | nil => rfl
  | cons w ws ih =>
    simp only [chainScratch, List.foldl_cons] at ih ⊢
    rw [ih]; simp; omega

theorem scratchRead_lt (hP : 0 < P) {t : List Nat} (ht : ∀ x ∈ t, x < P) (i : Nat) :
    scratchRead P t i < P := by
  unfold scratchRead
  rcases Nat.lt_or_ge i t.length with hi | hi
  · rw [List.getD_eq_getElem _ _ hi]; exact ht _ (List.getElem_mem hi)
  · rw [List.getD_eq_default _ _ hi]; exact freeElem_lt hP i

theorem chainEntry_lt (hP : 0 < P) (t : List Nat) (st : ChainStep) : chainEntry P t st < P := by
  cases st <;> exact Nat.mod_lt _ hP

theorem chainAppend_lt (hP : 0 < P) {t : List Nat} (ht : ∀ x ∈ t, x < P) (w : Word) :
    ∀ x ∈ chainAppend P t w, x < P := by
  intro x hx
  unfold chainAppend at hx
  split at hx <;> rw [List.mem_append, List.mem_singleton] at hx
  · rcases hx with hx | rfl
    · exact ht x hx
    · exact chainEntry_lt hP _ _
  · rcases hx with hx | rfl
    · exact ht x hx
    · exact freeElem_lt hP _

theorem chainScratch_lt (hP : 0 < P) (ws : List Word) {t : List Nat} (ht : ∀ x ∈ t, x < P) :
    ∀ x ∈ chainScratch P t ws, x < P := by
  induction ws generalizing t with
  | nil => exact ht
  | cons w ws ih => exact ih (chainAppend_lt hP ht w)

theorem chainValue_lt (hP : 0 < P) (ws : List Word) {x : Nat} (hx : x < P) : chainValue P ws x < P :=
  scratchRead_lt hP (chainScratch_lt hP ws (by simpa using hx)) _

/-- The inverse S-box answers a canonical element (R154). -/
theorem sboxInverse_lt (hP : 1 < s.geom.P) {x : Nat} (hx : x < s.geom.P) : s.sboxInverse x < s.geom.P := by
  unfold State.sboxInverse
  split
  · exact fieldPow_lt hP _ _
  · exact chainValue_lt (by omega) _ hx
  · exact freeElem_lt (by omega) _

@[simp] theorem chainWords_length (s : State) : s.chainWords.length = s.chainLen := by
  simp [State.chainWords]

-- Linear layers

@[simp] theorem matOf_entry {rows cols : Nat} (f : Nat → Nat → Nat) {i j : Nat} (hi : i < rows) (hj : j < cols) :
    (matOf rows cols f).entry i j = f i j := by
  simp [Mat.entry, matOf, hi, hj]

@[simp] theorem vector_length (s : State) (sp : Space) (r : Nat) : (s.vector sp r).length = s.geom.W := by
  simp [State.vector]

theorem vector_getD (s : State) (sp : Space) (r : Nat) {j : Nat} (hj : j < s.geom.W) :
    (s.vector sp r).getD j 0 = s.entry sp (r * s.geom.W + j) := by
  simp [State.vector, hj]

@[simp] theorem vecmat_length (W : Nat) (v : List Nat) (m : Mat) : (vecmat P W v m).length = W := by
  simp [vecmat]

theorem vecmat_getD {W : Nat} (v : List Nat) (m : Mat) {j : Nat} (hj : j < W) :
    (vecmat P W v m).getD j 0 = ((List.range W).map fun i => v.getD i 0 * m.entry i j).sum % P := by
  simp only [vecmat, fieldSum_eq, fieldMul]
  rw [List.getD_eq_getElem _ _ (by simpa using hj)]
  simp only [List.getElem_map, List.getElem_range]
  generalize List.range W = l
  induction l with
  | nil => rfl
  | cons a l ih =>
    simp only [List.map_cons, List.sum_cons]
    rw [Nat.add_mod, ih, Nat.mod_mod, ← Nat.add_mod]

@[simp] theorem sparseMul_length (W : Nat) (v : List Nat) (q : Mat) : (sparseMul P W v q).length = W := by
  simp [sparseMul]

-- Every layer operation answers a vector of canonical elements

theorem applyLayer_length (l : Layer) {v : List Nat} (hv : v.length = s.geom.W) :
    (applyLayer s l v).length = s.geom.W := by
  cases l <;> simp [applyLayer, mapAt, addFirst, vecAdd, internalLayer, hv]

theorem mem_set_lt {v : List Nat} {i x : Nat} (hv : ∀ y ∈ v, y < P) (hx : x < P) : ∀ y ∈ v.set i x, y < P := by
  intro y hy
  rcases List.mem_or_eq_of_mem_set hy with h | rfl
  · exact hv y h
  · exact hx

theorem getD_lt {v : List Nat} (hP : 0 < P) (hv : ∀ y ∈ v, y < P) (i : Nat) : v.getD i 0 < P := by
  rcases Nat.lt_or_ge i v.length with hi | hi
  · rw [List.getD_eq_getElem _ _ hi]; exact hv _ (List.getElem_mem hi)
  · rw [List.getD_eq_default _ _ hi]; exact hP

theorem mem_zipWith_lt {f : Nat → Nat → Nat} (hf : ∀ a b, f a b < P) (v c : List Nat) :
    ∀ y ∈ List.zipWith f v c, y < P := by
  induction v generalizing c with
  | nil => simp
  | cons x v ih =>
    cases c with
    | nil => simp
    | cons d c => simpa using ⟨hf x d, ih c⟩

/-- Every layer operation answers a W-vector of canonical elements. -/
theorem isVector_applyLayer (hP : 1 < s.geom.P) (l : Layer) {v : List Nat} (hv : IsVector s.geom v) :
    IsVector s.geom (applyLayer s l v) := by
  have h0 : 0 < s.geom.P := by omega
  refine ⟨applyLayer_length l hv.1, ?_⟩
  cases l with
  | sbf => simpa [applyLayer] using fun x _ => sboxForward_lt h0 x
  | sbfe i => exact mem_set_lt hv.2 (sboxForward_lt h0 _)
  | sbi => simpa [applyLayer] using fun x hx => sboxInverse_lt hP (hv.2 x hx)
  | sbie i => exact mem_set_lt hv.2 (sboxInverse_lt hP (getD_lt h0 hv.2 i))
  | arc r => exact mem_zipWith_lt (fieldAdd_lt h0) _ _
  | arc0 r => exact mem_set_lt hv.2 (fieldAdd_lt h0 _ _)
  | arco r => exact mem_zipWith_lt (fieldAdd_lt h0) _ _
  | arco0 r => exact mem_set_lt hv.2 (fieldAdd_lt h0 _ _)
  | mds => simpa [applyLayer, vecmat] using fun j _ => fieldSum_lt h0 _
  | mpr => simpa [applyLayer, vecmat] using fun j _ => fieldSum_lt h0 _
  | spm k =>
    simp only [applyLayer, sparseMul, List.mem_map, List.mem_range, forall_exists_index, and_imp]
    rintro x j - rfl
    split
    · exact fieldSum_lt h0 _
    · exact fieldAdd_lt h0 _ _
  | exl => simpa [applyLayer, vecmat] using fun j _ => fieldSum_lt h0 _
  | inl => exact mem_zipWith_lt (fun _ _ => fieldAdd_lt h0 _ _) _ _

@[simp] theorem applyLayers_nil (s : State) (v : List Nat) : applyLayers s [] v = v := rfl
@[simp] theorem applyLayers_cons (s : State) (l : Layer) (ls : List Layer) (v : List Nat) :
    applyLayers s (l :: ls) v = applyLayers s ls (applyLayer s l v) := rfl
theorem applyLayers_append (s : State) (a b : List Layer) (v : List Nat) :
    applyLayers s (a ++ b) v = applyLayers s b (applyLayers s a v) := by
  simp [applyLayers]

/-- A sequence of layer operations answers a W-vector of canonical elements. -/
theorem isVector_applyLayers (hP : 1 < s.geom.P) (ls : List Layer) {v : List Nat} (hv : IsVector s.geom v) :
    IsVector s.geom (applyLayers s ls v) := by
  induction ls generalizing v with
  | nil => exact hv
  | cons l ls ih => exact ih (isVector_applyLayer hP l hv)

/-- A permutation answers a W-vector of canonical elements (R190). -/
theorem isVector_permute (hP : 1 < s.geom.P) {v : List Nat} (hv : IsVector s.geom v) :
    IsVector s.geom (s.permute v) := isVector_applyLayers hP _ hv

-- The rounds of PERMUTE

/-- Which round the leading layers count to does not change the expansion (R192, R203, R205). -/
@[simp] theorem leadWith_flatten (pre : List Layer) (rounds : List (List Layer)) :
    (leadWith pre rounds).flatten = pre ++ rounds.flatten := by
  cases rounds <;> simp [leadWith]

@[simp] theorem leadWith_length (pre : List Layer) {rounds : List (List Layer)} (h : rounds ≠ []) :
    (leadWith pre rounds).length = rounds.length := by
  cases rounds with
  | nil => exact absurd rfl h
  | cons r rs => rfl

theorem leadWith_ne_nil {pre : List Layer} (hp : pre ≠ []) {rounds : List (List Layer)}
    (h : ∀ r ∈ rounds, r ≠ []) : ∀ r ∈ leadWith pre rounds, r ≠ [] := by
  cases rounds with
  | nil => simpa [leadWith] using hp
  | cons r rs =>
    intro x hx
    rcases List.mem_cons.1 hx with rfl | hx
    · simp [hp]
    · exact h x (List.mem_cons_of_mem _ hx)

/-- `RND` runs from 0 to the family's last round, `2*RF - 1` (R192, R207). -/
theorem rescueRounds_length {rf : Nat} (h : 1 ≤ rf) : (rescueRounds rf).length = 2 * rf := by
  unfold rescueRounds
  rw [leadWith_length _ (by simp; omega)]; simp

/-- `RND` runs from 0 to the last round, `RF + RP - 1` (R203, R207). -/
theorem poseidonOptRounds_length {rf rp : Nat} (h : 1 ≤ rp) : (poseidonOptRounds rf rp).length = rf + rp := by
  unfold poseidonOptRounds optFullRounds optPartialRounds
  rw [List.length_append, leadWith_length _ (by simp; omega)]; simp; omega

/-- `RND` runs from 0 to the last round, `RF + RP - 1` (R205, R207). -/
theorem poseidon2Rounds_length {rf rp : Nat} (h : 1 ≤ rp) : (poseidon2Rounds rf rp).length = rf + rp := by
  unfold poseidon2Rounds poseidon2FullRounds poseidon2PartialRounds
  rw [leadWith_length _ (by simp; omega)]; simp; omega

/-- Every round has a first phase, so the sequencer's position names a layer until none is left (R207). -/
theorem rounds_ne_nil (s : State) : ∀ r ∈ s.rounds, r ≠ [] := by
  unfold State.rounds
  split
  · exact leadWith_ne_nil (by simp) (by simp)
  · split
    · intro r hr
      rcases List.mem_append.1 hr with hr | hr
      · simp only [optFullRounds, List.mem_map] at hr
        obtain ⟨i, -, rfl⟩ := hr; simp
      · refine leadWith_ne_nil (by simp) (fun r hr => ?_) r hr
        rcases List.mem_append.1 hr with hr | hr <;>
          simp only [optFullRounds, optPartialRounds, List.mem_map] at hr <;> obtain ⟨i, -, rfl⟩ := hr
        · split <;> simp
        · simp
    · simp [poseidonRounds]
  · refine leadWith_ne_nil (by simp) fun r hr => ?_
    simp only [poseidon2FullRounds, poseidon2PartialRounds, List.mem_append, List.mem_map] at hr
    rcases hr with (⟨i, -, rfl⟩ | ⟨i, -, rfl⟩) | ⟨i, -, rfl⟩ <;> simp
  · simp [rescuePrimeRounds]

end Sys2Proof.Machine
end

