-- ==== Sys2Proof/Laws/Sponge.lean ====
section
/-! SUPPORT. The sponge's buffer and its operations, each said once, under the buffer rule of R25. -/

namespace Sys2Proof.Machine

variable {s t : State}

/-- The buffer rule as a fact about the two modes (R25). -/
theorem BufOk.absorbing (h : BufOk s) (hm : s.mode = .absorbing) :
    s.bufCount < s.geom.R ∧ ∀ i, i < s.geom.R → ((s.buf.getD i none).isSome = true ↔ i < s.bufCount) := by
  have := h.2.2; rw [hm] at this; exact this

theorem BufOk.squeezing (h : BufOk s) (hm : s.mode = .squeezing) :
    ∀ i, i < s.geom.R → ((s.buf.getD i none).isSome = true ↔ s.geom.R - s.bufCount ≤ i) := by
  have := h.2.2; rw [hm] at this; exact this

theorem bufCount_le (h : BufOk s) : s.bufCount ≤ s.geom.R := by
  rw [← h.1]; exact List.countP_le_length

theorem countP_replicate_none (n : Nat) : (List.replicate n (none : Option Nat)).countP Option.isSome = 0 := by
  simp [List.countP_replicate]

theorem countP_map_some (n : Nat) (f : Nat → Nat) :
    ((List.range n).map fun i => some (f i)).countP Option.isSome = n := by
  have : ∀ l : List Nat, (l.map fun i => some (f i)).countP Option.isSome = l.length := by
    intro l; induction l with
    | nil => rfl
    | cons a l ih => simp [ih]
  simpa using this (List.range n)

/-- Filling an empty entry raises the count by one. -/
theorem countP_set_some {b : List (Option Nat)} {i x : Nat} (hi : i < b.length) (hn : b.getD i none = none) :
    (b.set i (some x)).countP Option.isSome = b.countP Option.isSome + 1 := by
  rw [List.getD_eq_getElem _ _ hi] at hn
  simp [List.countP_set hi, hn]

/-- Clearing a filled entry lowers the count by one. -/
theorem countP_set_none {b : List (Option Nat)} {i : Nat} (hi : i < b.length)
    (hn : (b.getD i none).isSome = true) :
    (b.set i none).countP Option.isSome = b.countP Option.isSome - 1 := by
  rw [List.getD_eq_getElem _ _ hi] at hn
  simp [List.countP_set hi, hn]

theorem getD_set_same {b : List (Option Nat)} {i : Nat} (hi : i < b.length) (x : Option Nat) :
    (b.set i x).getD i none = x := by
  rw [List.getD_eq_getElem _ _ (by simpa using hi)]; simp

theorem getD_set_other {b : List (Option Nat)} {i j : Nat} (h : i ≠ j) (x : Option Nat) :
    (b.set i x).getD j none = b.getD j none := by
  simp [List.getD_eq_getElem?_getD, List.getElem?_set_ne h]

-- Empty and full buffers

/-- An Absorbing sponge with an empty buffer obeys the buffer rule. -/
theorem bufOk_empty (hR : 0 < s.geom.R) (v : List Nat) : BufOk (s.setSponge v .absorbing s.emptyBuf) := by
  refine ⟨by simp [State.emptyBuf], ?_, ?_⟩
  · intro x hx; simp [State.emptyBuf] at hx
  · simp only [State.setSponge_mode]
    refine ⟨?_, ?_⟩
    · simp [State.bufCount, State.emptyBuf, countP_replicate_none, hR]
    · intro i hi
      simp [State.bufCount, State.emptyBuf, countP_replicate_none]

/-- A Squeezing sponge with everything read obeys the buffer rule. -/
theorem bufOk_read (v : List Nat) : BufOk (s.setSponge v .squeezing s.emptyBuf) := by
  refine ⟨by simp [State.emptyBuf], ?_, ?_⟩
  · intro x hx; simp [State.emptyBuf] at hx
  · simp only [State.setSponge_mode]
    intro i hi
    simp only [State.bufCount, State.emptyBuf, State.setSponge_buf, State.setSponge_geom, countP_replicate_none]
    simp only [State.setSponge_geom] at hi
    simp [hi]

@[simp] theorem rateCopy_length (s : State) : s.rateCopy.length = s.geom.R := by simp [State.rateCopy]

@[simp] theorem rateCopy_countP (s : State) : s.rateCopy.countP Option.isSome = s.geom.R := countP_map_some _ _

theorem rateCopy_getD (s : State) {i : Nat} (hi : i < s.geom.R) : s.rateCopy.getD i none = some (s.reg i) := by
  simp [State.rateCopy, hi]

/-- A Squeezing sponge with a fresh copy of the rate part obeys the buffer rule. -/
theorem bufOk_rateCopy (hP : 0 < s.geom.P) (hv : ∀ y ∈ s.regs, y < s.geom.P) :
    BufOk (s.setSponge s.regs .squeezing s.rateCopy) := by
  refine ⟨by simp, ?_, ?_⟩
  · intro x hx
    simp only [State.setSponge_buf, State.rateCopy, List.mem_map, Option.some.injEq] at hx
    obtain ⟨i, -, rfl⟩ := hx
    exact getD_lt hP hv i
  · simp only [State.setSponge_mode]
    intro i hi
    simp only [State.setSponge_geom] at hi
    simp only [State.bufCount, State.setSponge_buf, State.setSponge_geom, rateCopy_countP, rateCopy_getD s hi]
    simp

-- absorb

/-- An Absorbing sponge is left alone by the switch to Absorbing (R252). -/
theorem toAbsorbing_absorbing (hm : s.mode = .absorbing) : s.toAbsorbing = s := by
  simp [State.toAbsorbing, hm]

theorem toAbsorbing_squeezing (hm : s.mode = .squeezing) :
    s.toAbsorbing = s.setSponge s.regs .absorbing s.emptyBuf := by
  simp [State.toAbsorbing, hm]

@[simp] theorem toAbsorbing_mode (s : State) : s.toAbsorbing.mode = .absorbing := by
  unfold State.toAbsorbing; split <;> simp_all

@[simp] theorem toAbsorbing_geom (s : State) : s.toAbsorbing.geom = s.geom := by
  unfold State.toAbsorbing; split <;> rfl

@[simp] theorem toAbsorbing_regs (s : State) : s.toAbsorbing.regs = s.regs := by
  unfold State.toAbsorbing; split <;> rfl

/-- The switch to Absorbing keeps the buffer rule (R252). -/
theorem bufOk_toAbsorbing (hR : 0 < s.geom.R) (h : BufOk s) : BufOk s.toAbsorbing := by
  unfold State.toAbsorbing
  split
  · exact bufOk_empty hR _
  · exact h

/-- A push fills the first empty entry and raises the count (R252). -/
theorem push_bufCount (h : BufOk s) (hm : s.mode = .absorbing) (x : Nat) :
    (s.push x).bufCount = s.bufCount + 1 := by
  obtain ⟨hlt, hs⟩ := h.absorbing hm
  have hn : s.buf.getD s.bufCount none = none := by
    have := hs s.bufCount hlt
    simpa using this
  exact countP_set_some (by rw [h.1]; exact hlt) hn

/-- After a push the filled entries are those up to the old count (R25). -/
theorem push_isSome (h : BufOk s) (hm : s.mode = .absorbing) (x : Nat) {i : Nat} (hi : i < s.geom.R) :
    (((s.push x).buf.getD i none).isSome = true ↔ i < s.bufCount + 1) := by
  obtain ⟨hlt, hs⟩ := h.absorbing hm
  simp only [State.push, State.setSponge_buf]
  by_cases hc : s.bufCount = i
  · subst hc; rw [getD_set_same (by rw [h.1]; exact hlt)]; simp
  · rw [getD_set_other hc, hs i hi]; omega

/-- A push that does not fill the buffer keeps the buffer rule (R252). -/
theorem bufOk_push (h : BufOk s) (hm : s.mode = .absorbing) {x : Nat} (hx : x < s.geom.P)
    (hc : s.bufCount + 1 < s.geom.R) : BufOk (s.push x) := by
  refine ⟨by simpa [State.push] using h.1, ?_, ?_⟩
  · intro y hy
    simp only [State.push, State.setSponge_buf] at hy
    rcases List.mem_or_eq_of_mem_set hy with hy | hy
    · exact h.2.1 y hy
    · simp only [Option.some.injEq] at hy; subst hy; exact hx
  · have hm' : (s.push x).mode = .absorbing := hm
    rw [hm']
    refine ⟨by rw [push_bufCount h hm]; exact hc, ?_⟩
    intro i hi
    rw [push_bufCount h hm]
    exact push_isSome h hm x hi

/-- Everything `absorb(x)` can do (R252): a push, or a push and a block step. -/
theorem absorbOne_cases (s : State) (x : Nat) :
    ((s.toAbsorbing.push x).bufCount = s.geom.R ∧ s.absorbOne x = (s.toAbsorbing.push x).absorbBlock) ∨
    ((s.toAbsorbing.push x).bufCount ≠ s.geom.R ∧ s.absorbOne x = s.toAbsorbing.push x) := by
  have hg : (s.toAbsorbing.push x).geom = s.geom := by simp [State.push]
  unfold State.absorbOne
  simp only [hg]
  split
  · exact .inl ⟨‹_›, rfl⟩
  · exact .inr ⟨‹_›, rfl⟩

/-- `absorb(x)` keeps the buffer rule (R252, R253). -/
theorem bufOk_absorbOne (hR : 0 < s.geom.R) (h : BufOk s) {x : Nat} (hx : x < s.geom.P) :
    BufOk (s.absorbOne x) := by
  have ht := bufOk_toAbsorbing hR h
  have hm := toAbsorbing_mode s
  rcases absorbOne_cases s x with ⟨-, he⟩ | ⟨hc, he⟩ <;> rw [he]
  · have : (s.toAbsorbing.push x).mode = .absorbing := hm
    simp only [State.absorbBlock, this]
    exact bufOk_empty (by simpa [State.push] using hR) _
  · rw [push_bufCount ht hm] at hc
    have := (ht.absorbing hm).1
    rw [toAbsorbing_geom] at this
    exact bufOk_push ht hm (by simpa using hx) (by rw [toAbsorbing_geom]; omega)

/-- The block added into the rate part is a W-vector of canonical elements (R253). -/
theorem isVector_blockAdded (hP : 0 < s.geom.P) (hv : IsVector s.geom s.regs) : IsVector s.geom s.blockAdded := by
  refine ⟨by simp [State.blockAdded], ?_⟩
  simp only [State.blockAdded, List.mem_map, List.mem_range, forall_exists_index, and_imp]
  rintro y i - rfl
  split
  · exact fieldAdd_lt hP _ _
  · exact getD_lt hP hv.2 i

/-- `absorb(x)` keeps the registers a W-vector of canonical elements. -/
theorem isVector_absorbOne (hP : 1 < s.geom.P) (hv : IsVector s.geom s.regs) (x : Nat) :
    IsVector s.geom (s.absorbOne x).regs := by
  have hg : (s.toAbsorbing.push x).geom = s.geom := by simp [State.push]
  have hr : (s.toAbsorbing.push x).regs = s.regs := by simp [State.push]
  rcases absorbOne_cases s x with ⟨-, he⟩ | ⟨-, he⟩ <;> rw [he]
  · simp only [State.absorbBlock, State.setSponge_regs]
    rw [← hg] at hP hv ⊢
    rw [← hr] at hv
    exact isVector_permute hP (isVector_blockAdded (by omega) hv)
  · rw [hr]; exact hv

-- squeeze

/-- The lowest unread element of a Squeezing sponge that has one (R255). -/
theorem unread_isSome (h : BufOk s) (hm : s.mode = .squeezing) (hc : 0 < s.bufCount) :
    (s.buf.getD (s.geom.R - s.bufCount) none).isSome = true := by
  have := bufCount_le h
  exact (h.squeezing hm _ (by omega)).2 (Nat.le_refl _)

/-- Taking the lowest unread element keeps the buffer rule (R255). -/
theorem bufOk_takeUnread (h : BufOk s) (hm : s.mode = .squeezing) (hc : 0 < s.bufCount) :
    BufOk s.takeUnread.2 := by
  have hle := bufCount_le h
  have hlen : s.geom.R - s.bufCount < s.buf.length := by rw [h.1]; omega
  refine ⟨by simpa [State.takeUnread] using h.1, ?_, ?_⟩
  · intro y hy
    simp only [State.takeUnread, State.setSponge_buf] at hy
    rcases List.mem_or_eq_of_mem_set hy with hy | hy
    · exact h.2.1 y hy
    · exact absurd hy (by simp)
  · have hm' : s.takeUnread.2.mode = .squeezing := hm
    have hcount : s.takeUnread.2.bufCount = s.bufCount - 1 := countP_set_none hlen (unread_isSome h hm hc)
    rw [hm']
    intro i hi
    rw [hcount]
    simp only [State.takeUnread, State.setSponge_buf, State.setSponge_geom] at hi ⊢
    by_cases he : s.geom.R - s.bufCount = i
    · subst he; rw [getD_set_same hlen]; simp; omega
    · rw [getD_set_other he, h.squeezing hm i hi]; omega

/-- Everything the switch to Squeezing can do under the buffer rule (R255): the "full" branch is unreachable. -/
theorem toSqueezing_cases (h : BufOk s) :
    (s.mode = .squeezing ∧ s.toSqueezing = some s) ∨
    (s.mode = .absorbing ∧ 0 < s.bufCount ∧ s.toSqueezing = none) ∨
    (s.mode = .absorbing ∧ s.bufCount = 0 ∧
      s.toSqueezing = some (s.setSponge s.regs .squeezing s.rateCopy)) := by
  cases hm : s.mode
  · obtain ⟨hlt, -⟩ := h.absorbing hm
    rcases Nat.eq_zero_or_pos s.bufCount with h0 | h0
    · have : ¬(0 : Nat) = s.geom.R := by omega
      exact .inr (.inr ⟨rfl, h0, by simp [State.toSqueezing, hm, h0, this]⟩)
    · exact .inr (.inl ⟨rfl, h0, by simp [State.toSqueezing, hm, h0, hlt]⟩)
  · exact .inl ⟨rfl, by simp [State.toSqueezing, hm]⟩

/-- A Squeezing sponge after the refill has an unread element and obeys the buffer rule (R255). -/
theorem refill_spec (hP : 1 < s.geom.P) (hR : 0 < s.geom.R) (h : BufOk s) (hm : s.mode = .squeezing)
    (hv : IsVector s.geom s.regs) :
    BufOk s.refill ∧ s.refill.mode = .squeezing ∧ 0 < s.refill.bufCount ∧ s.refill.geom = s.geom ∧
      IsVector s.geom s.refill.regs := by
  by_cases hc : s.bufCount = 0
  · have he : s.refill = (s.setRegs (s.permute s.regs)).setSponge (s.permute s.regs) .squeezing
        (s.setRegs (s.permute s.regs)).rateCopy := by simp [State.refill, hc, hm]
    have hp := isVector_permute hP hv
    rw [he]
    refine ⟨bufOk_rateCopy (s := s.setRegs (s.permute s.regs)) (by simpa using by omega) hp.2, rfl, ?_, rfl, hp⟩
    simpa [State.bufCount] using hR
  · have he : s.refill = s := by simp [State.refill, hc]
    rw [he]; exact ⟨h, hm, by omega, rfl, hv⟩

/-- Everything `squeeze()` can do under the buffer rule (R255): the signal, or a next state that is Squeezing,
obeys the rule and keeps the registers canonical. -/
theorem squeezeOne_cases (hP : 1 < s.geom.P) (hR : 0 < s.geom.R) (h : BufOk s) (hv : IsVector s.geom s.regs) :
    (s.mode = .absorbing ∧ 0 < s.bufCount ∧ s.squeezeOne = none) ∨
    (¬(s.mode = .absorbing ∧ 0 < s.bufCount) ∧ ∃ v t, s.squeezeOne = some (v, t) ∧ BufOk t ∧
      t.mode = .squeezing ∧ t.geom = s.geom ∧ IsVector s.geom t.regs) := by
  have key : ∀ u : State, BufOk u → u.mode = .squeezing → u.geom = s.geom → IsVector s.geom u.regs →
      BufOk u.refill.takeUnread.2 ∧ u.refill.takeUnread.2.mode = .squeezing ∧
        u.refill.takeUnread.2.geom = s.geom ∧ IsVector s.geom u.refill.takeUnread.2.regs := by
    intro u hu hmu hgu hvu
    rw [← hgu] at hP hR hvu
    obtain ⟨h1, h2, h3, h4, h5⟩ := refill_spec hP hR hu hmu hvu
    refine ⟨bufOk_takeUnread h1 h2 h3, h2, h4.trans hgu, ?_⟩
    rw [hgu] at h5; exact h5
  rcases toSqueezing_cases h with ⟨hm, he⟩ | ⟨hm, hc, he⟩ | ⟨hm, hc, he⟩
  · exact .inr ⟨by simp [hm], s.refill.takeUnread.1, s.refill.takeUnread.2, by simp [State.squeezeOne, he],
      key s h hm rfl hv⟩
  · exact .inl ⟨hm, hc, by simp [State.squeezeOne, he]⟩
  · refine .inr ⟨by omega, (s.setSponge s.regs .squeezing s.rateCopy).refill.takeUnread.1,
      (s.setSponge s.regs .squeezing s.rateCopy).refill.takeUnread.2, by simp [State.squeezeOne, he],
      key _ ?_ rfl rfl hv⟩
    exact bufOk_rateCopy (by omega) hv.2

end Sys2Proof.Machine
end

