-- ==== Sys2Proof/Laws/Exec.lean ====
section
/-! SUPPORT. What every command has in common, said once: the shell it runs in and what it leaves alone. -/

namespace Sys2Proof.Machine

/-- The fault gate stops every command but four (R357). -/
def gatedCommand : Instr → Bool
  | .rst => false
  | .csrr _ => false
  | .prd _ _ => false
  | .srd _ => false
  | _ => true

/-- What a command that ends in ok leaves alone. -/
structure BodyFrame (i : Instr) (s t : State) : Prop where
  geom : t.geom = s.geom
  input : t.input = s.input
  output : t.output = s.output
  fault : i ≠ .rst → t.fault = s.fault ∧ t.err = s.err ∧ t.activity = s.activity
  rst : i = .rst → t = s.resetArch
  csr : i ≠ .rst → (∀ n, i ≠ .csrw n) → t.csr = s.csr
  params : i ≠ .rst → (∀ sp x, i ≠ .pwr sp x) → t.params = s.params
  locked : i ≠ .rst → s.pvalid = true → t.params = s.params ∧ t.csr = { s.csr with hlen := t.csr.hlen }
  pvalid : i ≠ .rst → i ≠ .pcommit → t.pvalid = s.pvalid
  commit : i = .pcommit → t = s ∨ (t = s.setPvalid ∧ s.k1 = true ∧ s.commitChecks = true)

/-- The codes a command's own checks can end in; `Faulted` is the gate's (R351, R357). -/
def errorCodes : List Code := [.squeezeNeedsPadding, .misalignedVariableLengthInput, .invalidConfiguration,
  .unsupportedSboxExponent, .illegalCommand, .nonCanonicalOperand, .paramsNotCommitted, .paramsLocked,
  .indexOutOfRange, .inverseOfZero, .illegalValue]

/-- The registers, the mode and the buffer are outside the frame. -/
theorem bodyFrame_sponge {i : Instr} (h : i ≠ .rst) (h' : i ≠ .pcommit) (s : State) (v : List Nat)
    (m : Mode) (b : List (Option Nat)) :
    BodyFrame i s (s.setSponge v m b) where
  geom := rfl
  input := rfl
  output := rfl
  fault := fun _ => ⟨rfl, rfl, rfl⟩
  rst := fun h'' => absurd h'' h
  csr := fun _ _ => rfl
  params := fun _ _ => rfl
  locked := fun _ _ => ⟨rfl, rfl⟩
  pvalid := fun _ _ => rfl
  commit := fun h'' => absurd h'' h'

/-- A command that changes nothing. -/
theorem bodyFrame_self {i : Instr} (h : i ≠ .rst) (s : State) : BodyFrame i s s where
  geom := rfl
  input := rfl
  output := rfl
  fault := fun _ => ⟨rfl, rfl, rfl⟩
  rst := fun h'' => absurd h'' h
  csr := fun _ _ => rfl
  params := fun _ _ => rfl
  locked := fun _ _ => ⟨rfl, rfl⟩
  pvalid := fun _ _ => rfl
  commit := fun _ => .inl rfl

/-- Absorbing and squeezing write the registers, MODE and BUF only (R250). -/
theorem eq_setSponge_absorbOne (s : State) (x : Nat) : ∃ v m b, s.absorbOne x = s.setSponge v m b := by
  unfold State.absorbOne State.absorbBlock State.push State.toAbsorbing
  cases s.mode <;> simp only <;> split <;> exact ⟨_, _, _, rfl⟩

theorem eq_setSponge_absorbMany (xs : List Nat) : ∀ s : State, ∃ v m b, s.absorbMany xs = s.setSponge v m b := by
  induction xs with
  | nil => intro s; exact ⟨s.regs, s.mode, s.buf, rfl⟩
  | cons x xs ih =>
    intro s
    obtain ⟨v, m, b, h⟩ := eq_setSponge_absorbOne s x
    obtain ⟨v', m', b', h'⟩ := ih (s.absorbOne x)
    exact ⟨v', m', b', by rw [State.absorbMany, List.foldl_cons]; exact h'.trans (by rw [h]; rfl)⟩

theorem eq_setSponge_squeezeOne {s t : State} {x : Nat} (h : s.squeezeOne = some (x, t)) :
    ∃ v m b, t = s.setSponge v m b := by
  unfold State.squeezeOne at h
  split at h
  · rename_i u hu
    have h1 : ∃ v m b, u = s.setSponge v m b := by
      unfold State.toSqueezing at hu
      split at hu
      · cases hu; exact ⟨s.regs, s.mode, s.buf, rfl⟩
      · split at hu
        · cases hu
        · cases hu; simp only [State.absorbBlock]; split <;> exact ⟨_, _, _, rfl⟩
    obtain ⟨v, m, b, rfl⟩ := h1
    cases h
    simp only [State.refill]
    split <;> exact ⟨_, _, _, rfl⟩
  · cases h

theorem eq_setSponge_squeezeMany (k : Nat) : ∀ {s t : State} {vs : List Nat},
    State.squeezeMany k s = some (vs, t) → ∃ v m b, t = s.setSponge v m b := by
  induction k with
  | zero => intro s t vs h; cases h; exact ⟨s.regs, s.mode, s.buf, rfl⟩
  | succ k ih =>
    intro s t vs h
    unfold State.squeezeMany at h
    split at h
    · cases h
    · rename_i v u hu
      split at h
      · cases h
      · rename_i vs' w hw
        cases h
        obtain ⟨v1, m1, b1, rfl⟩ := eq_setSponge_squeezeOne hu
        obtain ⟨v2, m2, b2, rfl⟩ := ih hw
        exact ⟨_, _, _, rfl⟩

set_option linter.unusedSimpArgs false in
/-- Every command is the command shell around a body that keeps the frame. -/
theorem exec_shell (i : Instr) (hc : i.isCommand = true) :
    ∃ body : State → List Beat → Except Code (State × List Item),
      (∀ s, exec i s = runCommand (gatedCommand i) (payloadBeats s i) body s) ∧
      (∀ s p t items, body s p = .ok (t, items) → BodyFrame i s t) ∧
      (∀ s p c, body s p = .error c → c ∈ errorCodes) := by
  cases i
  case csrw n =>
    refine ⟨_, fun s => by simp only [exec, execCsrw, gatedCommand, payloadBeats]; rfl, ?_, ?_⟩
    · intro s p t items h
      split at h
      · cases h
      · rename_i id hid
        split at h
        · cases h
        split at h
        · cases h
        rename_i hl
        split at h
        · cases h
        cases h
        refine ⟨rfl, rfl, rfl, fun _ => ⟨rfl, rfl, rfl⟩, nofun, fun _ h => absurd rfl (h n), fun _ _ => rfl, ?_,
          fun _ _ => rfl, nofun⟩
        intro _ hp
        refine ⟨rfl, ?_⟩
        cases id <;> simp_all [csrLockable, csrReadOnly, Csrs.write, State.setCsr]
    · intro s p c h
      repeat' split at h
      all_goals first | (cases h; decide) | cases h
  case pwr sp x =>
    refine ⟨_, fun s => by simp only [exec, execPwr, gatedCommand, payloadBeats]; rfl, ?_, ?_⟩
    · intro s p t items h
      split at h
      · cases h
      split at h
      · cases h
      split at h
      · cases h
      cases h
      exact ⟨rfl, rfl, rfl, fun _ => ⟨rfl, rfl, rfl⟩, nofun, fun _ h => rfl, fun _ h => absurd rfl (h sp x),
        fun _ h => by contradiction, fun _ _ => rfl, nofun⟩
    · intro s p c h
      repeat' split at h
      all_goals first | (cases h; decide) | cases h
  case rst =>
    refine ⟨_, fun s => by simp only [exec, execRst, gatedCommand, payloadBeats]; rfl, ?_, ?_⟩
    · intro s p t items h
      cases h
      exact ⟨rfl, rfl, rfl, fun h => absurd rfl h, fun _ => rfl, fun h => absurd rfl h,
        fun h => absurd rfl h, fun h => absurd rfl h, fun h => absurd rfl h, nofun⟩
    · intro s p c h; cases h
  case pcommit =>
    refine ⟨_, fun s => by simp only [exec, execPcommit, gatedCommand, payloadBeats]; rfl, ?_, ?_⟩
    · intro s p t items h
      split at h
      · cases h; exact bodyFrame_self (by simp) _
      split at h
      · cases h
      split at h
      · cases h
      cases h
      exact ⟨rfl, rfl, rfl, fun _ => ⟨rfl, rfl, rfl⟩, nofun, fun _ h => rfl, fun _ h => rfl,
        fun _ h => by contradiction, fun _ h => absurd rfl h, fun _ => .inr ⟨rfl, by simp_all, by simp_all⟩⟩
    · intro s p c h
      repeat' split at h
      all_goals first | (cases h; decide) | cases h
  case absorb =>
    refine ⟨_, fun s => by simp only [exec, execAbsorb, absorbCommand, gatedCommand, payloadBeats, Nat.one_mul]; rfl,
      ?_, ?_⟩
    · intro s p t items h
      split at h
      · cases h
      split at h
      · cases h
      cases h
      obtain ⟨v, m, b, h⟩ := eq_setSponge_absorbMany (elemsOfBeats s.geom.limbs 1 p) s
      rw [h]; exact bodyFrame_sponge (by simp) (by simp) _ _ _ _
    · intro s p c h
      repeat' split at h
      all_goals first | (cases h; decide) | cases h
  case absorbn n =>
    refine ⟨_, fun s => by simp only [exec, execAbsorbn, absorbCommand, gatedCommand, payloadBeats]; rfl, ?_, ?_⟩
    · intro s p t items h
      split at h
      · cases h
      split at h
      · cases h
      cases h
      obtain ⟨v, m, b, h⟩ := eq_setSponge_absorbMany (elemsOfBeats s.geom.limbs n p) s
      rw [h]; exact bodyFrame_sponge (by simp) (by simp) _ _ _ _
    · intro s p c h
      repeat' split at h
      all_goals first | (cases h; decide) | cases h
  case hash st =>
    refine ⟨_, fun s => by simp only [exec, execHash, gatedCommand, payloadBeats]; rfl, ?_, ?_⟩
    · intro s p t items h
      split at h
      · cases h
      split at h
      · cases h
      split at h
      · cases h
      rename_i pad hp
      split at h
      · rename_i vs u hu
        cases h
        obtain ⟨v, m, b, h⟩ := eq_setSponge_squeezeMany _ hu
        obtain ⟨v', m', b', h'⟩ := eq_setSponge_absorbMany (elemsOfBeats s.geom.limbs s.hLen p ++ pad)
          (s.newSponge.setCapacity (capacityValue s.geom.P s.geom.R st s.hLen))
        have : ∃ v m b, s.newSponge.setCapacity (capacityValue s.geom.P s.geom.R st s.hLen) = s.setSponge v m b := by
          unfold State.setCapacity State.newSponge; split <;> exact ⟨_, _, _, rfl⟩
        obtain ⟨v2, m2, b2, h2⟩ := this
        rw [State.hashAbsorbed, h', h2] at h
        rw [h]; exact bodyFrame_sponge (by simp) (by simp) _ _ _ _
      · cases h
    · intro s p c h
      repeat' split at h
      all_goals first | (cases h; decide) | cases h
  case squeeze =>
    refine ⟨_, fun s => by simp only [exec, execSqueeze, squeezeCommand, gatedCommand, payloadBeats]; rfl, ?_, ?_⟩
    · intro s p t items h
      split at h
      · cases h
      split at h
      · rename_i vs u hu
        cases h
        obtain ⟨v, m, b, h⟩ := eq_setSponge_squeezeMany _ hu
        rw [h]; exact bodyFrame_sponge (by simp) (by simp) _ _ _ _
      · cases h
    · intro s p c h
      repeat' split at h
      all_goals first | (cases h; decide) | cases h
  case squeezen k =>
    refine ⟨_, fun s => by simp only [exec, execSqueezen, squeezeCommand, gatedCommand, payloadBeats]; rfl, ?_, ?_⟩
    · intro s p t items h
      split at h
      · cases h
      split at h
      · rename_i vs u hu
        cases h
        obtain ⟨v, m, b, h⟩ := eq_setSponge_squeezeMany _ hu
        rw [h]; exact bodyFrame_sponge (by simp) (by simp) _ _ _ _
      · cases h
    · intro s p c h
      repeat' split at h
      all_goals first | (cases h; decide) | cases h
  case chDbl => cases hc
  case chAdd => cases hc
  all_goals
    refine ⟨_, fun s => by
      simp only [exec, execNop, execCsrr, execPrd, execSwr, execSrd, execFadd, execFsub, execFneg, execFmul,
        execFsqr, execFpow, execFinv, execSbf, execSbfe, execSbi, execSbie, execArc, execArc0, execArco,
        execArco0, execMds, execMpr, execSpm, execExl, execInl, execPermute, execSpnew, execDcap, execDpad,
        layerCommand, threeRegister, twoRegister, gatedCommand, payloadBeats]
      rfl, ?_, ?_⟩
    · intro s p t items h
      try simp only [noBound, Bool.not_true, if_false, Bool.false_eq_true] at h
      repeat' split at h
      all_goals first
        | (cases h; exact bodyFrame_self (by simp) _)
        | (cases h; exact bodyFrame_sponge (by simp) (by simp) _ _ _ _)
        | cases h
    · intro s p c h
      try simp only [noBound, Bool.not_true, if_false, Bool.false_eq_true] at h
      repeat' split at h
      all_goals first | (cases h; decide) | cases h
end Sys2Proof.Machine
end

