-- ==== Sys2Proof/Laws/HostParams.lean ====
section
/-! SUPPORT. What the host's functions answer: the constant generator, the Cauchy nodes, the block operations. -/

namespace Sys2Proof.Machine

variable {P : Nat}

-- Round constants (R284)

/-- What the loop collects: as many elements as needed, each of them nonzero and below `P` (R284). -/
theorem collectConstants_eq_some {src : ConstantSource} (hP : 0 < P) :
    ∀ {tries nonce need : Nat} {out : List Nat}, collectConstants src P tries nonce need = some out →
      out.length = need ∧ ∀ v ∈ out, v ≠ 0 ∧ v < P
  | tries, nonce, 0, out, h => by
    cases tries <;> simp only [collectConstants, Option.some.injEq] at h <;> subst h <;> simp
  | 0, _, _ + 1, _, h => by simp [collectConstants] at h
  | tries + 1, nonce, need + 1, out, h => by
    simp only [collectConstants] at h
    split at h
    · exact collectConstants_eq_some hP h
    · rename_i hv
      obtain ⟨rest, hrest, rfl⟩ := Option.map_eq_some_iff.1 h
      obtain ⟨hl, hr⟩ := collectConstants_eq_some hP hrest
      refine ⟨by simp [hl], fun v hm => ?_⟩
      rcases List.mem_cons.1 hm with rfl | hm
      · exact ⟨hv, Nat.mod_lt _ hP⟩
      · exact hr v hm

/-- More tries do not change what is collected: the bound only decides whether the loop has ended (log 16). -/
theorem collectConstants_mono {src : ConstantSource} :
    ∀ {tries more nonce need : Nat} {out : List Nat}, tries ≤ more →
      collectConstants src P tries nonce need = some out → collectConstants src P more nonce need = some out
  | tries, more, _, 0, _, _, h => by
    cases tries <;> cases more <;> simpa [collectConstants] using h
  | 0, _, _, _ + 1, _, _, h => by simp [collectConstants] at h
  | tries + 1, 0, _, _ + 1, _, hle, _ => by omega
  | tries + 1, more + 1, nonce, need + 1, out, hle, h => by
    have hle : tries ≤ more := by omega
    simp only [collectConstants] at h ⊢
    split at h
    · next hv => rw [if_pos hv]; exact collectConstants_mono hle h
    · next hv =>
      obtain ⟨rest, hrest, rfl⟩ := Option.map_eq_some_iff.1 h
      rw [if_neg hv, collectConstants_mono hle hrest]; rfl

/-- The generator fills every constant vector of the family, with nonzero elements (R284). -/
theorem generateConstants_eq_some {src : ConstantSource} (hP : 0 < P) {W family rf rp tries : Nat} {out : List Nat}
    (h : generateConstants src P W family rf rp tries = some out) :
    out.length = W * constantVectors family rf rp ∧ ∀ v ∈ out, v ≠ 0 ∧ v < P :=
  collectConstants_eq_some hP h

-- The Cauchy nodes (R288)

theorem cauchyNodesOk_iff {W : Nat} {x y : List Nat} : cauchyNodesOk P W x y = true ↔
    x.length = W ∧ y.length = W ∧ (∀ v ∈ x ++ y, v < P) ∧ (x ++ y).Nodup := by
  simp only [cauchyNodesOk, Bool.and_eq_true, beq_iff_eq, List.all_eq_true, decide_eq_true_eq, and_assoc]

/-- The precondition needs `P >= 2W` (R288). -/
theorem two_mul_le_of_cauchyNodesOk {W : Nat} {x y : List Nat} (h : cauchyNodesOk P W x y = true) :
    2 * W ≤ P := by
  obtain ⟨hx, hy, hlt, hnd⟩ := cauchyNodesOk_iff.1 h
  have hsub : (x ++ y).toFinset ⊆ Finset.range P := fun v hv => by
    simpa using hlt v (List.mem_toFinset.1 hv)
  have hcard := Finset.card_le_card hsub
  rw [List.toFinset_card_of_nodup hnd, List.length_append, Finset.card_range] at hcard
  omega

/-- No difference of two nodes is zero (R288). -/
theorem cauchy_difference_ne_zero {W : Nat} {x y : List Nat} (h : cauchyNodesOk P W x y = true) {i j : Nat}
    (hi : i < W) (hj : j < W) : fieldSub P (x.getD i 0) (y.getD j 0) ≠ 0 := by
  obtain ⟨hx, hy, hlt, hnd⟩ := cauchyNodesOk_iff.1 h
  subst hx
  have hj : j < y.length := hy ▸ hj
  have ha : x[i] < P := hlt _ (by simp)
  have hb : y[j] < P := hlt _ (by simp)
  rw [List.getD_eq_getElem _ _ hi, List.getD_eq_getElem _ _ hj]
  intro h0
  refine (List.nodup_append.1 hnd).2.2 _ (List.getElem_mem hi) _ (List.getElem_mem hj)
    (eq_of_cast_eq ha hb (sub_eq_zero.1 ?_))
  rw [← cast_fieldSub hb.le, h0, Nat.cast_zero]

/-- A matrix is answered exactly for nodes that meet the precondition (R288). -/
theorem cauchyMatrix_isSome {W : Nat} {x y : List Nat} :
    (cauchyMatrix P W x y).isSome = cauchyNodesOk P W x y := by
  unfold cauchyMatrix; split <;> simp_all

-- Blocks (R292)

@[simp] theorem subMat_entry {a : Mat} {r rows c cols i j : Nat} (hi : i < rows) (hj : j < cols) :
    (subMat a r rows c cols).entry i j = a.entry (r + i) (c + j) := matOf_entry _ hi hj

/-- `inject` replaces the block's entries and keeps every other (R292). -/
theorem injectMat_entry {n m r rows c cols i j : Nat} {a b : Mat} (hi : i < n) (hj : j < m) :
    (injectMat n m a r rows c cols b).entry i j =
      if r ≤ i ∧ i < r + rows ∧ c ≤ j ∧ j < c + cols then b.entry (i - r) (j - c) else a.entry i j :=
  matOf_entry _ hi hj

/-- What was injected is what is extracted (R292). -/
theorem subMat_injectMat_entry {n m r rows c cols i j : Nat} {a b : Mat} (hr : r + rows ≤ n) (hc : c + cols ≤ m)
    (hi : i < rows) (hj : j < cols) :
    (subMat (injectMat n m a r rows c cols b) r rows c cols).entry i j = b.entry i j := by
  rw [subMat_entry hi hj, injectMat_entry (by omega) (by omega), if_pos (by omega)]
  simp

end Sys2Proof.Machine
end

