-- ==== Sys2Proof/Laws/PerInstr.lean ====
section
/-! SUPPORT. What every encoded instruction has in common with its row of spec/opcode_table.json, one lemma for each
constructor. -/

namespace Sys2Proof.Laws.TableRow

open Sys2Proof

/-- The fixed bits of each row of spec/opcode_table.json: highest bit, lowest bit, value. -/
def fixedFields : Instr → List (Nat × Nat × Nat)
  | .nop => [(31, 0, 0x0)]
  | .rst => [(31, 0, 0x1)]
  | .csrw _ => [(11, 0, 0x2)]
  | .csrr _ => [(11, 0, 0x3)]
  | .pwr _ _ => [(7, 0, 0x4)]
  | .prd _ _ => [(7, 0, 0x5)]
  | .pcommit => [(31, 0, 0x6)]
  | .swr _ => [(11, 0, 0x8)]
  | .srd _ => [(11, 0, 0x9)]
  | .fadd _ _ _ => [(7, 0, 0x10)]
  | .fsub _ _ _ => [(7, 0, 0x11)]
  | .fneg _ _ => [(7, 0, 0x12), (31, 24, 0x0)]
  | .fmul _ _ _ => [(7, 0, 0x13)]
  | .fsqr _ _ => [(7, 0, 0x14), (31, 24, 0x0)]
  | .fpow _ _ => [(7, 0, 0x15), (31, 24, 0x0)]
  | .finv _ _ => [(7, 0, 0x16), (31, 24, 0x0)]
  | .sbf => [(31, 0, 0x20)]
  | .sbfe _ => [(11, 0, 0x21)]
  | .sbi => [(31, 0, 0x22)]
  | .sbie _ => [(11, 0, 0x23)]
  | .arc _ => [(11, 0, 0x28)]
  | .arc0 _ => [(11, 0, 0x29)]
  | .arco _ => [(11, 0, 0x2a)]
  | .arco0 _ => [(11, 0, 0x2b)]
  | .mds => [(31, 0, 0x2c)]
  | .mpr => [(31, 0, 0x2d)]
  | .spm _ => [(11, 0, 0x2e)]
  | .exl => [(31, 0, 0x2f)]
  | .inl => [(31, 0, 0x30)]
  | .permute => [(31, 0, 0x38)]
  | .spnew => [(31, 0, 0x40)]
  | .absorb => [(31, 0, 0x41)]
  | .absorbn _ => [(11, 0, 0x42)]
  | .squeeze => [(31, 0, 0x43)]
  | .squeezen _ => [(11, 0, 0x44)]
  | .hash _ => [(7, 0, 0x45), (31, 12, 0x0)]
  | .dcap _ => [(7, 0, 0x46), (31, 12, 0x0)]
  | .dpad _ => [(7, 0, 0x47), (31, 12, 0x0)]
  | .chDbl _ => [(31, 15, 0x0)]
  | .chAdd _ _ => [(31, 30, 0x2)]

/-- The word that encodes a well-formed instruction has the fixed bits of its row. -/
def Statement (i : Instr) : Prop :=
  i.wellFormed = true → ∀ f ∈ fixedFields i, bitField (encode i) f.1 f.2.1 = f.2.2

/-- A word with no operand is its own fixed field. -/
theorem wordN_fixed {op : Nat} (h : op < 2 ^ 8) : ∀ f ∈ [(31, 0, op)], bitField (wordN op) f.1 f.2.1 = f.2.2 := by
  simp [bitField, wordN_toNat h]; omega

/-- The selector of a word with an immediate only is fixed. -/
theorem wordI_fixed {op imm : Nat} (h : op < 2 ^ 8) (hi : imm < 2 ^ 20) :
    ∀ f ∈ [(11, 0, op)], bitField (wordI op 0 imm) f.1 f.2.1 = f.2.2 := by
  simp [bitField, wordI_toNat h (by decide : 0 < 2 ^ 4) hi]; omega

/-- The selector of a word that names a space or strategy is not. -/
theorem wordS_fixed {op sel imm : Nat} (h : op < 2 ^ 8) (hs : sel < 2 ^ 4) (hi : imm < 2 ^ 20) :
    ∀ f ∈ [(7, 0, op)], bitField (wordI op sel imm) f.1 f.2.1 = f.2.2 := by
  simp [bitField, wordI_toNat h hs hi]; omega

theorem wordT_fixed {op d a b : Nat} (h : op < 2 ^ 8) (hd : d < 2 ^ 8) (ha : a < 2 ^ 8) (hb : b < 2 ^ 8) :
    ∀ f ∈ [(7, 0, op)], bitField (wordT op d a b) f.1 f.2.1 = f.2.2 := by
  simp [bitField, wordT_toNat h hd ha hb]; omega

/-- A two-register word has a zero second source. -/
theorem wordT2_fixed {op d a : Nat} (h : op < 2 ^ 8) (hd : d < 2 ^ 8) (ha : a < 2 ^ 8) :
    ∀ f ∈ [(7, 0, op), (31, 24, 0)], bitField (wordT op d a 0) f.1 f.2.1 = f.2.2 := by
  simp [bitField, wordT_toNat h hd ha (by decide : 0 < 2 ^ 8)]; omega

theorem nop : Statement (.nop) :=
  fun _ => wordN_fixed (by decide)

theorem rst : Statement (.rst) :=
  fun _ => wordN_fixed (by decide)

theorem csrw (n : Nat) : Statement (.csrw n) :=
  fun h => wordI_fixed (by decide) (of_decide_eq_true h)

theorem csrr (n : Nat) : Statement (.csrr n) :=
  fun h => wordI_fixed (by decide) (of_decide_eq_true h)

theorem pwr (sp : Space) (idx : Nat) : Statement (.pwr sp idx) :=
  fun h => wordS_fixed (by decide) (Nat.lt_of_lt_of_le sp.code_lt (by decide)) (of_decide_eq_true h)

theorem prd (sp : Space) (idx : Nat) : Statement (.prd sp idx) :=
  fun h => wordS_fixed (by decide) (Nat.lt_of_lt_of_le sp.code_lt (by decide)) (of_decide_eq_true h)

theorem pcommit : Statement (.pcommit) :=
  fun _ => wordN_fixed (by decide)

theorem swr (i : Nat) : Statement (.swr i) :=
  fun h => wordI_fixed (by decide) (of_decide_eq_true h)

theorem srd (i : Nat) : Statement (.srd i) :=
  fun h => wordI_fixed (by decide) (of_decide_eq_true h)

theorem fadd (d a b : Nat) : Statement (.fadd d a b) := by
  intro h
  simp only [Instr.wellFormed, fitsReg, Bool.and_eq_true, decide_eq_true_eq] at h
  exact wordT_fixed (by decide) h.1.1 h.1.2 h.2

theorem fsub (d a b : Nat) : Statement (.fsub d a b) := by
  intro h
  simp only [Instr.wellFormed, fitsReg, Bool.and_eq_true, decide_eq_true_eq] at h
  exact wordT_fixed (by decide) h.1.1 h.1.2 h.2

theorem fneg (d a : Nat) : Statement (.fneg d a) := by
  intro h
  simp only [Instr.wellFormed, fitsReg, Bool.and_eq_true, decide_eq_true_eq] at h
  exact wordT2_fixed (by decide) h.1 h.2

theorem fmul (d a b : Nat) : Statement (.fmul d a b) := by
  intro h
  simp only [Instr.wellFormed, fitsReg, Bool.and_eq_true, decide_eq_true_eq] at h
  exact wordT_fixed (by decide) h.1.1 h.1.2 h.2

theorem fsqr (d a : Nat) : Statement (.fsqr d a) := by
  intro h
  simp only [Instr.wellFormed, fitsReg, Bool.and_eq_true, decide_eq_true_eq] at h
  exact wordT2_fixed (by decide) h.1 h.2

theorem fpow (d a : Nat) : Statement (.fpow d a) := by
  intro h
  simp only [Instr.wellFormed, fitsReg, Bool.and_eq_true, decide_eq_true_eq] at h
  exact wordT2_fixed (by decide) h.1 h.2

theorem finv (d a : Nat) : Statement (.finv d a) := by
  intro h
  simp only [Instr.wellFormed, fitsReg, Bool.and_eq_true, decide_eq_true_eq] at h
  exact wordT2_fixed (by decide) h.1 h.2

theorem sbf : Statement (.sbf) :=
  fun _ => wordN_fixed (by decide)

theorem sbfe (i : Nat) : Statement (.sbfe i) :=
  fun h => wordI_fixed (by decide) (of_decide_eq_true h)

theorem sbi : Statement (.sbi) :=
  fun _ => wordN_fixed (by decide)

theorem sbie (i : Nat) : Statement (.sbie i) :=
  fun h => wordI_fixed (by decide) (of_decide_eq_true h)

theorem arc (r : Nat) : Statement (.arc r) :=
  fun h => wordI_fixed (by decide) (of_decide_eq_true h)

theorem arc0 (r : Nat) : Statement (.arc0 r) :=
  fun h => wordI_fixed (by decide) (of_decide_eq_true h)

theorem arco (r : Nat) : Statement (.arco r) :=
  fun h => wordI_fixed (by decide) (of_decide_eq_true h)

theorem arco0 (r : Nat) : Statement (.arco0 r) :=
  fun h => wordI_fixed (by decide) (of_decide_eq_true h)

theorem mds : Statement (.mds) :=
  fun _ => wordN_fixed (by decide)

theorem mpr : Statement (.mpr) :=
  fun _ => wordN_fixed (by decide)

theorem spm (k : Nat) : Statement (.spm k) :=
  fun h => wordI_fixed (by decide) (of_decide_eq_true h)

theorem exl : Statement (.exl) :=
  fun _ => wordN_fixed (by decide)

theorem inl : Statement (.inl) :=
  fun _ => wordN_fixed (by decide)

theorem permute : Statement (.permute) :=
  fun _ => wordN_fixed (by decide)

theorem spnew : Statement (.spnew) :=
  fun _ => wordN_fixed (by decide)

theorem absorb : Statement (.absorb) :=
  fun _ => wordN_fixed (by decide)

theorem absorbn (n : Nat) : Statement (.absorbn n) :=
  fun h => wordI_fixed (by decide) (of_decide_eq_true h)

theorem squeeze : Statement (.squeeze) :=
  fun _ => wordN_fixed (by decide)

theorem squeezen (k : Nat) : Statement (.squeezen k) :=
  fun h => wordI_fixed (by decide) (of_decide_eq_true h)

theorem hash (st : Strategy) : Statement (.hash st) := by
  intro _; cases st <;> decide

theorem dcap (st : Strategy) : Statement (.dcap st) := by
  intro _; cases st <;> decide

theorem dpad (st : Strategy) : Statement (.dpad st) := by
  intro _; cases st <;> decide

theorem chDbl (i : Nat) : Statement (.chDbl i) := by
  intro h
  simp only [Instr.wellFormed, fitsStepIndex, decide_eq_true_eq] at h
  simp [fixedFields, encode, bitField, wordStep_toNat (kind := 0) (right := 0) (by decide) (by decide) h]; omega

theorem chAdd (l r : Nat) : Statement (.chAdd l r) := by
  intro h
  simp only [Instr.wellFormed, fitsStepIndex, Bool.and_eq_true, decide_eq_true_eq] at h
  simp [fixedFields, encode, bitField, wordStep_toNat (kind := 1) (by decide) h.2 h.1]; omega

end Sys2Proof.Laws.TableRow
end

