-- ==== Sys2Proof/Laws/Step.lean ====
section
/-! SUPPORT. What a step can be, said once. -/

namespace Sys2Proof.Machine

variable {s t u : State}

/-- What the decoder answers is a command, not a chain step (R100). -/
theorem decode_isCommand {w : Word} {i : Instr} (h : decode w = .ok i) : i.isCommand = true := by
  unfold decode decodeN decodeI decodeSpace decodeStrategy decodeT2 decodeT3 at h
  repeat' split at h
  all_goals first | (cases h; rfl) | cases h

/-- Everything a step can be: waiting, a command, an illegal word, a step of a chain run, a layer operation of a
permutation in progress. -/
theorem step_forms (s : State) :
    (s.activity = .idle ∧ step s = .next s) ∨
    (∃ i w, s.activity = .idle ∧ i.isCommand = true ∧ s.fetchWord = some w ∧ decode w = .ok i ∧
      step s = exec i s) ∨
    (∃ w, s.activity = .idle ∧ s.fetchWord = some w ∧ step s = .next (s.illegalWord w)) ∨
    (∃ t, s.activity = .chain t ∧ step s = chainStep t s) ∨
    ∃ rnd ph, s.activity = .permuting rnd ph ∧ step s = .next (s.sequencerStep rnd ph) := by
  have hs : step s = match s.activity with
    | .idle => commandStep s
    | .chain t => chainStep t s
    | .permuting rnd ph => .next (s.sequencerStep rnd ph) := rfl
  cases ha : s.activity with
  | idle =>
    rw [ha] at hs
    simp only [commandStep] at hs
    split at hs
    · exact .inl ⟨rfl, hs⟩
    · rename_i w hf
      split at hs
      · exact .inr (.inl ⟨_, w, rfl, decode_isCommand ‹_›, hf, ‹_›, hs⟩)
      · exact .inr (.inr (.inl ⟨w, rfl, hf, hs⟩))
  | chain t => rw [ha] at hs; exact .inr (.inr (.inr (.inl ⟨t, rfl, hs⟩)))
  | permuting rnd ph => rw [ha] at hs; exact .inr (.inr (.inr (.inr ⟨rnd, ph, rfl, hs⟩)))

/-- A step of a chain run changes the hidden state only: one more entry, or the end of the run (R45, R159). -/
theorem chainStep_next {l : List Nat} (ha : s.activity = .chain l) (h : chainStep l s = .next u) :
    ∃ a, u = s.setActivity a ∧ (a = .idle ∨ ∃ st, a = .chain (l ++ [chainEntry s.geom.P l st])) := by
  unfold chainStep at h
  split at h
  · cases h; exact ⟨_, rfl, .inl rfl⟩
  · split at h
    · rename_i st _
      refine ⟨_, ?_, .inr ⟨st, rfl⟩⟩
      cases st <;> simp only [ChainStep.toInstr, exec, execChDbl, execChAdd, ha] at h <;> cases h <;> rfl
    · cases h

/-- A step of a permutation in progress changes the registers and the position only (R207). -/
theorem sequencerStep_eq (s : State) (rnd ph : Nat) :
    (∃ l a, s.layerAt rnd ph = some l ∧
      s.sequencerStep rnd ph = (s.setRegs (applyLayer s l s.regs)).setActivity a) ∨
    s.sequencerStep rnd ph = s.setActivity .idle := by
  unfold State.sequencerStep
  split
  · exact .inl ⟨_, _, ‹_›, rfl⟩
  · exact .inr rfl

end Sys2Proof.Machine
end

