-- ==== Sys2Proof/Tests/Slice0.lean ====
section
/-! SUPPORT. Tests. Words are written out from the encodings of spec/30_encoding.md (R93 to R105); expected values are
those of spec/95_test_vectors.md, parameter set T23. Then a witness for every obligation that has hypotheses. -/

namespace Sys2Proof.Tests

open Sys2Proof Sys2Proof.Machine

-- WellFormed refuses operands that no field holds (R94, R95, R105)

theorem test_wf_imm : (Instr.csrw 1048576).wellFormed = false ∧ (Instr.csrw 1048575).wellFormed = true := by
  decide
theorem test_wf_index : (Instr.pwr .mds 1048576).wellFormed = false := by decide
theorem test_wf_reg_d : (Instr.fadd 256 0 0).wellFormed = false := by decide
theorem test_wf_reg_a : (Instr.fneg 0 256).wellFormed = false := by decide
theorem test_wf_reg_b : (Instr.fmul 0 0 256).wellFormed = false ∧ (Instr.fmul 255 255 255).wellFormed = true := by
  decide
theorem test_wf_step : (Instr.chDbl 32768).wellFormed = false ∧ (Instr.chAdd 0 32768).wellFormed = false ∧
    (Instr.chAdd 32768 0).wellFormed = false ∧ (Instr.chAdd 32767 32767).wellFormed = true := by decide

-- Every constructor's decoding, from a word written out (R93 to R96, R100, R105)

theorem test_decode_host :
    decode 0x00000000 = .ok .nop ∧ decode 0x00000001 = .ok .rst ∧ decode 0x00004002 = .ok (.csrw 4) ∧
    decode 0x0000B003 = .ok (.csrr 11) ∧ decode 0x00003804 = .ok (.pwr .chain 3) ∧
    decode 0x00008105 = .ok (.prd .mds 8) ∧ decode 0x00000006 = .ok .pcommit ∧
    decode 0x00002008 = .ok (.swr 2) ∧ decode 0x00001009 = .ok (.srd 1) := by decide

theorem test_decode_field :
    decode 0x01000210 = .ok (.fadd 2 0 1) ∧ decode 0x00010211 = .ok (.fsub 2 1 0) ∧
    decode 0x00010212 = .ok (.fneg 2 1) ∧ decode 0x01000213 = .ok (.fmul 2 0 1) ∧
    decode 0x00010214 = .ok (.fsqr 2 1) ∧ decode 0x00010215 = .ok (.fpow 2 1) ∧
    decode 0x00010216 = .ok (.finv 2 1) := by decide

theorem test_decode_sbox :
    decode 0x00000020 = .ok .sbf ∧ decode 0x00002021 = .ok (.sbfe 2) ∧ decode 0x00000022 = .ok .sbi ∧
    decode 0x00002023 = .ok (.sbie 2) := by decide

theorem test_decode_layers :
    decode 0x00001028 = .ok (.arc 1) ∧ decode 0x00001029 = .ok (.arc0 1) ∧ decode 0x0000102A = .ok (.arco 1) ∧
    decode 0x0000202B = .ok (.arco0 2) ∧ decode 0x0000002C = .ok .mds ∧ decode 0x0000002D = .ok .mpr ∧
    decode 0x0000102E = .ok (.spm 1) ∧ decode 0x0000002F = .ok .exl ∧ decode 0x00000030 = .ok .inl ∧
    decode 0x00000038 = .ok .permute := by decide

theorem test_decode_sponge :
    decode 0x00000040 = .ok .spnew ∧ decode 0x00000041 = .ok .absorb ∧ decode 0x00002042 = .ok (.absorbn 2) ∧
    decode 0x00000043 = .ok .squeeze ∧ decode 0x00003044 = .ok (.squeezen 3) ∧
    decode 0x00000245 = .ok (.hash .customFixedLength) ∧ decode 0x00000346 = .ok (.dcap .customVariableLength) ∧
    decode 0x00000147 = .ok (.dpad .variableLength) := by decide

theorem test_decode_steps :
    decodeStep 0x00000002 = .ok (.double 2) ∧ decodeStep 0x80000003 = .ok (.add 3 0) ∧
    decodeStep 0x80018001 = .ok (.add 1 3) ∧ decodeTableWord 32 0x80018007 = some (.chAdd 7 3) ∧
    decodeTableWord 32 0x00000207 = some (.chDbl 519) := by decide

/-- Every space and every strategy code (R61, R96); the words of spaces 0, 1, 4 to 8 are program C's. -/
theorem test_decode_codes :
    ([0x00001004, 0x00001104, 0x00001204, 0x00001304, 0x00001404, 0x00011504, 0x00001604, 0x00000704,
        0x00000804] : List Word).map (fun w => (decode w).toOption)
      = [some (.pwr .rc 1), some (.pwr .mds 1), some (.pwr .ext 1), some (.pwr .diag 1), some (.pwr .mprime 1),
        some (.pwr .sparse 17), some (.pwr .orc 1), some (.pwr .exp 0), some (.pwr .chain 0)] ∧
    ([0x00000046, 0x00000146, 0x00000246, 0x00000346, 0x00000446] : List Word).map (fun w => (decode w).toOption)
      = [some (.dcap .fixedLength), some (.dcap .variableLength), some (.dcap .customFixedLength),
        some (.dcap .customVariableLength), some (.dcap .noPadding)] := by decide

/-- The widest operands of each field (R94, R95). -/
theorem test_decode_widest :
    decode 0xFFFFF028 = .ok (.arc 1048575) ∧ decode 0xFEFDFC10 = .ok (.fadd 252 253 254) := by decide

/-- Illegal words of the spec's examples, each rejected by name (R101, R102, R105). -/
theorem test_illegal_words :
    decode 0x00000107 = .error .reservedOpcode ∧ decode 0xFFFFFFFF = .error .reservedOpcode ∧
    decode 0x00000120 = .error .nonzeroField ∧ decode 0x01010212 = .error .nonzeroField ∧
    decode 0x00000102 = .error .nonzeroField ∧ decode 0x00001046 = .error .nonzeroField ∧
    decode 0x00000547 = .error .reservedStrategy ∧ decode 0x00000904 = .error .reservedSpace ∧
    decodeStep 0x40000000 = .error .malformedStep ∧ decodeStep 0x00008000 = .error .malformedStep := by decide

-- Small states: parameter set T23

/-- A space with values from entry 0 on. -/
def load (s : State) (sp : Space) (vs : List Nat) : State :=
  vs.zipIdx.foldl (fun s p => s.setEntry sp p.2 p.1) s

/-- The registers replaced, and `n` transfers at the port. -/
def ready (s : State) (v : List Nat) (n : Nat) : State := (s.setRegs v).setInput (List.replicate n 0)

/-- The transfers at the port replaced. -/
def send (s : State) (bs : List Beat) : State := s.setInput bs

def mdsT23 : List Nat := [15, 17, 9, 11, 15, 17, 22, 11, 15]
def rcT23 : List Nat := [3, 1, 4, 1, 5, 9, 2, 6, 5, 3, 5, 8]

/-- A committed Rescue engine, RF = 1, with the chain for 9. -/
def rescue : State :=
  { load (load (load State.reset .mds mdsT23) .rc (rcT23.take 9)) .chain [0, 1, 2, 0x80000003] with
    csr := { Csrs.zero with rf := 1, alpha := 5, sboxinv := 2, chainlen := 4, rclen := 3 }
    pvalid := true }

/-- A committed Poseidon engine, RF = 2, RP = 2, with the optimisation bundle and EXP = 9. -/
def poseidon : State :=
  { load (load (load (load (load (load State.reset .mds mdsT23) .rc rcT23) .exp [9])
      .mprime [1, 0, 0, 0, 21, 4, 0, 8, 21])
      .sparse [15, 9, 10, 22, 1, 0, 8, 0, 1, 15, 17, 9, 6, 1, 0, 17, 0, 1])
      .orc [3, 1, 4, 1, 9, 11, 5, 0, 0, 3, 5, 8] with
    csr := { Csrs.zero with
      family := 1, rf := 2, rp := 2, alpha := 5, sboxinv := 1, rclen := 4, ctrl := 1, splen := 2, orclen := 4 }
    pvalid := true }

/-- A committed Poseidon2 engine, RF = 2, RP = 1. -/
def poseidon2 : State :=
  { load (load (load (load State.reset .ext [2, 1, 1, 1, 2, 1, 1, 1, 2]) .diag [2, 3, 4]) .rc (rcT23.take 9))
      .exp [9] with
    csr := { Csrs.zero with family := 2, rf := 2, rp := 1, alpha := 5, sboxinv := 1, rclen := 3 }
    pvalid := true }

/-- The state with PVALID 0 again. -/
def unlocked (s : State) : State := { s with pvalid := false }

/-- The state with a recorded fault InverseOfZero. -/
def faulted (s : State) : State := { s with fault := true, err := 0x25 }

/-- The registers after an instruction that answers a next state. -/
def regsAfter (i : Instr) (s : State) : List Nat :=
  match exec i s with
  | .next t => t.regs
  | .fault _ => []
  | .refused _ => []

/-- STATUS and the newest response after an instruction. -/
def answerAfter (i : Instr) (s : State) : Option (Nat × Response) :=
  match exec i s with
  | .next t => t.output.getLast?.map fun r => (t.statusWord.toNat, r)
  | .fault _ => none
  | .refused _ => none

/-- The state after an instruction that answers a next state. -/
def after (i : Instr) (s : State) : State :=
  match exec i s with
  | .next t => t
  | .fault _ => s
  | .refused _ => s

-- One step each, against spec/95_test_vectors.md

theorem test_nop_faulted : answerAfter .nop (ready (faulted rescue) [0, 7, 0] 1) = some (0x2505, ⟨0x26, []⟩) := by
  decide
theorem test_rst : answerAfter .rst (ready (faulted rescue) [0, 7, 0] 1) = some (0, ⟨0, []⟩) := by decide
theorem test_csrw_locked : answerAfter (.csrw 1) (ready rescue [] 2) = some (0x2305, ⟨0x23, []⟩) := by decide
theorem test_csrr_geom : answerAfter (.csrr 12) (ready rescue [] 1) = some (1, ⟨0, [.csr 0x0000000100020003]⟩) := by
  decide
theorem test_csrr_status : answerAfter (.csrr 11) (ready (faulted rescue) [] 1)
    = some (0x2505, ⟨0, [.csr 0x2505]⟩) := by decide
theorem test_pwr_range : answerAfter (.pwr .mds 9) (ready (unlocked rescue) [] 2) = some (0x2404, ⟨0x24, []⟩) := by
  decide
theorem test_pwr_value : (after (.pwr .mds 4) (send (unlocked rescue) [0, 22])).entry .mds 4 = 22 := by decide
theorem test_prd : answerAfter (.prd .mds 1) (ready rescue [] 1) = some (1, ⟨0, [.elem 17]⟩) := by decide
theorem test_pcommit : answerAfter .pcommit (ready (unlocked rescue) [] 1) = some (1, ⟨0, []⟩) := by decide +kernel
theorem test_pcommit_singular : answerAfter .pcommit
    (ready (load (unlocked rescue) .mds [15, 17, 9, 11, 15, 17, 15, 17, 9]) [] 1)
    = some (0x1004, ⟨0x10, []⟩) := by decide +kernel
theorem test_swr : regsAfter (.swr 2) (send rescue [0, 22]) = [0, 0, 22] := by decide
theorem test_srd : answerAfter (.srd 1) (ready (faulted rescue) [0, 7, 0] 1)
    = some (0x2505, ⟨0, [.elem 7]⟩) := by decide

theorem test_fadd : regsAfter (.fadd 2 0 1) (ready rescue [20, 7, 0] 1) = [20, 7, 4] := by decide
theorem test_fadd_same : regsAfter (.fadd 0 0 0) (ready rescue [20, 7, 0] 1) = [17, 7, 0] := by decide
theorem test_fsub : regsAfter (.fsub 2 1 0) (ready rescue [20, 7, 0] 1) = [20, 7, 10] := by decide
theorem test_fneg : regsAfter (.fneg 2 1) (ready rescue [20, 7, 0] 1) = [20, 7, 16] := by decide
theorem test_fneg_zero : regsAfter (.fneg 1 2) (ready rescue [20, 7, 0] 1) = [20, 0, 0] := by decide
theorem test_fmul : regsAfter (.fmul 2 0 1) (ready rescue [20, 7, 0] 1) = [20, 7, 2] := by decide
theorem test_fsqr : regsAfter (.fsqr 2 1) (ready rescue [20, 7, 0] 1) = [20, 7, 3] := by decide
theorem test_fpow : regsAfter (.fpow 2 1) (ready poseidon [20, 7, 0] 1) = [20, 7, 15] := by decide
theorem test_finv : regsAfter (.finv 2 1) (ready rescue [20, 7, 0] 1) = [20, 7, 10] := by decide
theorem test_finv_zero : answerAfter (.finv 1 0) (ready rescue [0, 7, 0] 1) = some (0x2505, ⟨0x25, []⟩) := by decide

theorem test_sbf : regsAfter .sbf (ready rescue [2, 3, 0] 1) = [9, 13, 0] := by decide
theorem test_sbi : regsAfter .sbi (ready rescue [9, 13, 0] 1) = [2, 3, 0] := by decide
theorem test_sbi_direct : regsAfter .sbi (ready poseidon [9, 13, 0] 1) = [2, 3, 0] := by decide
theorem test_sbfe : regsAfter (.sbfe 0) (ready rescue [7, 3, 0] 1) = [17, 3, 0] := by decide
theorem test_sbie : regsAfter (.sbie 2) (ready rescue [1, 1, 17] 1) = [1, 1, 7] := by decide
theorem test_chain_run : chainScratch 23 [2] rescue.chainWords = [2, 4, 16, 3, 6] := by decide
theorem test_ch_dbl : (after (.chDbl 2) { rescue with activity := .chain [2, 4, 16] }).activity
    = .chain [2, 4, 16, 3] := by decide +kernel
theorem test_ch_add : (after (.chAdd 3 0) { rescue with activity := .chain [2, 4, 16, 3] }).activity
    = .chain [2, 4, 16, 3, 6] := by decide +kernel

theorem test_arc : regsAfter (.arc 1) (ready rescue [1, 2, 3] 1) = [2, 7, 12] := by decide
theorem test_arc_range : answerAfter (.arc 3) (ready rescue [1, 2, 3] 1) = some (0x2405, ⟨0x24, []⟩) := by decide
theorem test_arc0 : regsAfter (.arc0 1) (ready rescue [1, 2, 3] 1) = [2, 2, 3] := by decide
theorem test_arco : regsAfter (.arco 1) (ready poseidon [1, 2, 3] 1) = [2, 11, 14] := by decide
theorem test_arco0 : regsAfter (.arco0 2) (ready poseidon [1, 2, 3] 1) = [6, 2, 3] := by decide
theorem test_mds : regsAfter .mds (ready rescue [1, 2, 3] 1) = [11, 11, 19] := by decide
theorem test_mds_row : regsAfter .mds (ready rescue [0, 0, 1] 1) = [22, 11, 15] := by decide
theorem test_mpr : regsAfter .mpr (ready poseidon [1, 2, 3] 1) = [1, 20, 2] := by decide
theorem test_spm : regsAfter (.spm 0) (ready poseidon [1, 2, 3] 1) = [14, 11, 13] := by decide
theorem test_spm_second : regsAfter (.spm 1) (ready poseidon [1, 2, 3] 1) = [9, 19, 12] := by decide
theorem test_exl : regsAfter .exl (ready poseidon2 [1, 2, 3] 1) = [7, 8, 9] := by decide
theorem test_inl : regsAfter .inl (ready poseidon2 [1, 2, 3] 1) = [7, 10, 15] := by decide
theorem test_permute_rescue : regsAfter .permute (ready rescue [1, 2, 3] 1) = [5, 13, 7] := by decide +kernel
theorem test_permute_poseidon : regsAfter .permute (ready poseidon [1, 2, 3] 1) = [21, 18, 14] := by decide +kernel

theorem test_spnew : regsAfter .spnew (ready rescue [1, 2, 3] 1) = [0, 0, 0] := by decide
theorem test_absorb_fills : regsAfter .absorb { rescue with buf := [some 1, none], input := [0, 1] }
    = [10, 13, 0] := by decide +kernel
theorem test_absorb_range : answerAfter .absorb (send rescue [0, 23]) = some (0x2105, ⟨0x21, []⟩) := by decide
theorem test_absorbn : regsAfter (.absorbn 2) (send rescue [0, 1, 1]) = [10, 13, 0] := by decide +kernel
theorem test_squeeze : answerAfter .squeeze (ready rescue [10, 13, 0] 1) = some (0x10003, ⟨0, [.elem 10]⟩) := by
  decide
theorem test_squeeze_padding : answerAfter .squeeze { ready rescue [0, 0, 0] 1 with buf := [some 1, none] }
    = some (0x10001, ⟨1, []⟩) := by decide
theorem test_squeezen : answerAfter (.squeezen 3) (ready rescue [0, 0, 0] 1)
    = some (0x10003, ⟨0, [.elem 0, .elem 0, .elem 12]⟩) := by decide +kernel
theorem test_hash : answerAfter (.hash .customFixedLength)
    { rescue with csr := { rescue.csr with hlen := 2 }, input := [0, 1, 1] }
    = some (3, ⟨0, [.elem 3, .elem 13]⟩) := by decide +kernel
theorem test_hash_variable : answerAfter (.hash .variableLength)
    { rescue with csr := { rescue.csr with hlen := 3 }, input := [0, 1, 2, 3] }
    = some (3, ⟨0, [.elem 1, .elem 16]⟩) := by decide +kernel
theorem test_dcap : answerAfter (.dcap .fixedLength)
    { rescue with csr := { rescue.csr with hlen := 5 }, input := [0] }
    = some (1, ⟨0, [.csr 1, .elem 8]⟩) := by decide
theorem test_dpad : answerAfter (.dpad .variableLength)
    { rescue with csr := { rescue.csr with hlen := 5 }, input := [0] }
    = some (1, ⟨0, [.csr 1, .elem 1]⟩) := by decide
theorem test_dpad_signal : answerAfter (.dpad .customVariableLength)
    { rescue with csr := { rescue.csr with hlen := 5 }, input := [0] } = some (1, ⟨2, []⟩) := by decide

/-- Batch inversion and the inverse exponent (spec/95_test_vectors.md section 9). -/
theorem test_host_side : batchInverse 23 [3, 0, 5, 7] = [8, 0, 14, 10] ∧ alphaInverse 23 = some 9 := by decide +kernel

/-- At `P = 3` the exponent is 1, the one value in the range; at `P = 2` the range is empty (R290, log 18). -/
theorem test_alpha_inverse_least : alphaInverse 3 = some 1 ∧ alphaInverse 2 = none := by decide

/-- The MDS of T23 is the Cauchy matrix of these nodes (spec/95_test_vectors.md section 1); a repeated node, or one
not below P, gives no matrix (R288). -/
theorem test_cauchy : cauchyMatrix 23 3 [1, 2, 3] [4, 5, 6] = some [[15, 17, 9], [11, 15, 17], [22, 11, 15]] ∧
    cauchyMatrix 23 3 [1, 2, 3] [4, 5, 1] = none ∧ cauchyMatrix 23 3 [1, 2, 23] [4, 5, 6] = none := by
  decide +kernel

/-- A block smaller than what stands below and right of it leaves the rest (R292). -/
theorem test_inject : injectMat 3 3 [[1, 2, 3], [4, 5, 6], [7, 8, 9]] 0 2 1 1 [[10], [11]]
    = [[1, 10, 3], [4, 11, 6], [7, 8, 9]] := by decide

/-- A source whose nonce `n` gives the integer `11 * n`: nonces 0 and 23 give zero residues and are passed over. -/
def toySource : ConstantSource where
  xof32 := id
  tag := []
  fixedPrefix := []
  enc := fun n => [BitVec.ofNat 8 n]
  int := fun bs => 11 * (bs.headD 0).toNat

/-- Nonces from 0, zero residues discarded, RescuePrime with `RF = 1`, `W = 2` (R284); with four tries only three
elements are there. -/
theorem test_generate : generateVectors toySource 23 2 3 1 0 5 = some [[11, 22], [10, 21]] ∧
    generateVectors toySource 23 2 3 1 0 4 = none := by decide

/-- The layers outside the rounds stand in the round they precede (log 3). -/
theorem test_rounds : rescueRounds 1 = [[.arc 0, .sbi, .mds, .arc 1], [.sbf, .mds, .arc 2]] ∧
    poseidonOptRounds 2 1 = [[.arco 0, .sbf, .mds], [.arco 1, .mpr, .sbfe 0, .spm 0], [.arco 2, .sbf, .mds]] := by
  decide

/-- The bundle of T23 is consistent. -/
theorem test_bundle : poseidon.bundleConsistent = true := by decide +kernel

-- Witnesses: for each obligation with hypotheses, a state and operands that meet them all, and for each clause a
-- value at a boundary of its range

/-- The state about to run the command word `w`, with `n` zero transfers after it. -/
def facing (s : State) (w : Word) (n : Nat) : State := s.setInput (wordBeat w :: List.replicate n 0)

/-- The command word is what the engine fetches. -/
theorem fetchWord_facing (s : State) (w : Word) (n : Nat) : (facing s w n).fetchWord = some w := by
  simp [facing, State.fetchWord, State.setInput, wordBeat]

/-- A state inside a chain run. -/
def running (s : State) (t : List Nat) : State := s.setActivity (.chain t)

/-- The state with HLEN replaced. -/
def withHlen (s : State) (n : BitVec 64) : State := s.setCsr { s.csr with hlen := n }

/-- The state in Squeezing mode with the given buffer. -/
def squeezing (s : State) (b : List (Option Nat)) : State := { s with mode := .squeezing, buf := b }

/-- The state in Absorbing mode with the given buffer. -/
def absorbing (s : State) (b : List (Option Nat)) : State := { s with mode := .absorbing, buf := b }

theorem test_geometry_valid : GeometryValid Config.geometry :=
  ⟨by norm_num [Config.geometry], by decide, by decide, by decide, by decide, by decide, by decide, by decide,
    by decide, by decide⟩

/-- The buffer rule from what `decide` can check. -/
theorem bufOk_of_checks {s : State} (hl : s.buf.length = s.geom.R) (hv : ∀ e ∈ s.buf, e.getD 0 < s.geom.P)
    (hm : if s.mode = .absorbing then
        s.bufCount < s.geom.R ∧ ∀ i < s.geom.R, (s.buf.getD i none).isSome = decide (i < s.bufCount)
      else ∀ i < s.geom.R, (s.buf.getD i none).isSome = decide (s.geom.R - s.bufCount ≤ i)) : BufOk s := by
  refine ⟨hl, fun v h => hv _ h, ?_⟩
  cases h : s.mode <;> simp only [h, if_true, reduceCtorEq, if_false] at hm ⊢
  · exact ⟨hm.1, fun i hi => by rw [hm.2 i hi, decide_eq_true_iff]⟩
  · exact fun i hi => by rw [hm i hi, decide_eq_true_iff]

theorem test_inv_rescue : Inv rescue :=
  ⟨test_geometry_valid, by decide, bufOk_of_checks rfl (by decide) (by decide), fun sp => by cases sp <;> (unfold SpaceOk; decide +kernel),
    ⟨fun _ => rfl, fun h => absurd h (by decide)⟩, fun _ => by decide +kernel, trivial⟩

theorem test_inv_poseidon : Inv poseidon :=
  ⟨test_geometry_valid, by decide, bufOk_of_checks rfl (by decide) (by decide), fun sp => by cases sp <;> (unfold SpaceOk; decide +kernel),
    ⟨fun _ => rfl, fun h => absurd h (by decide)⟩, fun _ => by decide +kernel, trivial⟩

/-- The invariant does not look at the ports. -/
theorem inv_setInput {s : State} (h : Inv s) (l : List Beat) : Inv (s.setInput l) :=
  ⟨h.geometry, h.regs, h.buf, h.spaces, h.fault, h.committed, h.activity⟩

/-- The invariant holds inside a chain run on canonical entries. -/
theorem inv_running {s : State} (h : Inv s) (t : List Nat) (h1 : t ≠ []) (h2 : ∀ x ∈ t, x < s.geom.P) :
    Inv (running s t) := ⟨h.geometry, h.regs, h.buf, h.spaces, h.fault, h.committed, h1, h2⟩

/-- The invariant does not look at HLEN. -/
theorem inv_withHlen {s : State} (h : Inv s) (n : BitVec 64) : Inv (withHlen s n) :=
  ⟨h.geometry, h.regs, h.buf, h.spaces, h.fault, h.committed, h.activity⟩

/-- The invariant in Squeezing mode, for the buffers the witnesses use. -/
theorem inv_squeezing {s : State} (h : Inv s) (b : List (Option Nat)) (hb : BufOk (squeezing s b)) :
    Inv (squeezing s b) := ⟨h.geometry, h.regs, hb, h.spaces, h.fault, h.committed, h.activity⟩

/-- The invariant in Absorbing mode, for the buffers the witnesses use. -/
theorem inv_absorbing {s : State} (h : Inv s) (b : List (Option Nat)) (hb : BufOk (absorbing s b)) :
    Inv (absorbing s b) := ⟨h.geometry, h.regs, hb, h.spaces, h.fault, h.committed, h.activity⟩

theorem witness_DecodeEncodeCommands : (Instr.spm 1048575).wellFormed = true ∧
    (Instr.spm 1048575).isCommand = true := by decide
theorem witness_DecodeEncodeChainSteps : (ChainStep.add 32767 0).toInstr.wellFormed = true := by decide
theorem witness_LegalWordsHaveOneMeaning : decode 0xFFFFF042 = .ok (.absorbn 1048575) ∧
    decodeStep 0xBFFFFFFF = .ok (.add 32767 32767) := by decide
theorem witness_IllegalWords :
    (∀ w n, (facing rescue w n).activity = .idle ∧ (facing rescue w n).fetchWord = some w) ∧
    (∀ w n, (facing (faulted rescue) w n).activity = .idle ∧ (facing (faulted rescue) w n).fetchWord = some w) ∧
    ([0x107, 0x100, 0x102, 0x904, 0x01000012, 0x545, 0x1046] : List Word).map (fun w => (decode w).toOption)
      = List.replicate 7 none ∧
    decode 0x446 = .ok (.dcap .noPadding) ∧ decode 0x804 = .ok (.pwr .chain 0) :=
  ⟨fun w n => ⟨rfl, fetchWord_facing rescue w n⟩, fun w n => ⟨rfl, fetchWord_facing (faulted rescue) w n⟩,
    by decide⟩
theorem witness_StepRunsTheInstruction :
    ((facing rescue 0x2C 0).activity = .idle ∧ (facing rescue 0x2C 0).fetchWord = some 0x2C ∧
      decode 0x2C = .ok .mds) ∧
    ((Instr.absorb).wellFormed = true ∧ (Instr.absorb).isCommand = true ∧
      (facing rescue 0x41 1).input = wordBeat (encode .absorb) :: [0]) ∧
    (State.reset.activity = .idle ∧ State.reset.input = []) ∧
    ((running rescue [2]).activity = .chain [2] ∧ [2].length - 1 < (running rescue [2]).chainLen ∧
      decodeStep (BitVec.ofNat 32 ((running rescue [2]).entry .chain 0)) = .ok (.double 0)) ∧
    ([2, 4, 16, 3].length - 1 < (running rescue [2, 4, 16, 3]).chainLen ∧
      decodeStep (BitVec.ofNat 32 ((running rescue [2, 4, 16, 3]).entry .chain 3)) = .ok (.add 3 0)) ∧
    (running rescue [2, 4, 16, 3, 6]).chainLen ≤ [2, 4, 16, 3, 6].length - 1 := by decide +kernel
theorem witness_FaultGate : (ready (faulted rescue) [] 2).fault = true ∧ (Instr.absorb).isCommand = true ∧
    1 + payloadBeats (ready (faulted rescue) [] 2) .absorb ≤ (ready (faulted rescue) [] 2).input.length ∧
    csrOfNumber 12 = some .geom ∧ 8 < entryCount rescue.geom .mds ∧ 2 < rescue.geom.W := by decide +kernel
theorem witness_EveryOutcomeIsPrecise : (Instr.absorb).isCommand = true ∧
    (ready rescue [] 1).input.length < 1 + payloadBeats (ready rescue [] 1) .absorb ∧
    Ready (ready rescue [] 2) (payloadBeats (ready rescue [] 2) .absorb) := by decide +kernel
theorem witness_OnlyRstLeavesTheFault :
    ((facing (faulted rescue) 1 0).fault = true ∧ ∃ t, step (facing (faulted rescue) 1 0) = .next t) ∧
    ((facing (faulted rescue) 0 0).fault = true ∧ ∃ t, step (facing (faulted rescue) 0 0) = .next t) :=
  ⟨⟨rfl, _, rfl⟩, rfl, _, rfl⟩
theorem witness_CommittedParametersAreFrozen :
    (facing rescue 0xA002 1).pvalid = true ∧ ∃ t, step (facing rescue 0xA002 1) = .next t := ⟨rfl, _, rfl⟩
theorem witness_PvalidOnlyByCommit : (facing (unlocked rescue) 6 0).pvalid = false ∧
    ∃ t, step (facing (unlocked rescue) 6 0) = .next t ∧ t.pvalid = true := by
  refine ⟨rfl, ((facing (unlocked rescue) 6 0).consume 1).setPvalid.respond .ok [], ?_, rfl⟩
  rw [show step (facing (unlocked rescue) 6 0) = exec .pcommit (facing (unlocked rescue) 6 0) from rfl]
  have hc : ((facing (unlocked rescue) 6 0).consume 1).commitChecks = true := by decide +kernel
  have hk : ((facing (unlocked rescue) 6 0).consume 1).k1 = true := by decide +kernel
  show execPcommit _ = _
  refine runCommand_ok (g := true) (s := facing (unlocked rescue) 6 0) (n := 0) (by decide) rfl ?_
  simp only [hc, hk, show ((facing (unlocked rescue) 6 0).consume 1).pvalid = false from rfl]
  rfl
theorem witness_StepKeepsInvariant : Inv (facing rescue 0x38 0) ∧ ∃ t, step (facing rescue 0x38 0) = .next t :=
  ⟨inv_setInput test_inv_rescue _, _, rfl⟩
theorem witness_ResetHasInvariant : GeometryValid Config.geometry := test_geometry_valid
theorem witness_EngineNeverStops : State.reset.activity = .idle ∧
    (rescue.setActivity (.permuting 2 3)).activity = .permuting 2 3 ∧
    (running rescue [22]).activity = .chain [22] ∧ Inv (running rescue [22]) ∧ (running rescue [22]).pvalid = true ∧
    (running rescue [22]).csr.sboxinv = 2 :=
  ⟨rfl, rfl, rfl, inv_running test_inv_rescue _ (by decide) (by decide), rfl, rfl⟩
theorem witness_ResetState : csrOfNumber 0 = some .family ∧ csrOfNumber 10 = some .hlen ∧
    (ready rescue [] 1).geom = Config.geometry ∧ 1 ≤ (ready rescue [] 1).input.length := by decide
theorem witness_NopOnlyAnswers : Ready (ready rescue [] 1) 0 := by decide
theorem witness_CsrwWritesOneRegister :
    (Ready (send (unlocked rescue) [0, 3]) 1 ∧ (unlocked rescue).pvalid = false ∧
      (((send (unlocked rescue) [0, 3]).payload 1).headD 0).toNat < 2 ^ 2) ∧
    (Ready (send rescue [0, 0xFFFFFFFFFFFFFFFF]) 1 ∧
      (((send rescue [0, 0xFFFFFFFFFFFFFFFF]).payload 1).headD 0).toNat < 2 ^ 64) ∧
    (Ready (send rescue [0, 0]) 1 ∧ rescue.pvalid = true) ∧
    (2 ^ 16 ≤ (((send (unlocked rescue) [0, 65536]).payload 1).headD 0).toNat) := by decide
theorem witness_CsrrReadsOneRegister : 1 ≤ (ready rescue [] 1).input.length ∧ csrOfNumber 12 = some .geom ∧
    csrOfNumber 13 = none ∧ csrTable (ready rescue [] 1) = [0, 1, 0, 5, 2, 4, 3, 0, 0, 0, 0, 1, 0x0000000100020003] := by
  decide
theorem witness_SpaceFormats : (2 ^ 256 - 1 < 2 ^ (64 * 4)) ∧ 0 < 2 ^ (64 * 0) ∧
    (Space.orc ∈ [Space.rc, .mds, .ext, .diag, .mprime, .sparse, .orc]) ∧
    entryOfBeats .orc [1, 2] = 2 ^ 65 + 1 ∧ entryOfBeats .chain [0xFFFFFFFF80000003] = 0x80000003 := by decide
theorem witness_PwrWritesOneEntry :
    ((unlocked rescue).params.get .mds).wf ∧ Ready (send (unlocked rescue) [0, 22]) 1 ∧
    entryBeats rescue.geom .mds = 1 ∧ 8 < entryCount rescue.geom .mds ∧ entryCount rescue.geom .mds ≤ 9 ∧
    entryOfBeats .mds ((send (unlocked rescue) [0, 22]).payload 1) < rescue.geom.P ∧
    rescue.geom.P ≤ entryOfBeats .mds ((send (unlocked rescue) [0, 23]).payload 1) ∧
    (unlocked rescue).pvalid = false ∧ rescue.pvalid = true := by decide +kernel
theorem witness_PrdReadsOneEntry : 1 ≤ (ready rescue [] 1).input.length ∧ 511 < entryCount rescue.geom .chain ∧
    entryCount rescue.geom .chain ≤ 512 := by decide
theorem witness_PcommitOutcomes :
    (Ready (ready rescue [] 1) 0 ∧ rescue.pvalid = true) ∧
    (Ready (ready State.reset [] 1) 0 ∧ State.reset.pvalid = false ∧ State.reset.csr.alpha.toNat ≠ 5) ∧
    ((unlocked rescue).csr.alpha.toNat = 5 ∧ (unlocked rescue).commitChecks = true) ∧
    ((load (unlocked rescue) .mds [0, 0, 0]).csr.alpha.toNat = 5 ∧
      (load (unlocked rescue) .mds [0, 0, 0]).commitChecks = false) := by decide +kernel
theorem witness_CommitChecksMean : GeometryValid rescue.geom ∧ rescue.commitChecks = true ∧
    poseidon.commitChecks = true ∧ poseidon2.commitChecks = true ∧ State.reset.commitChecks = false :=
  ⟨test_geometry_valid, by decide +kernel⟩
theorem witness_SwrWritesOneRegister : Ready (send rescue [0, 22]) rescue.geom.limbs ∧ 2 < rescue.geom.W ∧
    rescue.geom.W ≤ 3 ∧ elemOfBeats ((send rescue [0, 22]).payload 1) < rescue.geom.P ∧
    rescue.geom.P ≤ elemOfBeats ((send rescue [0, 23]).payload 1) := by decide +kernel
theorem witness_SrdReadsOneRegister : 1 ≤ (ready rescue [] 1).input.length ∧ 2 < rescue.geom.W ∧
    rescue.geom.W ≤ 3 := by decide
theorem witness_FieldCommands : Ready (ready rescue [20, 7, 0] 1) 0 ∧ 2 < rescue.geom.W ∧ 0 < rescue.geom.W := by
  decide
theorem witness_FpowRaisesToExp : 1 < poseidon.geom.P ∧ Ready (ready poseidon [20, 7, 0] 1) 0 ∧
    2 < poseidon.geom.W ∧ poseidon.pvalid = true ∧ (unlocked poseidon).pvalid = false := by decide
theorem witness_FinvInverts : (ready rescue [0, 7, 0] 1).geom.P.Prime ∧ Ready (ready rescue [0, 7, 0] 1) 0 ∧
    2 < rescue.geom.W ∧ (ready rescue [0, 7, 0] 1).reg 1 < 23 ∧ (ready rescue [0, 7, 0] 1).reg 1 ≠ 0 ∧
    (ready rescue [0, 7, 0] 1).reg 0 = 0 := ⟨test_geometry_valid.prime, by decide⟩
theorem witness_RegisterIndexFaults : Ready (ready rescue [20, 7, 0] 1) 0 ∧ rescue.geom.W ≤ 3 := by decide
theorem witness_SbfIsTheFifthPower : Ready (ready rescue [2, 3, 0] 1) 0 ∧ (ready rescue [2, 3, 0] 1).pvalid = true ∧
    2 < rescue.geom.W := by decide
theorem witness_SbiIsTheInversePower :
    (Inv (facing rescue 0x22 0) ∧ Ready (facing rescue 0x22 0) 0 ∧ rescue.pvalid = true ∧ rescue.csr.sboxinv = 2) ∧
    (Inv (facing poseidon 0x22 0) ∧ Ready (facing poseidon 0x22 0) 0 ∧ poseidon.pvalid = true ∧
      poseidon.csr.sboxinv = 1) ∧ 2 < rescue.geom.W :=
  ⟨⟨inv_setInput test_inv_rescue _, by decide, rfl, rfl⟩, ⟨inv_setInput test_inv_poseidon _, by decide, rfl, rfl⟩,
    by decide⟩
theorem witness_SboxRoundTrip : Inv (facing rescue 0x20 1) ∧ rescue.pvalid = true ∧ 22 < rescue.geom.P ∧
    Ready (facing rescue 0x20 1) 1 := ⟨inv_setInput test_inv_rescue _, by decide⟩
theorem witness_ChainStepsAppend : (running rescue [2, 4, 16]).activity = .chain [2, 4, 16] ∧
    2 < [2, 4, 16].length ∧ 0 < [2, 4, 16].length ∧ ∀ t, rescue.activity ≠ .chain t :=
  ⟨rfl, by decide, by decide, fun _ h => nomatch h⟩
theorem witness_ChainEntriesArePowers : 1 < 23 ∧ 22 < 23 ∧ chainValidFrom 0 rescue.chainWords = true ∧
    decodeStep (rescue.chainWords.getD 0 0) = .ok (.double 0) ∧ 3 < rescue.chainWords.length ∧
    decodeStep (rescue.chainWords.getD 3 0) = .ok (.add 3 0) := by decide +kernel
theorem witness_SteppingRunsTheChain : 22 < rescue.geom.P ∧ (running rescue [22]).activity = .chain [22] ∧
    chainValidFrom 0 (running rescue [22]).chainWords = true := by decide +kernel
theorem witness_RoundConstantCommands :
    (Ready (ready rescue [1, 2, 3] 1) 0 ∧ (ready rescue [1, 2, 3] 1).regs.length = rescue.geom.W ∧
      rescue.pvalid = true ∧ 2 < rescue.geom.maxRc ∧ 2 < rescue.rcLen) ∧
    (Ready (ready poseidon [1, 2, 3] 1) 0 ∧ poseidon.pvalid = true ∧ 3 < poseidon.orcLen) := by decide
theorem witness_DenseLayerCommands : Ready (ready poseidon [1, 2, 3] 1) 0 ∧ poseidon.pvalid = true := by decide
theorem witness_SpmSparseProduct : Ready (ready poseidon [1, 2, 3] 1) 0 ∧ poseidon.pvalid = true ∧
    1 < poseidon.geom.maxRp ∧ 1 < poseidon.spLen := by decide
theorem witness_InlInternalLayer : (ready poseidon2 [1, 2, 3] 1).regs.length = poseidon2.geom.W ∧
    Ready (ready poseidon2 [1, 2, 3] 1) 0 ∧ poseidon2.pvalid = true := by decide
theorem witness_LayerCheckOrder : Ready (ready rescue [] 1) 0 ∧ (unlocked rescue).pvalid = false ∧
    rescue.pvalid = true ∧ rescue.geom.W ≤ 3 ∧ 2 < rescue.geom.W ∧ rescue.geom.maxRc ≤ 256 ∧
    255 < rescue.geom.maxRc ∧ rescue.geom.maxRp ≤ 128 ∧ 127 < rescue.geom.maxRp ∧ rescue.rcLen ≤ 3 ∧
    poseidon.orcLen ≤ 4 ∧ poseidon.spLen ≤ 2 := by decide
theorem witness_SparseProductIsVecmat : ∀ i j, 1 ≤ i → i < 3 → 1 ≤ j → j < 3 →
    (poseidon.sparseMatrix 1).entry i j = if i = j then 1 else 0 := by
  have h : ∀ i < 3, ∀ j < 3, 1 ≤ i → 1 ≤ j → (poseidon.sparseMatrix 1).entry i j = if i = j then 1 else 0 := by
    decide +kernel
  exact fun i j h1 h2 h3 h4 => h i h2 j h4 h1 h3
theorem witness_InternalLayerIsVecmat : [1, 2, 3].length = 3 ∧ (poseidon2.vector .diag 0).length = 3 := by decide
theorem witness_PermuteAppliesItsExpansion : Ready (ready poseidon [1, 2, 3] 1) 0 ∧ poseidon.pvalid = true ∧
    Even poseidon.rf ∧ 1 ≤ poseidon.rp := by decide
theorem witness_PermuteEqualsItsLayerCommands :
    let s := send rescue (rescue.expansion.map fun l => wordBeat (encode l.command))
    Inv s ∧ s.pvalid = true ∧ s.fault = false ∧ s.activity = .idle ∧
      s.input = s.expansion.map (fun l => wordBeat (encode l.command)) ++ [] :=
  ⟨inv_setInput test_inv_rescue _, rfl, rfl, rfl, (List.append_nil _).symm⟩
theorem witness_SequencerRunsPermute : (rescue.setActivity (.permuting 0 0)).activity = .permuting 0 0 := rfl
theorem witness_PoseidonOptEqualsPoseidon : Inv poseidon ∧ poseidon.pvalid = true ∧ poseidon.csr.family = 1 ∧
    poseidon.bundleConsistent = true ∧ IsVector poseidon.geom [22, 0, 1] :=
  ⟨test_inv_poseidon, by decide +kernel⟩
theorem witness_PermuteIsAFunction :
    let s := ready rescue [1, 2, 3] 1
    let u := ready (withHlen (squeezing rescue [none, some 4]) 7) [1, 2, 3] 2
    s.geom = u.geom ∧ s.regs = u.regs ∧ s.params = u.params ∧ s.csr = { u.csr with hlen := s.csr.hlen } ∧
      Ready s 0 ∧ Ready u 0 ∧ s.pvalid = true ∧ u.pvalid = true := by decide +kernel
theorem send_rawPermutation (bs : List Beat) (hb : bs = rawPermutation rescue.geom [22, 0, 1]) :
    (Inv (send rescue bs) ∧ (send rescue bs).pvalid = true ∧ (send rescue bs).fault = false ∧
      (send rescue bs).activity = .idle) ∧ IsVector rescue.geom [22, 0, 1] ∧
      (send rescue bs).input = rawPermutation rescue.geom [22, 0, 1] ++ [] :=
  ⟨⟨inv_setInput test_inv_rescue _, rfl, rfl, rfl⟩, by decide, by rw [List.append_nil]; exact hb⟩
/-- The transfers of a raw permutation call. -/
def rawCall : List Beat := rawPermutation rescue.geom [22, 0, 1]
theorem witness_RawPermutationCall :
    (Inv (send rescue rawCall) ∧ (send rescue rawCall).pvalid = true ∧ (send rescue rawCall).fault = false ∧
      (send rescue rawCall).activity = .idle) ∧ IsVector rescue.geom [22, 0, 1] ∧
      (send rescue rawCall).input = rawPermutation rescue.geom [22, 0, 1] ++ [] := send_rawPermutation _ rfl
theorem witness_PermuteIsABijection : (Inv rescue ∧ rescue.pvalid = true ∧ rescue.csr.family = 0) ∧
    (Inv poseidon ∧ poseidon.pvalid = true ∧ poseidon.csr.family = 1 ∧ poseidon.bundleConsistent = true) ∧
    IsVector rescue.geom [0, 22, 1] :=
  ⟨⟨test_inv_rescue, by decide⟩, ⟨test_inv_poseidon, by decide +kernel⟩, by decide⟩
theorem witness_DcapAnswersTheCapacity : Ready (ready rescue [] 1) 0 := by decide
theorem witness_DpadAnswersThePadding : Ready (ready rescue [] 1) 0 ∧ 1 ≤ rescue.geom.R := by decide
theorem witness_SpnewClearsTheSponge : Ready (ready State.reset [] 1) 0 := by decide
theorem witness_AbsorbTransitions :
    (Inv (send rescue [0, 22]) ∧ Ready (send rescue [0, 22]) rescue.geom.limbs ∧ rescue.pvalid = true ∧
      elemOfBeats ((send rescue [0, 22]).payload 1) < rescue.geom.P ∧ rescue.mode = .absorbing ∧
      rescue.buf.countP Option.isSome + 1 < rescue.geom.R) ∧
    (Inv (absorbing (send rescue [0, 22]) [some 1, none]) ∧ [some 1, none].countP Option.isSome + 1 = rescue.geom.R) ∧
    Inv (squeezing (send rescue [0, 22]) [none, some 7]) :=
  ⟨⟨inv_setInput test_inv_rescue _, by decide +kernel⟩,
    ⟨inv_absorbing (inv_setInput test_inv_rescue _) _ (bufOk_of_checks rfl (by decide) (by decide)), by decide⟩,
    inv_squeezing (inv_setInput test_inv_rescue _) _ (bufOk_of_checks rfl (by decide) (by decide))⟩
theorem witness_AbsorbnEqualsAbsorbs :
    let s := send rescue [0, 1, 22]
    Inv s ∧ s.fault = false ∧ s.pvalid = true ∧ s.activity = .idle ∧ (∀ x ∈ [1, 22], x < s.geom.P) ∧
      s.input = 0 :: ([1, 22].flatMap (beatsOfElem s.geom.limbs) ++ []) :=
  ⟨inv_setInput test_inv_rescue _, by decide +kernel⟩
theorem witness_SqueezeTransitions :
    (Inv (facing rescue 0x43 0) ∧ Ready (facing rescue 0x43 0) 0 ∧ rescue.pvalid = true ∧ rescue.mode = .absorbing ∧
      rescue.buf.countP Option.isSome = 0) ∧
    (Inv (absorbing (facing rescue 0x43 0) [some 1, none]) ∧ 0 < [some 1, none].countP Option.isSome) ∧
    Inv (squeezing (facing rescue 0x43 0) [none, some 7]) ∧ Inv (squeezing (facing rescue 0x43 0) [none, none]) :=
  ⟨⟨inv_setInput test_inv_rescue _, by decide⟩,
    ⟨inv_absorbing (inv_setInput test_inv_rescue _) _ (bufOk_of_checks rfl (by decide) (by decide)), by decide⟩,
    inv_squeezing (inv_setInput test_inv_rescue _) _ (bufOk_of_checks rfl (by decide) (by decide)),
    inv_squeezing (inv_setInput test_inv_rescue _) _ (bufOk_of_checks rfl (by decide) (by decide))⟩
theorem witness_SqueezenEqualsSqueezes :
    (Inv (facing rescue 0x3044 0) ∧ Ready (facing rescue 0x3044 0) 0 ∧ rescue.pvalid = true ∧
      rescue.activity = .idle ∧ ¬(rescue.mode = .absorbing ∧ 0 < rescue.buf.countP Option.isSome)) ∧
    (Inv (absorbing (facing rescue 0x1044 0) [some 1, none]) ∧ 0 < [some 1, none].countP Option.isSome) :=
  ⟨⟨inv_setInput test_inv_rescue _, by decide⟩,
    inv_absorbing (inv_setInput test_inv_rescue _) _ (bufOk_of_checks rfl (by decide) (by decide)), by decide⟩
theorem witness_HashIsTheBlockSponge :
    let s := withHlen (send rescue [0, 1, 2, 3]) 3
    Inv s ∧ Ready s (s.hLen * s.geom.limbs) ∧ s.pvalid = true ∧
      paddingValues s.geom.R .variableLength s.hLen = some [1] ∧
      ∀ x ∈ elemsOfBeats s.geom.limbs s.hLen (s.payload (s.hLen * s.geom.limbs)), x < s.geom.P :=
  ⟨inv_withHlen (inv_setInput test_inv_rescue _) _, by decide +kernel⟩
theorem witness_SpongeCheckOrder :
    ((send rescue [0, 1, 23]).fault = false ∧ 1 + 2 * rescue.geom.limbs ≤ (send rescue [0, 1, 23]).input.length ∧
      elemsOfBeats rescue.geom.limbs 2 ((send rescue [0, 1, 23]).payload 2) = [1, 23] ∧ rescue.geom.P ≤ 23) ∧
    (elemsOfBeats rescue.geom.limbs 2 ((send rescue [0, 1, 22]).payload 2) = [1, 22] ∧ 22 < rescue.geom.P) ∧
    (unlocked rescue).pvalid = false ∧ Ready (ready (unlocked rescue) [] 1) 0 ∧
    (withHlen rescue 1).hLen % rescue.geom.R ≠ 0 := by decide +kernel
theorem witness_HostConstruction : Nat.Prime 23 ∧ (∀ x ∈ [3, 0, 22], x < 23) ∧ 2 < 23 ∧ Nat.Coprime 5 (23 - 1) ∧
    1 ≤ 1 ∧ 2 * (1 : Nat).log2 < 2 ^ 15 := ⟨by norm_num, by decide⟩

end Sys2Proof.Tests
end

/-! PROOF of O12. The invariant is cut in two halves. The control half (FAULT and ERR, PVALID, the command in progress)
follows from the shell and frame that `exec_shell` gives every command. The data half (what the registers, the buffer
and the spaces hold) needs each command's body, and goes through one rule for each operation on the state. -/

namespace Sys2Proof.Machine

variable {s t : State}

-- The two halves of the invariant

/-- What the engine holds is what its places can hold: the half of `Inv` that says which values stand in the
registers, the buffer and the parameter spaces of a valid geometry. -/
structure DataOk (s : State) : Prop where
  geometry : GeometryValid s.geom
  regs : IsVector s.geom s.regs
  buf : BufOk s
  spaces : ∀ sp, SpaceOk s sp

/-- How the engine stands: the half of `Inv` about the status flags and the command in progress, which
`BodyFrame` speaks of. -/
structure ControlOk (s : State) : Prop where
  fault : FaultOk s
  committed : s.pvalid = true → s.k1 = true ∧ s.commitChecks = true
  activity : ActivityOk s

theorem inv_iff : Inv s ↔ DataOk s ∧ ControlOk s :=
  ⟨fun h => ⟨⟨h.geometry, h.regs, h.buf, h.spaces⟩, ⟨h.fault, h.committed, h.activity⟩⟩,
    fun ⟨hd, hc⟩ => ⟨hd.geometry, hd.regs, hd.buf, hd.spaces, hc.fault, hc.committed, hc.activity⟩⟩

-- What each half looks at

theorem DataOk.one_lt (h : DataOk s) : 1 < s.geom.P := h.geometry.prime.one_lt

theorem DataOk.pos (h : DataOk s) : 0 < s.geom.P := h.geometry.prime.pos

/-- The data half looks at the geometry, the sponge triple and the store only. -/
theorem DataOk.of_fields (h : DataOk s) (hg : t.geom = s.geom := by simp) (hr : t.regs = s.regs := by simp)
    (hm : t.mode = s.mode := by simp) (hb : t.buf = s.buf := by simp) (hp : t.params = s.params := by simp) :
    DataOk t := by
  cases s; cases t
  subst hg hr hm hb hp
  exact ⟨h.geometry, h.regs, h.buf, h.spaces⟩

/-- The commit checks look at the geometry, the store and the lockable control registers only (R326, R330). -/
theorem commit_congr (hg : t.geom = s.geom) (hp : t.params = s.params)
    (hc : t.csr = { s.csr with hlen := t.csr.hlen }) : t.k1 = s.k1 ∧ t.commitChecks = s.commitChecks := by
  obtain ⟨_, _, _, _, _, _, _, c, _, _, _, _⟩ := t
  simp only at hg hp hc
  generalize c.hlen = n at hc
  subst hg hp hc
  exact ⟨rfl, rfl⟩

-- The control half: the shell and the frame decide it (R354, R356)

/-- The control half looks at nothing but what `BodyFrame` keeps. -/
theorem ControlOk.of_frame (h : ControlOk s) (hg : t.geom = s.geom)
    (hf : t.fault = s.fault ∧ t.err = s.err ∧ t.activity = s.activity) (hp : t.pvalid = s.pvalid)
    (hl : s.pvalid = true → t.params = s.params ∧ t.csr = { s.csr with hlen := t.csr.hlen }) : ControlOk t := by
  obtain ⟨hfault, herr, hact⟩ := hf
  refine ⟨?_, fun hv => ?_, ?_⟩
  · simpa only [FaultOk, hfault, herr] using h.fault
  · have hs : s.pvalid = true := hp ▸ hv
    obtain ⟨hparams, hcsr⟩ := hl hs
    obtain ⟨hk, hc⟩ := commit_congr hg hparams hcsr
    rw [hk, hc]; exact h.committed hs
  · simpa only [ActivityOk, hact, hg] using h.activity

/-- The ports are outside the invariant. -/
theorem ControlOk.consume (h : ControlOk s) (n : Nat) : ControlOk (s.consume n) :=
  ⟨h.fault, h.committed, h.activity⟩

theorem ControlOk.respond (h : ControlOk s) (c : Code) (items : List Item) : ControlOk (s.respond c items) :=
  ⟨h.fault, h.committed, h.activity⟩

/-- A fault raised on a healthy engine is one that can be the first; on a faulted one any code may be raised
(R356, R357). -/
theorem ControlOk.raise (h : ControlOk s) {c : Code}
    (hc : s.fault = false → c ≠ .ok ∧ c ≠ .faulted ∧ c.isSignal = false) : ControlOk (s.raise c) := by
  refine ⟨⟨by simp, fun _ => ?_⟩, ?_, ?_⟩
  · rw [State.raise_err]
    cases hf : s.fault with
    | true => exact h.fault.2 hf
    | false =>
      obtain ⟨hok, hfaulted, hsignal⟩ := hc hf
      exact ⟨c, hok, hfaulted, hsignal, rfl⟩
  · intro hv
    obtain ⟨hk, hcc⟩ := commit_congr (s := s) (t := s.raise c) (by simp) (by simp) (by simp)
    rw [hk, hcc]; exact h.committed (by simpa using hv)
  · simpa only [ActivityOk, State.raise_activity, State.raise_geom] using h.activity

/-- A command's own checks neither end in ok nor in the gate's code. -/
theorem ne_of_mem_errorCodes {c : Code} (h : c ∈ errorCodes) : c ≠ .ok ∧ c ≠ .faulted :=
  ⟨by rintro rfl; exact absurd h (by decide), by rintro rfl; exact absurd h (by decide)⟩

theorem ControlOk.report (h : ControlOk s) {c : Code} (hc : c ∈ errorCodes) : ControlOk (s.report c) := by
  obtain ⟨hok, hfaulted⟩ := ne_of_mem_errorCodes hc
  cases hs : c.isSignal with
  | true => simpa [State.report, hs] using h.respond c []
  | false => rw [report_of_not_signal _ hs]; exact h.raise fun _ => ⟨hok, hfaulted, hs⟩

theorem controlOk_resetArch (s : State) : ControlOk s.resetArch :=
  ⟨⟨fun _ => rfl, nofun⟩, nofun, trivial⟩

/-- PCOMMIT sets PVALID on an engine that has passed the checks (R326). -/
theorem ControlOk.setPvalid (h : ControlOk s) (hk : s.k1 = true) (hc : s.commitChecks = true) :
    ControlOk s.setPvalid :=
  ⟨h.fault, fun _ => ⟨hk, hc⟩, h.activity⟩

/-- A command body that keeps the frame keeps the control half. -/
theorem BodyFrame.controlOk {i : Instr} (hf : BodyFrame i s t) (h : ControlOk s) : ControlOk t := by
  by_cases hr : i = .rst
  · rw [hf.rst hr]; exact controlOk_resetArch s
  by_cases hc : i = .pcommit
  · rcases hf.commit hc with rfl | ⟨rfl, hk, hcc⟩
    · exact h
    · exact h.setPvalid hk hcc
  exact h.of_frame hf.geom (hf.fault hr) (hf.pvalid hr hc) (hf.locked hr)

/-- Every command keeps the control half. -/
theorem exec_controlOk {i : Instr} (hi : i.isCommand = true) (h : ControlOk s) (ht : exec i s = .next t) :
    ControlOk t := by
  obtain ⟨body, hrun, hok, herr⟩ := exec_shell i hi
  rw [hrun] at ht
  rcases runCommand_cases ht with ⟨-, rfl⟩ | ⟨-, -, hf, rfl⟩ | ⟨-, -, c, hb, rfl⟩ | ⟨-, -, u, items, hb, rfl⟩
  · exact h
  · exact (h.consume _).raise fun hf' => absurd hf (by simpa using hf')
  · exact (h.consume _).report (herr _ _ _ hb)
  · exact ((hok _ _ _ _ hb).controlOk (h.consume _)).respond _ _

-- The data half: one rule for each operation on the state

theorem DataOk.setRegs (h : DataOk s) {v : List Nat} (hv : IsVector s.geom v) : DataOk (s.setRegs v) :=
  ⟨h.geometry, hv, h.buf, h.spaces⟩

theorem DataOk.setReg (h : DataOk s) (i : Nat) {x : Nat} (hx : x < s.geom.P) : DataOk (s.setReg i x) :=
  h.setRegs ⟨by simpa using h.regs.1, mem_set_lt h.regs.2 hx⟩

theorem DataOk.setEntry (h : DataOk s) {sp : Space} {idx v : Nat} (hi : idx < entryCount s.geom sp)
    (hv : v < entryBound s.geom sp) : DataOk (s.setEntry sp idx v) :=
  ⟨h.geometry, h.regs, h.buf, SpaceOk.setEntry h.spaces hi hv⟩

/-- Writing the sponge triple is right when what it writes is (R250). -/
theorem DataOk.of_setSponge (h : DataOk s) (ht : ∃ v m b, t = s.setSponge v m b) (hv : IsVector s.geom t.regs)
    (hb : BufOk t) : DataOk t := by
  obtain ⟨v, m, b, rfl⟩ := ht
  exact ⟨h.geometry, hv, hb, h.spaces⟩

theorem isVector_zeros {g : Geometry} (h : GeometryValid g) : IsVector g (List.replicate g.W 0) :=
  ⟨by simp, fun x hx => by rw [List.eq_of_mem_replicate hx]; exact h.prime.pos⟩

theorem DataOk.newSponge (h : DataOk s) : DataOk s.newSponge :=
  h.of_setSponge ⟨_, _, _, rfl⟩ (isVector_zeros h.geometry) (bufOk_empty h.geometry.oneLeR _)

theorem spaceOk_resetArch (s : State) (sp : Space) : SpaceOk s.resetArch sp :=
  ⟨by simpa using Memory.wf_empty, by simp [Memory.empty]⟩

theorem DataOk.resetArch (h : DataOk s) : DataOk s.resetArch :=
  ⟨h.geometry, h.newSponge.regs, h.newSponge.buf, spaceOk_resetArch s⟩

-- Sponge operations

theorem DataOk.absorbOne (h : DataOk s) {x : Nat} (hx : x < s.geom.P) : DataOk (s.absorbOne x) :=
  h.of_setSponge (eq_setSponge_absorbOne s x) (isVector_absorbOne h.one_lt h.regs x)
    (bufOk_absorbOne h.geometry.oneLeR h.buf hx)

@[simp] theorem absorbOne_geom (s : State) (x : Nat) : (s.absorbOne x).geom = s.geom := by
  obtain ⟨v, m, b, h⟩ := eq_setSponge_absorbOne s x
  simp [h]

theorem DataOk.absorbMany {xs : List Nat} (h : DataOk s) (hx : ∀ x ∈ xs, x < s.geom.P) :
    DataOk (s.absorbMany xs) := by
  induction xs generalizing s with
  | nil => exact h
  | cons x xs ih =>
    obtain ⟨hx, hxs⟩ := List.forall_mem_cons.1 hx
    exact ih (h.absorbOne hx) (by simpa using hxs)

theorem DataOk.squeezeOne (h : DataOk s) {x : Nat} (hs : s.squeezeOne = some (x, t)) : DataOk t := by
  rcases squeezeOne_cases h.one_lt h.geometry.oneLeR h.buf h.regs with ⟨-, -, hn⟩ | ⟨-, y, u, hu, hb, -, -, hv⟩
  · rw [hn] at hs; cases hs
  · obtain ⟨rfl, rfl⟩ : y = x ∧ u = t := by simpa [hu] using hs
    exact h.of_setSponge (eq_setSponge_squeezeOne hs) hv hb

theorem DataOk.squeezeMany {k : Nat} {vs : List Nat} (h : DataOk s)
    (hs : State.squeezeMany k s = some (vs, t)) : DataOk t := by
  induction k generalizing s vs with
  | zero => cases hs; exact h
  | succ k ih =>
    simp only [State.squeezeMany] at hs
    split at hs
    · cases hs
    · next _ u hu =>
      split at hs
      · cases hs
      · next hm => cases hs; exact ih (h.squeezeOne hu) hm

theorem capacityValue_lt {P R n v : Nat} {st : Strategy} (hP : 0 < P) (h : capacityValue P R st n = some v) :
    v < P := by
  cases st <;> simp only [capacityValue, Option.some.injEq, reduceCtorEq] at h <;>
    exact h ▸ Nat.mod_lt _ hP

theorem paddingValues_lt {P R n : Nat} {st : Strategy} {pad : List Nat} (hP : 1 < P)
    (h : paddingValues R st n = some pad) : ∀ x ∈ pad, x < P := by
  have bit : ∀ x ∈ pad, x = 0 ∨ x = 1 := by
    cases st <;> simp only [paddingValues, Option.ite_none_right_eq_some, Option.some.injEq] at h
    case fixedLength => subst h; simp
    case variableLength => subst h; simp
    case customFixedLength => subst h; simp
    case customVariableLength => simp [← h.2]
    case noPadding => simp [← h.2]
  intro x hx
  have := bit x hx
  omega

theorem DataOk.setCapacity (h : DataOk s) {c : Option Nat} (hc : ∀ v, c = some v → v < s.geom.P) :
    DataOk (s.setCapacity c) := by
  cases c with
  | none => exact h
  | some v => exact h.setReg _ (hc v rfl)

@[simp] theorem setCapacity_geom (s : State) (c : Option Nat) : (s.setCapacity c).geom = s.geom := by
  cases c <;> rfl

theorem DataOk.hashAbsorbed (h : DataOk s) (st : Strategy) {xs pad : List Nat} (hx : ∀ x ∈ xs, x < s.geom.P)
    (hp : paddingValues s.geom.R st s.hLen = some pad) : DataOk (s.hashAbsorbed st xs pad) := by
  refine (h.newSponge.setCapacity fun v => capacityValue_lt h.pos).absorbMany fun x hm => ?_
  rw [setCapacity_geom]
  rcases List.mem_append.1 hm with hm | hm
  · exact hx x hm
  · exact paddingValues_lt h.one_lt hp x hm

-- The data half: the commands

/-- A body that answers ok leaves the data half true. -/
def KeepsData (body : State → List Beat → Except Code (State × List Item)) : Prop :=
  ∀ ⦃s p t items⦄, DataOk s → body s p = .ok (t, items) → DataOk t

/-- The shell keeps the data half when its body does: every other outcome writes no data (R359). -/
theorem KeepsData.runCommand {g : Bool} {n : Nat} {body : State → List Beat → Except Code (State × List Item)}
    (hb : KeepsData body) (h : DataOk s) (ht : runCommand g n body s = .next t) : DataOk t := by
  rcases runCommand_cases ht with ⟨-, rfl⟩ | ⟨-, -, -, rfl⟩ | ⟨-, -, c, -, rfl⟩ | ⟨-, -, u, items, hu, rfl⟩
  · exact h
  · exact h.of_fields
  · exact h.of_fields
  · exact (hb (h.of_fields : DataOk (s.consume (1 + n))) hu).of_fields

/-- A guard of a body passed. -/
theorem guard_eq_ok {ε α : Type} {p : Prop} [Decidable p] {e : ε} {x : Except ε α} {a : α} :
    (if p then .error e else x) = .ok a ↔ ¬p ∧ x = .ok a := by
  split <;> simp [*]

theorem threeRegister_dataOk {f : Nat → Nat → Nat → Nat} {d a b : Nat}
    (hf : ∀ {P}, 0 < P → ∀ x y, f P x y < P) (h : DataOk s) (ht : threeRegister f d a b s = .next t) : DataOk t := by
  refine KeepsData.runCommand (fun u p v items hu hb => ?_) h ht
  obtain ⟨-, hb⟩ := guard_eq_ok.1 hb
  cases hb
  exact hu.setReg _ (hf hu.pos _ _)

theorem twoRegister_dataOk {f : Nat → Nat → Nat} {d a : Nat}
    (hf : ∀ {P}, 0 < P → ∀ x, f P x < P) (h : DataOk s) (ht : twoRegister f d a s = .next t) : DataOk t := by
  refine KeepsData.runCommand (fun u p v items hu hb => ?_) h ht
  obtain ⟨-, hb⟩ := guard_eq_ok.1 hb
  cases hb
  exact hu.setReg _ (hf hu.pos _)

/-- The command of a layer operation is the layer shell with that command's bounds (R92, R175). -/
theorem exec_layer (l : Layer) (s : State) :
    ∃ inBound inLength, exec l.command s = layerCommand inBound inLength l s := by
  cases l <;> dsimp only [Layer.command, exec] <;> exact ⟨_, _, rfl⟩

theorem exec_layer_dataOk (l : Layer) (h : DataOk s) (ht : exec l.command s = .next t) : DataOk t := by
  obtain ⟨inBound, inLength, hl⟩ := exec_layer l s
  rw [hl] at ht
  refine KeepsData.runCommand (fun u p v items hu hb => ?_) h ht
  simp only [guard_eq_ok] at hb
  obtain ⟨-, -, -, hb⟩ := hb
  cases hb
  exact hu.setRegs (isVector_applyLayer hu.one_lt l hu.regs)

/-- What the absorbing commands check of their payload (R252, R258). -/
theorem lt_of_all_canonical {P : Nat} {xs : List Nat} (h : ¬(!xs.all (canonical P)) = true) : ∀ x ∈ xs, x < P := by
  simpa [canonical] using h

theorem absorbCommand_dataOk {n : Nat} (h : DataOk s) (ht : absorbCommand n s = .next t) : DataOk t := by
  refine KeepsData.runCommand (fun u p v items hu hb => ?_) h ht
  simp only [guard_eq_ok] at hb
  obtain ⟨hx, -, hb⟩ := hb
  cases hb
  exact hu.absorbMany (lt_of_all_canonical hx)

theorem squeezeCommand_dataOk {k : Nat} (h : DataOk s) (ht : squeezeCommand k s = .next t) : DataOk t := by
  refine KeepsData.runCommand (fun u p v items hu hb => ?_) h ht
  obtain ⟨-, hb⟩ := guard_eq_ok.1 hb
  split at hb
  · next hs => cases hb; exact hu.squeezeMany hs
  · cases hb

theorem execHash_dataOk {st : Strategy} (h : DataOk s) (ht : execHash st s = .next t) : DataOk t := by
  refine KeepsData.runCommand (fun u p v items hu hb => ?_) h ht
  simp only [guard_eq_ok] at hb
  obtain ⟨hx, -, hb⟩ := hb
  split at hb
  · cases hb
  · next hp =>
    split at hb
    · next hs => cases hb; exact (hu.hashAbsorbed st (lt_of_all_canonical hx) hp).squeezeMany hs
    · cases hb

theorem execSpnew_dataOk (h : DataOk s) (ht : execSpnew s = .next t) : DataOk t :=
  KeepsData.runCommand (fun _ _ _ _ hu hb => by cases hb; exact hu.newSponge) h ht

theorem execPermute_dataOk (h : DataOk s) (ht : execPermute s = .next t) : DataOk t := by
  refine KeepsData.runCommand (fun u p v items hu hb => ?_) h ht
  obtain ⟨-, hb⟩ := guard_eq_ok.1 hb
  cases hb
  exact hu.setRegs (isVector_permute hu.one_lt hu.regs)

theorem execFpow_dataOk {d a : Nat} (h : DataOk s) (ht : execFpow d a s = .next t) : DataOk t := by
  refine KeepsData.runCommand (fun u p v items hu hb => ?_) h ht
  simp only [guard_eq_ok] at hb
  obtain ⟨-, -, hb⟩ := hb
  cases hb
  exact hu.setReg _ (fieldPow_lt hu.one_lt _ _)

theorem execFinv_dataOk {d a : Nat} (h : DataOk s) (ht : execFinv d a s = .next t) : DataOk t := by
  refine KeepsData.runCommand (fun u p v items hu hb => ?_) h ht
  simp only [guard_eq_ok] at hb
  obtain ⟨-, -, hb⟩ := hb
  cases hb
  exact hu.setReg _ (fieldPow_lt hu.one_lt _ _)

theorem execSwr_dataOk {i : Nat} (h : DataOk s) (ht : execSwr i s = .next t) : DataOk t := by
  refine KeepsData.runCommand (fun u p v items hu hb => ?_) h ht
  simp only [guard_eq_ok] at hb
  obtain ⟨-, hc, hb⟩ := hb
  cases hb
  exact hu.setReg _ (by simpa [canonical] using hc)

/-- A PWR payload that passes the canonicity check is of the space's entry type (R61, R324). -/
theorem entryOfBeats_lt {g : Geometry} {sp : Space} {bs : List Beat}
    (h : ¬(holdsElements sp && !canonical g.P (entryOfBeats sp bs)) = true) :
    entryOfBeats sp bs < entryBound g sp := by
  cases sp with
  | exp => exact (itemOfBeats bs).isLt
  | chain => exact ((itemOfBeats bs).setWidth 32).isLt
  | rc | mds | ext | diag | mprime | sparse | orc => simpa [holdsElements, canonical, entryBound] using h

theorem execPwr_dataOk {sp : Space} {idx : Nat} (h : DataOk s) (ht : execPwr sp idx s = .next t) : DataOk t := by
  refine KeepsData.runCommand (fun u p v items hu hb => ?_) h ht
  simp only [guard_eq_ok] at hb
  obtain ⟨hi, hc, -, hb⟩ := hb
  cases hb
  exact hu.setEntry (Nat.lt_of_not_le hi) (entryOfBeats_lt hc)

theorem execCsrw_dataOk {n : Nat} (h : DataOk s) (ht : execCsrw n s = .next t) : DataOk t := by
  refine KeepsData.runCommand (fun u p v items hu hb => ?_) h ht
  split at hb
  · cases hb
  · simp only [guard_eq_ok] at hb
    obtain ⟨-, -, -, hb⟩ := hb
    cases hb
    exact hu.of_fields

theorem execPcommit_dataOk (h : DataOk s) (ht : execPcommit s = .next t) : DataOk t := by
  refine KeepsData.runCommand (fun u p v items hu hb => ?_) h ht
  split at hb
  · cases hb; exact hu
  · simp only [guard_eq_ok] at hb
    obtain ⟨-, -, hb⟩ := hb
    cases hb
    exact hu.of_fields

theorem execRst_dataOk (h : DataOk s) (ht : execRst s = .next t) : DataOk t :=
  KeepsData.runCommand (fun _ _ _ _ hu hb => by cases hb; exact hu.resetArch) h ht

/-- A body that only answers keeps the data half. -/
theorem keepsData_of_reads {body : State → List Beat → Except Code (State × List Item)}
    (hb : ∀ s p t items, body s p = .ok (t, items) → t = s) : KeepsData body :=
  fun s p t items h ht => hb s p t items ht ▸ h

theorem execNop_dataOk (h : DataOk s) (ht : execNop s = .next t) : DataOk t :=
  (keepsData_of_reads fun _ _ _ _ hb => by cases hb; rfl).runCommand h ht

theorem execCsrr_dataOk {n : Nat} (h : DataOk s) (ht : execCsrr n s = .next t) : DataOk t :=
  (keepsData_of_reads fun _ _ _ _ hb => by split at hb <;> cases hb; rfl).runCommand h ht

theorem execPrd_dataOk {sp : Space} {idx : Nat} (h : DataOk s) (ht : execPrd sp idx s = .next t) : DataOk t :=
  (keepsData_of_reads fun _ _ _ _ hb => by split at hb <;> cases hb; rfl).runCommand h ht

theorem execSrd_dataOk {i : Nat} (h : DataOk s) (ht : execSrd i s = .next t) : DataOk t :=
  (keepsData_of_reads fun _ _ _ _ hb => by split at hb <;> cases hb; rfl).runCommand h ht

theorem execDcap_dataOk {st : Strategy} (h : DataOk s) (ht : execDcap st s = .next t) : DataOk t :=
  (keepsData_of_reads fun _ _ _ _ hb => by split at hb <;> cases hb <;> rfl).runCommand h ht

theorem execDpad_dataOk {st : Strategy} (h : DataOk s) (ht : execDpad st s = .next t) : DataOk t :=
  (keepsData_of_reads fun _ _ _ _ hb => by split at hb <;> cases hb; rfl).runCommand h ht

/-- Every command keeps the data half. -/
theorem exec_dataOk {i : Instr} (hi : i.isCommand = true) (h : DataOk s) (ht : exec i s = .next t) : DataOk t := by
  cases i with
  | nop => exact execNop_dataOk h ht
  | rst => exact execRst_dataOk h ht
  | csrw n => exact execCsrw_dataOk h ht
  | csrr n => exact execCsrr_dataOk h ht
  | pwr sp idx => exact execPwr_dataOk h ht
  | prd sp idx => exact execPrd_dataOk h ht
  | pcommit => exact execPcommit_dataOk h ht
  | swr i => exact execSwr_dataOk h ht
  | srd i => exact execSrd_dataOk h ht
  | fadd d a b => exact threeRegister_dataOk fieldAdd_lt h ht
  | fsub d a b => exact threeRegister_dataOk fieldSub_lt h ht
  | fmul d a b => exact threeRegister_dataOk fieldMul_lt h ht
  | fneg d a => exact twoRegister_dataOk fieldNeg_lt h ht
  | fsqr d a => exact twoRegister_dataOk fieldSqr_lt h ht
  | fpow d a => exact execFpow_dataOk h ht
  | finv d a => exact execFinv_dataOk h ht
  | sbf => exact exec_layer_dataOk .sbf h ht
  | sbfe i => exact exec_layer_dataOk (.sbfe i) h ht
  | sbi => exact exec_layer_dataOk .sbi h ht
  | sbie i => exact exec_layer_dataOk (.sbie i) h ht
  | arc r => exact exec_layer_dataOk (.arc r) h ht
  | arc0 r => exact exec_layer_dataOk (.arc0 r) h ht
  | arco r => exact exec_layer_dataOk (.arco r) h ht
  | arco0 r => exact exec_layer_dataOk (.arco0 r) h ht
  | mds => exact exec_layer_dataOk .mds h ht
  | mpr => exact exec_layer_dataOk .mpr h ht
  | spm k => exact exec_layer_dataOk (.spm k) h ht
  | exl => exact exec_layer_dataOk .exl h ht
  | inl => exact exec_layer_dataOk .inl h ht
  | permute => exact execPermute_dataOk h ht
  | spnew => exact execSpnew_dataOk h ht
  | absorb => exact absorbCommand_dataOk (n := 1) h ht
  | absorbn n => exact absorbCommand_dataOk h ht
  | squeeze => exact squeezeCommand_dataOk (k := 1) h ht
  | squeezen k => exact squeezeCommand_dataOk h ht
  | hash st => exact execHash_dataOk h ht
  | dcap st => exact execDcap_dataOk h ht
  | dpad st => exact execDpad_dataOk h ht
  | chDbl | chAdd => cases hi

-- The step

/-- Every command keeps the invariant. -/
theorem exec_keeps_inv {i : Instr} (hi : i.isCommand = true) (h : Inv s) (ht : exec i s = .next t) : Inv t :=
  have ⟨hd, hc⟩ := inv_iff.1 h
  inv_iff.2 ⟨exec_dataOk hi hd ht, exec_controlOk hi hc ht⟩

/-- An illegal word raises `IllegalCommand`, which can be the first fault, or `Faulted`, only where one is recorded
(R102, R360). -/
theorem illegalWord_keeps_inv (h : Inv s) (w : Word) : Inv (s.illegalWord w) := by
  obtain ⟨hd, hc⟩ := inv_iff.1 h
  unfold State.illegalWord
  refine inv_iff.2 ⟨hd.of_fields, (hc.consume 1).raise fun hf => ?_⟩
  have hs : s.fault = false := hf
  simp [hs, Code.isSignal]

theorem Inv.setActivity (h : Inv s) {a : Activity} (ha : ActivityOk (s.setActivity a)) : Inv (s.setActivity a) :=
  ⟨h.geometry, h.regs, h.buf, h.spaces, h.fault, h.committed, ha⟩

theorem Inv.setRegs (h : Inv s) {v : List Nat} (hv : IsVector s.geom v) : Inv (s.setRegs v) :=
  ⟨h.geometry, hv, h.buf, h.spaces, h.fault, h.committed, h.activity⟩

/-- A chain step appends a canonical element to the scratch list (R159). -/
theorem chainStep_keeps_inv (h : Inv s) {l : List Nat} (ha : s.activity = .chain l) (ht : chainStep l s = .next t) :
    Inv t := by
  have hl : l ≠ [] ∧ ∀ x ∈ l, x < s.geom.P := by simpa only [ActivityOk, ha] using h.activity
  obtain ⟨a, rfl, rfl | ⟨st, rfl⟩⟩ := chainStep_next ha ht
  · exact h.setActivity trivial
  · refine h.setActivity ⟨by simp, fun x hx => ?_⟩
    rcases List.mem_append.1 hx with hx | hx
    · exact hl.2 x hx
    · rw [List.mem_singleton.1 hx]; exact chainEntry_lt h.geometry.prime.pos l st

/-- A layer operation of a permutation in progress writes a W-vector of canonical elements (R207). -/
theorem sequencerStep_keeps_inv (h : Inv s) (rnd ph : Nat) : Inv (s.sequencerStep rnd ph) := by
  unfold State.sequencerStep
  split
  · next l _ =>
    refine (h.setRegs (isVector_applyLayer h.geometry.prime.one_lt l h.regs)).setActivity ?_
    unfold State.nextPosition
    split <;> trivial
  · exact h.setActivity trivial

/-- Settles O12: a step is a command, an illegal word, a chain step or a layer operation, and each of them keeps
the invariant. -/
theorem stepKeepsInvariant : Obligations.StepKeepsInvariant := by
  intro s t h ht
  rcases step_forms s with ⟨-, hs⟩ | ⟨i, w, -, hi, -, -, hs⟩ | ⟨w, -, -, hs⟩ | ⟨l, ha, hs⟩ | ⟨rnd, ph, -, hs⟩ <;>
    rw [hs] at ht
  · cases ht; exact h
  · exact exec_keeps_inv hi h ht
  · cases ht; exact illegalWord_keeps_inv h w
  · exact chainStep_keeps_inv h ha ht
  · cases ht; exact sequencerStep_keeps_inv h rnd ph

end Sys2Proof.Machine

/-! PROOF of O10, O11 and O14. A step writes nothing but FAULT, ERR and the ports, or it is the ok outcome of a command,
which `BodyFrame` speaks of, or it stands inside a command. What a step keeps of the committed parameters, who sets
PVALID and who ends idle are read off from that. -/

namespace Sys2Proof.Machine

-- The word of a command: what the decoder answers is encoded by the word it was given, format by format

section
variable {w : Word} {i : Instr} {op : Nat}

theorem encode_of_decodeN {c : Instr} (hop : bitField w 7 0 = op) (he : encode c = wordN op)
    (h : decodeN w c = .ok i) : encode i = w := by
  unfold decodeN at h
  split at h <;> cases h
  exact he.trans (wordN_of_fields hop ‹_›)

theorem encode_of_decodeI {make : Nat → Instr} (hop : bitField w 7 0 = op) (he : ∀ n, encode (make n) = wordI op 0 n)
    (h : decodeI w make = .ok i) : encode i = w := by
  unfold decodeI at h
  split at h <;> cases h
  next hsel => simpa only [he, hop, hsel] using wordI_of_fields w

theorem encode_of_decodeSpace {make : Space → Nat → Instr} (hop : bitField w 7 0 = op)
    (he : ∀ sp n, encode (make sp n) = wordI op sp.code n) (h : decodeSpace w make = .ok i) : encode i = w := by
  unfold decodeSpace at h
  split at h <;> cases h
  next hsel => simpa only [he, hop, Space.code_of_ofCode hsel] using wordI_of_fields w

theorem encode_of_decodeStrategy {make : Strategy → Instr} (hop : bitField w 7 0 = op)
    (he : ∀ st, encode (make st) = wordI op st.code 0) (h : decodeStrategy w make = .ok i) : encode i = w := by
  unfold decodeStrategy at h
  split at h
  · next himm =>
    split at h <;> cases h
    next hsel => simpa only [he, hop, himm, Strategy.code_of_ofCode hsel] using wordI_of_fields w
  · cases h

theorem encode_of_decodeT3 {make : Nat → Nat → Nat → Instr} (hop : bitField w 7 0 = op)
    (he : ∀ d a b, encode (make d a b) = wordT op d a b) (h : decodeT3 w make = .ok i) : encode i = w := by
  cases h
  rw [he, ← hop, wordT_of_fields]

theorem encode_of_decodeT2 {make : Nat → Nat → Instr} (hop : bitField w 7 0 = op)
    (he : ∀ d a, encode (make d a) = wordT op d a 0) (h : decodeT2 w make = .ok i) : encode i = w := by
  unfold decodeT2 at h
  split at h <;> cases h
  next hb => simpa only [he, hop, hb] using wordT_of_fields w

/-- A legal word is the encoding of what it decodes to (R102). -/
theorem encode_of_decode (h : decode w = .ok i) : encode i = w := by
  unfold decode at h
  split at h <;> rename_i hop
  case h_39 => cases h
  all_goals first
    | exact encode_of_decodeN hop rfl h
    | exact encode_of_decodeI hop (fun _ => rfl) h
    | exact encode_of_decodeSpace hop (fun _ _ => rfl) h
    | exact encode_of_decodeStrategy hop (fun _ => rfl) h
    | exact encode_of_decodeT3 hop (fun _ _ _ => rfl) h
    | exact encode_of_decodeT2 hop (fun _ _ => rfl) h

end

variable {s t : State}

-- What a step at the command port can write

/-- `t` is `s` but for FAULT, ERR and the ports: what waiting, a signal and a fault write (R354, R356). -/
def OnlyReports (s t : State) : Prop :=
  ∃ fault err input output, t = { s with fault := fault, err := err, input := input, output := output }

theorem OnlyReports.refl (s : State) : OnlyReports s s := ⟨_, _, _, _, rfl⟩

theorem onlyReports_raise (s : State) (n : Nat) (c : Code) : OnlyReports s ((s.consume n).raise c) :=
  ⟨_, _, _, _, State.eq_of_fields (by simp) (by simp) (by simp) (by simp) (by simp) rfl rfl (by simp) (by simp)
    (by simp) rfl rfl⟩

theorem onlyReports_report (s : State) (n : Nat) (c : Code) : OnlyReports s ((s.consume n).report c) := by
  unfold State.report
  split
  · exact ⟨_, _, _, _, rfl⟩
  · exact onlyReports_raise s n c

theorem onlyReports_illegalWord (s : State) (w : Word) : OnlyReports s (s.illegalWord w) := onlyReports_raise s 1 _

/-- A command writes nothing but FAULT, ERR and the ports, or it ends in ok with what its body has written (R350). -/
theorem exec_cases {i : Instr} (hi : i.isCommand = true) (h : exec i s = .next t) :
    OnlyReports s t ∨ ∃ n u items, BodyFrame i (s.consume n) u ∧ t = u.respond .ok items := by
  obtain ⟨body, hrun, hok, -⟩ := exec_shell i hi
  rw [hrun] at h
  rcases runCommand_cases h with ⟨-, rfl⟩ | ⟨-, -, -, rfl⟩ | ⟨-, -, c, -, rfl⟩ | ⟨-, -, u, items, hb, rfl⟩
  · exact .inl (.refl _)
  · exact .inl (onlyReports_raise s _ _)
  · exact .inl (onlyReports_report s _ c)
  · exact .inr ⟨_, u, items, hok _ _ _ _ hb, rfl⟩

/-- A step answers with what only reports, with the outcome of a command, or it is a step inside a command, which
changes the registers and the hidden state only (R45, R90). -/
theorem step_cases (h : step s = .next t) :
    OnlyReports s t ∨
    (∃ i w, s.activity = .idle ∧ i.isCommand = true ∧ s.fetchWord = some w ∧ encode i = w ∧ exec i s = .next t) ∨
    ∃ v a, t = (s.setRegs v).setActivity a := by
  rcases step_forms s with ⟨-, hs⟩ | ⟨i, w, ha, hi, hw, hd, hs⟩ | ⟨w, -, -, hs⟩ | ⟨l, ha, hs⟩ | ⟨rnd, ph, -, hs⟩ <;>
    rw [hs] at h
  · cases h; exact .inl (.refl s)
  · exact .inr (.inl ⟨i, w, ha, hi, hw, encode_of_decode hd, h⟩)
  · cases h; exact .inl (onlyReports_illegalWord s w)
  · obtain ⟨a, rfl, -⟩ := chainStep_next ha h
    exact .inr (.inr ⟨s.regs, a, rfl⟩)
  · cases h
    rcases sequencerStep_eq s rnd ph with ⟨l, a, -, hq⟩ | hq
    · exact .inr (.inr ⟨_, a, hq⟩)
    · exact .inr (.inr ⟨s.regs, _, hq⟩)

-- O10: the committed parameters

/-- What RST alone may change once PCOMMIT has set PVALID (R37, R69). -/
def KeepsParameters (s t : State) : Prop :=
  t.pvalid = true ∧ t.params = s.params ∧ t.csr = { s.csr with hlen := t.csr.hlen } ∧ t.geom = s.geom

theorem OnlyReports.keepsParameters (h : OnlyReports s t) (hp : s.pvalid = true) : KeepsParameters s t := by
  obtain ⟨f, e, i, o, rfl⟩ := h
  exact ⟨hp, rfl, rfl, rfl⟩

/-- PCOMMIT writes at most PVALID, which is set already, and every other command but RST keeps it (R326). -/
theorem BodyFrame.keeps_pvalid {i : Instr} (hf : BodyFrame i s t) (hr : i ≠ .rst) (hp : s.pvalid = true) :
    t.pvalid = true := by
  by_cases hc : i = .pcommit
  · rcases hf.commit hc with rfl | ⟨rfl, -, -⟩
    · exact hp
    · rfl
  · exact (hf.pvalid hr hc).trans hp

theorem exec_keepsParameters {i : Instr} (hi : i.isCommand = true) (hr : i ≠ .rst) (hp : s.pvalid = true)
    (h : exec i s = .next t) : KeepsParameters s t := by
  rcases exec_cases hi h with h | ⟨n, u, items, hf, rfl⟩
  · exact h.keepsParameters hp
  · obtain ⟨hparams, hcsr⟩ := hf.locked hr hp
    exact ⟨hf.keeps_pvalid hr hp, hparams, hcsr, hf.geom⟩

/-- Settles O10: of the commands RST alone can change the committed parameters, and its word is 1. -/
theorem committedParametersAreFrozen : Obligations.CommittedParametersAreFrozen := by
  intro s t hp h
  rcases step_cases h with h | ⟨i, w, ha, hi, hw, rfl, h⟩ | ⟨v, a, rfl⟩
  · exact .inl (h.keepsParameters hp)
  · by_cases hr : i = .rst
    · exact .inr ⟨ha, by rw [hw, hr]; rfl⟩
    · exact .inl (exec_keepsParameters hi hr hp h)
  · exact .inl ⟨hp, rfl, rfl, rfl⟩

-- O11: PVALID

theorem OnlyReports.pvalid (h : OnlyReports s t) : t.pvalid = s.pvalid := by
  obtain ⟨f, e, i, o, rfl⟩ := h; rfl

/-- No command but PCOMMIT sets PVALID (R26). -/
theorem exec_keeps_uncommitted {i : Instr} (hi : i.isCommand = true) (hc : i ≠ .pcommit) (hp : s.pvalid = false)
    (h : exec i s = .next t) : t.pvalid = false := by
  rcases exec_cases hi h with h | ⟨n, u, items, hf, rfl⟩
  · exact h.pvalid.trans hp
  · by_cases hr : i = .rst
    · rw [hf.rst hr]; rfl
    · exact (hf.pvalid hr hc).trans hp

/-- A PCOMMIT that sets PVALID runs on a healthy engine, has passed every check and writes nothing else (R326). -/
theorem execPcommit_commits (hp : s.pvalid = false) (h : execPcommit s = .next t) (ht : t.pvalid = true) :
    s.fault = false ∧ s.csr.alpha = 5 ∧ s.commitChecks = true ∧ t = s.setPvalid.answered 0 0x00 [] := by
  rcases runCommand_cases h with ⟨-, rfl⟩ | ⟨-, -, -, rfl⟩ | ⟨-, -, c, -, rfl⟩ | ⟨-, hg, u, items, hb, rfl⟩
  · rw [hp] at ht; cases ht
  · simp [hp] at ht
  · simp [hp] at ht
  · simp only [State.consume_pvalid, hp, Bool.false_eq_true, if_false, guard_eq_ok] at hb
    obtain ⟨hk, hc, hb⟩ := hb
    cases hb
    exact ⟨by simpa using hg, by simpa [State.k1] using hk, by simpa using hc, rfl⟩

/-- Settles O11: of the commands PCOMMIT alone can set PVALID, its word is 6, and it has run the checks. -/
theorem pvalidOnlyByCommit : Obligations.PvalidOnlyByCommit := by
  intro s t hp h ht
  rcases step_cases h with h | ⟨i, w, ha, hi, hw, rfl, h⟩ | ⟨v, a, rfl⟩
  · rw [h.pvalid, hp] at ht; cases ht
  · by_cases hc : i = .pcommit
    · subst hc
      obtain ⟨hf, halpha, hchecks, rfl⟩ := execPcommit_commits hp h ht
      exact ⟨ha, hw, hf, halpha, hchecks, rfl⟩
    · rw [exec_keeps_uncommitted hi hc hp h] at ht; cases ht
  · exact absurd (hp.symm.trans ht) (by decide)

-- O14: no step stops

theorem OnlyReports.activity (h : OnlyReports s t) : t.activity = s.activity := by
  obtain ⟨f, e, i, o, rfl⟩ := h; rfl

/-- A command never stops the model, and the engine is idle again after it (R45, R207). -/
theorem exec_idle {i : Instr} (hi : i.isCommand = true) (ha : s.activity = .idle) :
    ∃ t, exec i s = .next t ∧ t.activity = .idle := by
  have hnext : ∃ t, exec i s = .next t := by
    obtain ⟨body, hrun, -, -⟩ := exec_shell i hi
    simpa only [hrun] using runCommand_next _ _ body s
  obtain ⟨t, h⟩ := hnext
  refine ⟨t, h, ?_⟩
  rcases exec_cases hi h with h | ⟨n, u, items, hf, rfl⟩
  · exact h.activity.trans ha
  · by_cases hr : i = .rst
    · rw [hf.rst hr]; rfl
    · obtain ⟨-, -, hact⟩ := hf.fault hr
      exact hact.trans ha

/-- A step at the command port answers a next state with nothing in progress. -/
theorem step_idle (ha : s.activity = .idle) : ∃ t, step s = .next t ∧ t.activity = .idle := by
  rcases step_forms s with ⟨-, hs⟩ | ⟨i, w, -, hi, -, -, hs⟩ | ⟨w, -, -, hs⟩ | ⟨l, hl, -⟩ | ⟨rnd, ph, hl, -⟩
  · exact ⟨s, hs, ha⟩
  · rw [hs]; exact exec_idle hi ha
  · exact ⟨_, hs, (onlyReports_illegalWord s w).activity.trans ha⟩
  · rw [ha] at hl; cases hl
  · rw [ha] at hl; cases hl

/-- Every step of a valid chain is valid where it stands (R162). -/
theorem chainStepValid_getElem {ws : List Word} {k : Nat} (h : chainValidFrom k ws = true) {i : Nat}
    (hi : i < ws.length) : chainStepValid (k + i) ws[i] = true := by
  induction ws generalizing k i with
  | nil => cases hi
  | cons w ws ih =>
    obtain ⟨hw, hws⟩ := Bool.and_eq_true_iff.1 h
    cases i with
    | zero => exact hw
    | succ i => simpa [Nat.add_assoc, Nat.add_comm 1 i] using ih hws (Nat.lt_of_succ_lt_succ hi)

/-- A valid step word is well formed (R162). -/
theorem decodeStep_of_valid {n : Nat} {w : Word} (h : chainStepValid n w = true) : ∃ st, decodeStep w = .ok st := by
  unfold chainStepValid at h
  split at h
  · exact ⟨_, ‹_›⟩
  · exact ⟨_, ‹_›⟩
  · cases h

/-- Step `n` of a valid chain stands in space CHAIN (R36, R162). -/
theorem chainStepValid_chainWord (h : chainValidFrom 0 s.chainWords = true) {n : Nat} (hn : n < s.chainLen) :
    chainStepValid n (s.chainWord n) = true := by
  simpa [State.chainWords] using chainStepValid_getElem h (i := n) (by simpa using hn)

/-- A machine step inside a run takes the step word after the last computed entry (R45, R159). -/
theorem step_chain_of_valid {l : List Nat} (ha : s.activity = .chain l) (hl : l.length - 1 < s.chainLen)
    (hv : chainStepValid (l.length - 1) (s.chainWord (l.length - 1)) = true) :
    step s = .next (s.setActivity (.chain (chainAppend s.geom.P l (s.chainWord (l.length - 1))))) := by
  obtain ⟨st, hd⟩ := decodeStep_of_valid hv
  have hfetch : s.fetchChainWord l = some (s.chainWord (l.length - 1)) := if_pos hl
  simp only [step, ha, chainStep, hfetch, hd, chainAppend]
  cases st <;> simp only [ChainStep.toInstr, exec, execChDbl, execChAdd, ha, chainEntry]

/-- Past the last step word a machine step ends the run (R45; log 3). -/
theorem step_chain_ends {l : List Nat} (ha : s.activity = .chain l) (hl : s.chainLen ≤ l.length - 1) :
    step s = .next (s.setActivity .idle) := by
  have hfetch : s.fetchChainWord l = none := if_neg (Nat.not_lt.2 hl)
  simp only [step, ha, chainStep, hfetch]

/-- PCOMMIT has checked the chain of an inverse S-box that runs one (R162, R326). -/
theorem Inv.chainValid (h : Inv s) (hp : s.pvalid = true) (hk : s.csr.sboxinv = 2) :
    chainValidFrom 0 s.chainWords = true := by
  obtain ⟨-, hc⟩ := h.committed hp
  simp only [State.commitChecks, Bool.and_eq_true] at hc
  obtain ⟨⟨⟨⟨-, h10⟩, -⟩, -⟩, -⟩ := hc
  simpa [State.k10, hk] using h10

/-- Settles O14: a command answers a next state, a layer operation does, and a chain step does on a checked word. -/
theorem engineNeverStops : Obligations.EngineNeverStops := by
  intro s
  refine ⟨step_idle, fun rnd ph ha => ⟨s.sequencerStep rnd ph, by simp only [step, ha]⟩, fun l ha h hp hk => ?_⟩
  by_cases hl : l.length - 1 < s.chainLen
  · exact ⟨_, step_chain_of_valid ha hl (chainStepValid_chainWord (h.chainValid hp hk) hl)⟩
  · exact ⟨_, step_chain_ends ha (Nat.not_lt.1 hl)⟩

end Sys2Proof.Machine

/-! PROOF of O36 and O46. The two runs of a command layer by layer, or step word by step word (log 3): what one machine
step does, then an induction on the layers that are left, or on the step words already run. -/

namespace Sys2Proof.Machine

variable {s t u : State} {P : Nat}

-- Runs

/-- One more step at the end of a run. -/
theorem Runs.snoc {n : Nat} (h : Runs n s t) (hu : step t = .next u) : Runs (n + 1) s u := by
  induction n generalizing s with
  | zero => cases h; exact ⟨u, hu, rfl⟩
  | succ n ih =>
    obtain ⟨v, hv, hr⟩ := h
    exact ⟨v, hv, ih hr⟩

-- O36: the powers in a scratch list

theorem getD_map_of_lt {f : Nat → Nat} {l : List Nat} {i : Nat} (hi : i < l.length) (d d' : Nat) :
    (l.map f).getD i d = f (l.getD i d') := by
  simp [hi]

/-- A valid step appends the power whose exponent the chain of exponents appends (R160, R161, R163). -/
theorem chainAppend_map_pow {x n : Nat} {es : List Nat} {w : Word} (hn : n < es.length)
    (hw : chainStepValid n w = true) :
    chainAppend P (es.map (x ^ · % P)) w = (chainExpAppend es w).map (x ^ · % P) := by
  have read : ∀ i, i ≤ n → scratchRead P (es.map (x ^ · % P)) i = x ^ es.getD i 0 % P :=
    fun i hi => getD_map_of_lt (Nat.lt_of_le_of_lt hi hn) _ _
  unfold chainStepValid at hw
  unfold chainAppend chainExpAppend
  split at hw
  · next i hd =>
    simp only [decide_eq_true_eq] at hw
    simp only [hd, chainEntry, doubledEntry, fieldSqr, fieldMul, read i hw, List.map_append, List.map_cons,
      List.map_nil, ← Nat.mul_mod, ← pow_add, two_mul]
  · next l r hd =>
    simp only [Bool.and_eq_true, decide_eq_true_eq] at hw
    obtain ⟨hl, hr⟩ := hw
    simp only [hd, chainEntry, addedEntry, fieldMul, read l hl, read r hr, List.map_append, List.map_cons,
      List.map_nil, ← Nat.mul_mod, ← pow_add]
  · cases hw

@[simp] theorem chainExpAppend_length (es : List Nat) (w : Word) :
    (chainExpAppend es w).length = es.length + 1 := by
  unfold chainExpAppend; split <;> simp

@[simp] theorem foldl_chainExpAppend_length (ws : List Word) (es : List Nat) :
    (ws.foldl chainExpAppend es).length = es.length + ws.length := by
  induction ws generalizing es with
  | nil => rfl
  | cons w ws ih => rw [List.foldl_cons, ih, chainExpAppend_length, List.length_cons]; omega

/-- The scratch list of a valid chain holds the powers whose exponents are those of the chain (R163). -/
theorem chainScratch_map_pow {x n : Nat} {es : List Nat} {ws : List Word} (hn : es.length = n + 1)
    (hv : chainValidFrom n ws = true) :
    chainScratch P (es.map (x ^ · % P)) ws = (ws.foldl chainExpAppend es).map (x ^ · % P) := by
  induction ws generalizing es n with
  | nil => rfl
  | cons w ws ih =>
    obtain ⟨hw, hws⟩ := Bool.and_eq_true_iff.1 hv
    have happ := chainAppend_map_pow (P := P) (x := x) (by omega : n < es.length) hw
    calc chainScratch P (es.map (x ^ · % P)) (w :: ws)
        = chainScratch P ((chainExpAppend es w).map (x ^ · % P)) ws := by rw [← happ]; rfl
      _ = _ := ih (by rw [chainExpAppend_length, hn]) hws

/-- The scratch list of a valid chain seeded with `x`. -/
theorem chainScratch_seed {x : Nat} {ws : List Word} (hx : x < P) (hv : chainValidFrom 0 ws = true) :
    chainScratch P [x] ws = (ws.foldl chainExpAppend [1]).map (x ^ · % P) := by
  simpa [Nat.mod_eq_of_lt hx] using chainScratch_map_pow (P := P) (x := x) (es := [1]) rfl hv

/-- A run overwrites no entry (R159). -/
theorem chainScratch_extends (ws : List Word) (l : List Nat) : ∃ new, chainScratch P l ws = l ++ new := by
  induction ws generalizing l with
  | nil => exact ⟨[], (List.append_nil l).symm⟩
  | cons w ws ih =>
    obtain ⟨x, hx⟩ := chainAppend_extends (P := P) l w
    obtain ⟨new, hnew⟩ := ih (chainAppend P l w)
    exact ⟨x :: new, hnew.trans (by rw [hx, List.append_assoc]; rfl)⟩

theorem chainScratch_snoc (l : List Nat) (ws : List Word) (w : Word) :
    chainScratch P l (ws ++ [w]) = chainAppend P (chainScratch P l ws) w := by
  simp [chainScratch]

-- O36: the machine steps of a run

theorem chainWords_take_succ {n : Nat} (hn : n < s.chainLen) :
    s.chainWords.take (n + 1) = s.chainWords.take n ++ [s.chainWord n] := by
  have hlen : n < s.chainWords.length := by simpa using hn
  rw [List.take_succ_eq_append_getElem hlen]
  simp [State.chainWords]

/-- After `n` steps the scratch list is that of the first `n` step words (R45, R159). -/
theorem runs_chain {x n : Nat} (ha : s.activity = .chain [x]) (hv : chainValidFrom 0 s.chainWords = true)
    (hn : n ≤ s.chainLen) :
    Runs n s (s.setActivity (.chain (chainScratch s.geom.P [x] (s.chainWords.take n)))) := by
  induction n with
  | zero => exact State.eq_of_fields rfl rfl rfl rfl rfl rfl rfl rfl rfl ha rfl rfl
  | succ n ih =>
    have hlt : n < s.chainLen := hn
    have hlen : (chainScratch s.geom.P [x] (s.chainWords.take n)).length - 1 = n := by simp; omega
    have hstep := step_chain_of_valid
      (s := s.setActivity (.chain (chainScratch s.geom.P [x] (s.chainWords.take n)))) rfl
      (by rw [hlen]; exact hlt) (by rw [hlen]; exact chainStepValid_chainWord hv hlt)
    rw [hlen] at hstep
    rw [chainWords_take_succ hlt, chainScratch_snoc]
    exact (ih (Nat.le_of_lt hlt)).snoc hstep

/-- Settles O36: the run leaves the scratch list of the chain, whose entries are the powers of `chainScratch_seed`,
and the next step finds no word. -/
theorem steppingRunsTheChain : Obligations.SteppingRunsTheChain := by
  intro s x hx _ ha hv
  have hrun : Runs s.chainLen s (s.setActivity (.chain (chainScratch s.geom.P [x] s.chainWords))) := by
    simpa [List.take_of_length_le] using runs_chain ha hv le_rfl
  have hlen : (chainScratch s.geom.P [x] s.chainWords).length = s.chainLen + 1 := by simp [Nat.add_comm]
  refine ⟨_, hrun, hlen, ?_, ?_, ?_, ?_⟩
  · obtain ⟨new, hnew⟩ := chainScratch_extends (P := s.geom.P) s.chainWords [x]
    rw [hnew]; rfl
  · rw [chainScratch_seed hx hv, getD_map_of_lt (by simp) _ 0, chainExponent, chainWords_length]
  · rw [chainValue, scratchRead, chainWords_length, List.getD_eq_getElem _ _ (by omega),
      List.getD_eq_getElem _ _ (by omega)]
  · exact hrun.snoc (step_chain_ends (s := s.setActivity _) rfl (by rw [hlen]; exact le_rfl))

-- O46: the sequencer

/-- The layer operations from the position `(rnd, ph)` on (R207). -/
def State.layersFrom (s : State) (rnd ph : Nat) : List Layer := (s.rounds.drop rnd).flatten.drop ph

/-- The positions the sequencer takes: the first phase of a round, or another phase that the round has (R45). -/
def State.IsPosition (s : State) (rnd ph : Nat) : Prop := ph = 0 ∨ ph < (s.rounds.getD rnd []).length

/-- Where the sequencer finds no layer, none is left: every round has a first phase (R207). -/
theorem layersFrom_eq_nil {rnd ph : Nat} (hp : s.IsPosition rnd ph) (h : s.layerAt rnd ph = none) :
    s.layersFrom rnd ph = [] := by
  have hge : (s.rounds.getD rnd []).length ≤ ph := by simpa [State.layerAt] using h
  have hph : ph = 0 := hp.resolve_right (Nat.not_lt.2 hge)
  subst hph
  have hrnd : s.rounds.length ≤ rnd := by
    by_contra hlt
    have hlt := Nat.lt_of_not_le hlt
    rw [List.getD_eq_getElem _ _ hlt] at hge
    exact rounds_ne_nil s _ (List.getElem_mem hlt) (List.eq_nil_of_length_eq_zero (Nat.le_zero.1 hge))
  simp [State.layersFrom, List.drop_eq_nil_of_le hrnd]

/-- The layer found is the first of those left, and the next position stands before the others (R45, R207). -/
theorem layersFrom_cons {rnd ph : Nat} {l : Layer} (h : s.layerAt rnd ph = some l) :
    ∃ r p, s.nextPosition rnd ph = .permuting r p ∧ s.IsPosition r p ∧
      s.layersFrom rnd ph = l :: s.layersFrom r p := by
  obtain ⟨hph, hl⟩ := List.getElem?_eq_some_iff.1 h
  have hrnd : rnd < s.rounds.length := by
    by_contra hge
    rw [List.getD_eq_default _ _ (Nat.le_of_not_lt hge)] at hph
    cases hph
  rw [List.getD_eq_getElem _ _ hrnd] at hph
  have hround : s.layersFrom rnd ph = s.rounds[rnd].drop ph ++ (s.rounds.drop (rnd + 1)).flatten := by
    rw [State.layersFrom, List.drop_eq_getElem_cons hrnd, List.flatten_cons,
      List.drop_append_of_le_length (Nat.le_of_lt hph)]
  have hhead : s.rounds[rnd].drop ph = l :: s.rounds[rnd].drop (ph + 1) := by
    rw [List.drop_eq_getElem_cons hph, ← hl]; simp [hrnd]
  by_cases hnext : ph + 1 < s.rounds[rnd].length
  · refine ⟨rnd, ph + 1, ?_, .inr ?_, ?_⟩
    · simp [State.nextPosition, hrnd, hnext]
    · simpa [hrnd] using hnext
    · rw [hround, hhead, List.cons_append, State.layersFrom, List.drop_eq_getElem_cons hrnd, List.flatten_cons,
        List.drop_append_of_le_length (Nat.le_of_lt hnext)]
  · refine ⟨rnd + 1, 0, ?_, .inl rfl, ?_⟩
    · simp [State.nextPosition, hrnd, hnext]
    · rw [hround, hhead, List.drop_eq_nil_of_le (Nat.le_of_not_lt hnext)]
      rfl

@[simp] theorem applyLayers_setRegs (s : State) (v : List Nat) (a : Activity) :
    applyLayers ((s.setRegs v).setActivity a) = applyLayers s := by
  have h : applyLayer ((s.setRegs v).setActivity a) = applyLayer s := applyLayer_congr rfl rfl rfl
  funext ls w
  simp only [applyLayers, h]

/-- From any position the sequencer performs the layers that are left, one for each step, and one step more finds
none (R207). -/
theorem runs_sequencer {ls : List Layer} {rnd ph : Nat} (ha : s.activity = .permuting rnd ph)
    (hp : s.IsPosition rnd ph) (hls : s.layersFrom rnd ph = ls) :
    Runs (ls.length + 1) s ((s.setRegs (applyLayers s ls s.regs)).setActivity .idle) := by
  induction ls generalizing s rnd ph with
  | nil =>
    have hnone : s.layerAt rnd ph = none := by
      cases h : s.layerAt rnd ph with
      | none => rfl
      | some l =>
        obtain ⟨r, p, -, -, hc⟩ := layersFrom_cons h
        rw [hls] at hc; cases hc
    exact ⟨s.setActivity .idle, by simp only [step, ha, State.sequencerStep, hnone], rfl⟩
  | cons l ls ih =>
    cases h : s.layerAt rnd ph with
    | none => rw [layersFrom_eq_nil hp h] at hls; cases hls
    | some l' =>
      obtain ⟨r, p, hnext, hpos, hc⟩ := layersFrom_cons h
      rw [hls] at hc
      obtain ⟨rfl, htail⟩ := List.cons.inj hc
      have hrest := ih (s := (s.setRegs (applyLayer s l s.regs)).setActivity (.permuting r p)) rfl hpos htail.symm
      rw [applyLayers_setRegs] at hrest
      exact ⟨_, by simp only [step, ha, State.sequencerStep, h, hnext], hrest⟩

/-- Settles O46: from round 0 and phase 0 the layers left are the whole expansion. -/
theorem sequencerRunsPermute : Obligations.SequencerRunsPermute :=
  fun _ ha => runs_sequencer ha (.inl rfl) rfl

end Sys2Proof.Machine

/-! PROOF of O13, O15, O17, O18, O19 and O28. What reset gives, what the control registers read as and how CSRW writes
them, and the power that FPOW computes. -/

namespace Sys2Proof.Machine

variable {s : State}

-- O13 and O15: reset

/-- The reset state is what RST makes of itself, so what RST gives it holds (R50, R358). -/
theorem inv_resetOf {g : Geometry} (h : GeometryValid g) : Inv (State.resetOf g) :=
  inv_iff.2
    ⟨⟨h, isVector_zeros h, bufOk_empty (s := State.resetOf g) h.oneLeR (List.replicate g.W 0),
      spaceOk_resetArch (State.resetOf g)⟩, controlOk_resetArch (State.resetOf g)⟩

/-- The toy engine of log 1 is one that R8 and R9 allow. -/
theorem geometryValid_config : GeometryValid Config.geometry where
  prime := by norm_num [Config.geometry]
  coprimeFive := by decide
  twoLeW := by decide
  wLe := by decide
  oneLeR := by decide
  rLtW := by decide
  rcFits := by decide
  sparseFits := by decide
  chainFits := by decide
  limbsHold := by decide

/-- Settles O13: the geometry of log 1 is a valid one, and every valid one resets to the invariant. -/
theorem resetHasInvariant : Obligations.ResetHasInvariant :=
  ⟨rfl, inv_resetOf geometryValid_config, fun _ h => inv_resetOf h⟩

@[simp] theorem reg_resetOf (g : Geometry) (i : Nat) : (State.resetOf g).reg i = 0 := by
  simp [State.reg, State.resetOf]

@[simp] theorem bufCount_resetOf (g : Geometry) : (State.resetOf g).bufCount = 0 :=
  countP_replicate_none g.R

@[simp] theorem entry_resetOf (g : Geometry) (sp : Space) (idx : Nat) : (State.resetOf g).entry sp idx = 0 := by
  simp [State.entry, State.resetOf]

/-- Every control register but GEOM reads as 0 after reset (R50). -/
theorem csrValue_resetOf (g : Geometry) {id : CsrId} (h : id ≠ .geom) : (State.resetOf g).csrValue id = 0 := by
  cases id
  case status =>
    change BitVec.ofNat 64 (0 + 2 ^ 16 * ((State.resetOf g).bufCount % 2 ^ 16)) = 0
    rw [bufCount_resetOf]; rfl
  case geom => exact absurd rfl h
  all_goals rfl

/-- RST gives the reset state whatever the state before it (R50, R321, R358). -/
theorem exec_rst (h : 1 ≤ s.input.length) :
    exec .rst s = .next ((s.consume 1).resetArch.respond .ok []) := by
  change execRst s = _
  rw [execRst, runCommand_ungated (n := 0) h]

/-- The number of a control register (R28). -/
def CsrId.number : CsrId → Nat
  | .family => 0 | .rf => 1 | .rp => 2 | .alpha => 3 | .sboxinv => 4 | .chainlen => 5 | .rclen => 6 | .ctrl => 7
  | .splen => 8 | .orclen => 9 | .hlen => 10 | .status => 11 | .geom => 12

theorem csrOfNumber_eq_some {n : Nat} {id : CsrId} : csrOfNumber n = some id ↔ n = id.number := by
  constructor
  · intro h
    unfold csrOfNumber at h
    split at h <;> cases h <;> rfl
  · rintro rfl
    cases id <;> rfl

@[simp] theorem csrOfNumber_number (id : CsrId) : csrOfNumber id.number = some id := csrOfNumber_eq_some.2 rfl

/-- Settles O15: the reset state field by field, and RST gives it. -/
theorem resetState : Obligations.ResetState := by
  intro g
  refine ⟨⟨by simp [State.resetOf], reg_resetOf g, rfl, by simp [State.resetOf], fun e => List.eq_of_mem_replicate,
    bufCount_resetOf g, fun n id hn hid => csrValue_resetOf g ?_, csrValue_resetOf g (by decide), rfl, ?_,
    entry_resetOf g⟩, ?_⟩
  · rintro rfl
    rw [csrOfNumber_eq_some.1 hid] at hn
    exact absurd hn (by decide)
  · rintro u rfl; rfl
  · rintro s rfl h; exact exec_rst h

-- O17 and O18: the control registers

theorem csrOfNumber_none {n : Nat} (h : 13 ≤ n) : csrOfNumber n = none := by
  cases hid : csrOfNumber n with
  | none => rfl
  | some id =>
    rw [csrOfNumber_eq_some.1 hid] at h
    cases id <;> exact absurd h (by decide)

/-- Every number up to 12 names a register (R28). -/
theorem exists_number {n : Nat} (h : n ≤ 12) : ∃ id : CsrId, n = id.number := by
  interval_cases n
  exacts [⟨.family, rfl⟩, ⟨.rf, rfl⟩, ⟨.rp, rfl⟩, ⟨.alpha, rfl⟩, ⟨.sboxinv, rfl⟩, ⟨.chainlen, rfl⟩, ⟨.rclen, rfl⟩,
    ⟨.ctrl, rfl⟩, ⟨.splen, rfl⟩, ⟨.orclen, rfl⟩, ⟨.hlen, rfl⟩, ⟨.status, rfl⟩, ⟨.geom, rfl⟩]

theorem number_injective {id id' : CsrId} (h : id.number = id'.number) : id = id' :=
  Option.some.inj ((csrOfNumber_number id).symm.trans (csrOfNumber_eq_some.2 h))

/-- The registers CSRW can write are CSRs 0 to 10 (R28). -/
theorem csrReadOnly_eq_false {id : CsrId} : csrReadOnly id = false ↔ id.number ≤ 10 := by
  cases id <;> decide

/-- The registers a commit locks are CSRs 0 to 9 (R28). -/
theorem csrLockable_iff {id : CsrId} : csrLockable id = true ↔ id.number ≤ 9 := by
  cases id <;> decide

/-- The table lists what each register reads as, in the order of the numbers (R28). -/
theorem csrTable_getD (s : State) (id : CsrId) : (csrTable s).getD id.number 0 = s.csrValue id := by
  cases id <;> rfl

theorem exec_csrr (h : 1 ≤ s.input.length) (id : CsrId) :
    exec (.csrr id.number) s = .next (s.answered 0 0x00 [.csr (s.csrValue id)]) := by
  change execCsrr id.number s = _
  rw [execCsrr, runCommand_ungated (n := 0) h, csrOfNumber_number]
  simp only [csrValue_consume]
  rfl

/-- A reserved number raises `IndexOutOfRange` (R323). -/
theorem exec_csrr_reserved {n : Nat} (h : 1 ≤ s.input.length) (hn : 13 ≤ n) :
    exec (.csrr n) s = .next (if s.fault = true then s.answered 0 0x24 [] else s.faultedWith 0 0x24) := by
  change execCsrr n s = _
  rw [execCsrr, runCommand_ungated (n := 0) h, csrOfNumber_none hn]
  exact congrArg _ (report_consume_any rfl)

/-- Settles O18: the number names the register that the table lists at it. -/
theorem csrrReadsOneRegister : Obligations.CsrrReadsOneRegister := by
  intro s n h
  refine ⟨fun hn => ?_, rfl, exec_csrr_reserved h⟩
  obtain ⟨id, rfl⟩ := exists_number hn
  exact ⟨id, csrOfNumber_number id, (csrTable_getD s id).symm, exec_csrr h id⟩

/-- What CSRW does, its checks in their order (R322). -/
theorem exec_csrw (h : Ready s 1) (id : CsrId) :
    exec (.csrw id.number) s = .next
      (if csrReadOnly id = true then s.faultedWith 1 0x20
      else if (csrLockable id && s.pvalid) = true then s.faultedWith 1 0x23
      else if 2 ^ csrWidth id ≤ ((s.payload 1).headD 0).toNat then s.faultedWith 1 0x27
      else (s.setCsr (s.csr.write ((s.payload 1).headD 0) id)).answered 1 0x00 []) := by
  have fault := fun c (hc : Code.isSignal c = false) => report_consume_fault (n := 1) h.1 hc
  change execCsrw id.number s = _
  rw [execCsrw, runCommand_ready h, csrOfNumber_number]
  simp only [State.consume_pvalid, itemOfBeats]
  by_cases hr : csrReadOnly id = true
  · simp only [hr, if_true]; exact congrArg _ (fault .illegalCommand rfl)
  by_cases hl : (csrLockable id && s.pvalid) = true
  · simp only [hr, hl, if_true]; exact congrArg _ (fault .paramsLocked rfl)
  by_cases hv : 2 ^ csrWidth id ≤ ((s.payload 1).headD 0).toNat
  · simp only [hr, hl, hv, if_true]; exact congrArg _ (fault .illegalValue rfl)
  · simp only [hr, hl, hv, if_false]; rfl

/-- A reserved number raises `IndexOutOfRange` (R322). -/
theorem exec_csrw_reserved {n : Nat} (h : Ready s 1) (hn : 13 ≤ n) :
    exec (.csrw n) s = .next (s.faultedWith 1 0x24) := by
  change execCsrw n s = _
  rw [execCsrw, runCommand_ready h, csrOfNumber_none hn]
  exact congrArg _ (report_consume_fault h.1 rfl)

/-- A value that fits the field reads back as itself (R28). -/
theorem setWidth_setWidth_of_lt {v : BitVec 64} {w : Nat} (h : v.toNat < 2 ^ w) :
    (v.setWidth w).setWidth 64 = v := by
  apply BitVec.eq_of_toNat_eq
  simp only [BitVec.toNat_setWidth, Nat.mod_eq_of_lt h, Nat.mod_eq_of_lt v.isLt]

theorem csrValue_write_same {id : CsrId} {v : BitVec 64} (hr : csrReadOnly id = false)
    (hv : v.toNat < 2 ^ csrWidth id) : (s.setCsr (s.csr.write v id)).csrValue id = v := by
  cases id
  case status | geom => cases hr
  case alpha | hlen => rfl
  all_goals exact setWidth_setWidth_of_lt hv

theorem csrValue_write_other {id id' : CsrId} (v : BitVec 64) (h : id' ≠ id) :
    (s.setCsr (s.csr.write v id)).csrValue id' = s.csrValue id' := by
  cases id <;> cases id' <;> first | rfl | exact absurd rfl h

/-- What the control registers read as after CSRW has written one of them (R322). -/
theorem csrValue_write {id : CsrId} {v : BitVec 64} (hr : csrReadOnly id = false) (hv : v.toNat < 2 ^ csrWidth id)
    (id' : CsrId) :
    (s.setCsr (s.csr.write v id)).csrValue id' = if id'.number = id.number then v else s.csrValue id' := by
  split
  · next h => rw [number_injective h]; exact csrValue_write_same hr hv
  · next h => exact csrValue_write_other v fun he => h (by rw [he])

theorem csrWidth_getD {id : CsrId} (h : id.number ≤ 10) :
    [2, 16, 16, 64, 2, 16, 16, 1, 16, 16, 64].getD id.number 0 = csrWidth id := by
  cases id
  case status | geom => exact absurd h (by decide)
  all_goals rfl

/-- A writable register that the commit does not lock now passes the checks for locking (R29). -/
theorem csrLocked_eq_false {id : CsrId} (h : id.number = 10 ∨ s.pvalid = false) :
    (csrLockable id && s.pvalid) = false := by
  rcases h with h | h
  · have : csrLockable id = false := Bool.eq_false_iff.2 fun hl => by have := csrLockable_iff.1 hl; omega
    simp [this]
  · simp [h]

/-- Settles O17: the register written is the one of that number, and the faults come in the order of the checks. -/
theorem csrwWritesOneRegister : Obligations.CsrwWritesOneRegister := by
  intro s n h v width
  refine ⟨fun hn hl hv => ?_, ?_, exec_csrw_reserved h, fun hn hp => ?_, fun hn hl hv => ?_⟩
  · obtain ⟨id, rfl⟩ := exists_number (Nat.le_trans hn (by decide))
    have hr := csrReadOnly_eq_false.2 hn
    have hw : v.toNat < 2 ^ csrWidth id := csrWidth_getD hn ▸ hv
    have value := csrValue_write (s := s) hr hw
    refine ⟨_, exec_csrw h id, ?_⟩
    rw [if_neg (by simp [hr]), if_neg (by simp [csrLocked_eq_false hl]), if_neg (Nat.not_le.2 hw)]
    refine ⟨rfl, fun m id' _ hid => ?_, fun m hm => ?_⟩
    · rw [csrOfNumber_eq_some.1 hid]; exact value id'
    · obtain ⟨id', rfl⟩ := exists_number (Nat.le_trans hm (by decide))
      rw [csrTable_getD, csrTable_getD]; exact value id'
  · rintro (rfl | rfl)
    · exact exec_csrw h .status
    · exact exec_csrw h .geom
  · obtain ⟨id, rfl⟩ := exists_number (Nat.le_trans hn (by decide))
    have hr := csrReadOnly_eq_false.2 (Nat.le_trans hn (by decide))
    rw [exec_csrw h, if_neg (by simp [hr]), if_pos (by simp [csrLockable_iff.2 hn, hp])]
  · obtain ⟨id, rfl⟩ := exists_number (Nat.le_trans hn (by decide))
    have hr := csrReadOnly_eq_false.2 hn
    have hw : 2 ^ csrWidth id ≤ v.toNat := csrWidth_getD hn ▸ hv
    rw [exec_csrw h, if_neg (by simp [hr]), if_neg (by simp [csrLocked_eq_false hl]), if_pos hw]

-- O19: the bits of STATUS and GEOM

theorem Mode.bit_le_one (m : Mode) : m.bit ≤ 1 := by cases m <;> decide

theorem statusWord_toNat (s : State) : s.statusWord.toNat = s.pvalid.toNat + 2 * s.mode.bit + 4 * s.fault.toNat
    + 2 ^ 8 * s.err.toNat + 2 ^ 16 * (s.bufCount % 2 ^ 16) := by
  have he := s.err.isLt
  have hp := s.pvalid.toNat_le
  have hf := s.fault.toNat_le
  have hm := s.mode.bit_le_one
  rw [State.statusWord, BitVec.toNat_ofNat, Nat.mod_eq_of_lt (by omega)]

theorem geomWord_toNat (s : State) : s.geomWord.toNat
    = s.geom.W % 2 ^ 16 + 2 ^ 16 * (s.geom.R % 2 ^ 16) + 2 ^ 32 * (s.geom.limbs % 2 ^ 16) := by
  rw [State.geomWord, BitVec.toNat_ofNat, Nat.mod_eq_of_lt (by omega)]

/-- A bit of a word as arithmetic. -/
theorem getLsbD_eq_iff {w : Nat} {v : BitVec w} {k : Nat} {b : Bool} :
    v.getLsbD k = b ↔ v.toNat / 2 ^ k % 2 = b.toNat := by
  rw [← Nat.toNat_testBit, BitVec.getLsbD]
  cases v.toNat.testBit k <;> cases b <;> decide

/-- A field of a word as arithmetic (R11). -/
theorem extractLsb'_eq_iff {w lo n : Nat} {v : BitVec w} {x : BitVec n} :
    v.extractLsb' lo n = x ↔ v.toNat / 2 ^ lo % 2 ^ n = x.toNat := by
  rw [← BitVec.toNat_inj, BitVec.extractLsb'_toNat, Nat.shiftRight_eq_div_pow]

theorem toNat_decide_squeezing (m : Mode) : (decide (m = .squeezing)).toNat = m.bit := by cases m <;> rfl

/-- A word has no bits from the first power of two above its value on. -/
theorem div_mod_two_eq_zero {a n k : Nat} (h : a < 2 ^ n) (hk : n ≤ k) : a / 2 ^ k % 2 = 0 := by
  rw [Nat.div_eq_of_lt (h.trans_le (Nat.pow_le_pow_right (by decide) hk))]

/-- Settles O19: every field is read off from the sum of the fields. -/
theorem statusAndGeomLayout : Obligations.StatusAndGeomLayout := by
  intro s
  have hp := s.pvalid.toNat_le
  have hf := s.fault.toNat_le
  have he := s.err.isLt
  have hm := s.mode.bit_le_one
  simp only [State.csrValue, getLsbD_eq_iff, extractLsb'_eq_iff, toNat_decide_squeezing, statusWord_toNat,
    geomWord_toNat, State.bufCount, BitVec.toNat_ofNat, Bool.toNat_false]
  refine ⟨by omega, by omega, by omega, by omega, by omega, fun k hk => ?_, by omega, by omega, by omega,
    fun k hk => div_mod_two_eq_zero (by omega) hk⟩
  rcases hk with ⟨hlo, hhi⟩ | hk
  · interval_cases k <;> omega
  · exact div_mod_two_eq_zero (by omega) hk

-- O28: FPOW

/-- The value of the limbs as the sum of their weights (R63, R65). -/
theorem limbsValue_map_range (f : Nat → Nat) (n : Nat) :
    limbsValue ((List.range n).map f) = ((List.range n).map fun i => f i * 2 ^ (64 * i)).sum := by
  induction n generalizing f with
  | zero => rfl
  | succ n ih =>
    have weight : ∀ i, f (i + 1) * 2 ^ (64 * (i + 1)) = 2 ^ 64 * (f (i + 1) * 2 ^ (64 * i)) := fun i => by ring
    rw [List.range_succ_eq_map, List.map_cons, List.map_map, limbsValue, ih]
    simp only [List.map_cons, List.sum_cons, List.map_map, Function.comp_def, Nat.succ_eq_add_one, weight,
      List.sum_map_mul_left]
    simp

/-- What FPOW does on registers in range (R135). -/
theorem exec_fpow {d a : Nat} (h : Ready s 0) (hd : d < s.geom.W) (ha : a < s.geom.W) :
    exec (.fpow d a) s = .next
      (if s.pvalid = false then s.faultedWith 0 0x22
      else (s.setReg d (fieldPow s.geom.P (s.reg a) s.expValue)).answered 0 0x00 []) := by
  have hreg : (s.regOk d && s.regOk a) = true := by simp [State.regOk, hd, ha]
  change execFpow d a s = _
  rw [execFpow, runCommand_ready h]
  simp only [regOk_consume, hreg, State.consume_pvalid, Bool.not_true, Bool.false_eq_true, if_false, Bool.not_eq_true']
  by_cases hp : s.pvalid = false
  · simp only [if_pos hp]; exact congrArg _ (report_consume_fault h.1 rfl)
  · simp only [if_neg hp]; rfl

/-- Settles O28: square-and-multiply computes the power, and the limbs' value is the sum of their weights. -/
theorem fpowRaisesToExp : Obligations.FpowRaisesToExp := by
  intro s d a hP h hd ha e
  have he : s.expValue = e := limbsValue_map_range _ _
  refine ⟨fun hp => ?_, fun hp => ?_⟩
  · rw [exec_fpow h hd ha, if_neg (by simp [hp]), fieldPow_eq hP, he]; rfl
  · rw [exec_fpow h hd ha, if_pos hp]

end Sys2Proof.Machine

/-! PROOF of O4, O20, O21 and O22. The words that the spec writes out, the formats of the parameter spaces, and what PWR
and PRD do with the checks in their order. -/

namespace Sys2Proof.Machine

variable {s : State}

-- O4: the words of the spec

/-- Settles O4: closed facts, one evaluation of the decoder for each group of the opcode map. -/
theorem specWordsDecode : Obligations.SpecWordsDecode := by
  refine ⟨?hostCommands, ?fieldCommands, ?sboxCommands, ?layerCommands, ?spongeCommands, ?spacesAtPwr, ?spacesAtPrd,
    ?strategiesAtHash, ?strategiesAtDcap, ?strategiesAtDpad, ?chainSteps⟩
  all_goals decide

-- O20: the formats of the parameter spaces

/-- What the host sends for a value is as many limbs as it was asked for (R63). -/
@[simp] theorem beatsOfElem_length (n v : Nat) : (beatsOfElem n v).length = n := by
  induction n generalizing v with
  | zero => rfl
  | succ n ih => rw [beatsOfElem, List.length_cons, ih]

/-- What the host sends for a value that fits its limbs is read back as that value (R63). -/
theorem elemOfBeats_beatsOfElem {n v : Nat} (h : v < 2 ^ (64 * n)) : elemOfBeats (beatsOfElem n v) = v := by
  induction n generalizing v with
  | zero => exact (Nat.lt_one_iff.1 h).symm
  | succ n ih =>
    have hrest : v / 2 ^ 64 < 2 ^ (64 * n) := by
      rw [Nat.div_lt_iff_lt_mul (by decide), ← pow_add]
      exact h
    calc elemOfBeats (beatsOfElem (n + 1) v)
        = v % 2 ^ 64 + 2 ^ 64 * elemOfBeats (beatsOfElem n (v / 2 ^ 64)) := rfl
      _ = v % 2 ^ 64 + 2 ^ 64 * (v / 2 ^ 64) := by rw [ih hrest]
      _ = v := Nat.mod_add_div v (2 ^ 64)

/-- The value of an element is the sum of its limbs' weights (R63). -/
theorem elemOfBeats_eq_sum (bs : List Beat) :
    elemOfBeats bs = ((List.range bs.length).map fun i => (bs.getD i 0).toNat * 2 ^ (64 * i)).sum := by
  have hlimbs : bs.map BitVec.toNat = (List.range bs.length).map fun i => (bs.getD i 0).toNat := by
    refine List.ext_getElem (by simp) fun i hi _ => ?_
    have hlt : i < bs.length := by simpa using hi
    simp [hlt]
  rw [elemOfBeats, hlimbs, limbsValue_map_range]

/-- Spaces 0 to 6 hold field elements (R61). -/
theorem elementSpace_format {sp : Space} (h : holdsElements sp = true) :
    (∀ bs, entryOfBeats sp bs = elemOfBeats bs) ∧ ∀ v, entryItem sp v = .elem v := by
  cases sp
  case exp | chain => cases h
  all_goals exact ⟨fun _ => rfl, fun _ => rfl⟩

/-- Settles O20: an element is the sum of its limbs and is read back from them; a limb and a step word are read back
from the one transfer that carries them. -/
theorem spaceFormats : Obligations.SpaceFormats := by
  refine ⟨fun g => ⟨rfl, rfl⟩, elemOfBeats_eq_sum, fun n v hv => ⟨beatsOfElem_length n v, elemOfBeats_beatsOfElem hv⟩,
    fun sp hsp => ?_, ⟨rfl, rfl⟩, fun b bs => ⟨rfl, BitVec.toNat_setWidth 32 b⟩, fun b => ?_, fun w => ?_⟩
  · have hold : holdsElements sp = true := by revert sp; decide
    exact ⟨hold, elementSpace_format hold⟩
  · simp only [entryItem, BitVec.ofNat_toNat, BitVec.setWidth_eq]
  · simp only [entryItem, BitVec.ofNat_toNat, BitVec.setWidth_eq]

-- O21: PWR

/-- What the canonicity check of PWR asks for (R129, R324). -/
theorem pwr_refuses_iff {P x : Nat} {sp : Space} :
    (holdsElements sp && !canonical P x) = true ↔ holdsElements sp = true ∧ P ≤ x := by
  simp [canonical]

/-- What PWR of the value `x`, sent in `n` transfers, does, its checks in their order (R324). -/
theorem exec_pwr {sp : Space} {idx n x : Nat} (h : Ready s n) (hn : entryBeats s.geom sp = n)
    (hx : entryOfBeats sp (s.payload n) = x) :
    exec (.pwr sp idx) s = .next
      (if entryCount s.geom sp ≤ idx then s.faultedWith n 0x24
      else if holdsElements sp = true ∧ s.geom.P ≤ x then s.faultedWith n 0x21
      else if s.pvalid = true then s.faultedWith n 0x23
      else (s.setEntry sp idx x).answered n 0x00 []) := by
  have fault := fun c (hc : Code.isSignal c = false) => report_consume_fault (n := n) h.1 hc
  change execPwr sp idx s = _
  rw [execPwr, hn, runCommand_ready h, hx]
  simp only [State.consume_geom, State.consume_pvalid, pwr_refuses_iff]
  by_cases hi : entryCount s.geom sp ≤ idx
  · simp only [hi, if_true]; exact congrArg _ (fault .indexOutOfRange rfl)
  by_cases hc : holdsElements sp = true ∧ s.geom.P ≤ x
  · simp only [hi, hc, if_true, and_self, if_false]; exact congrArg _ (fault .nonCanonicalOperand rfl)
  by_cases hp : s.pvalid = true
  · simp only [hi, hc, hp, if_true, if_false]; exact congrArg _ (fault .paramsLocked rfl)
  · simp only [hi, hc, hp, if_false]; rfl

/-- What every entry of every space reads as after one of them is written (R62). -/
theorem State.entry_setEntry {sp : Space} (h : (s.params.get sp).wf) (idx v : Nat) (sp' : Space) (idx' : Nat) :
    (s.setEntry sp idx v).entry sp' idx' = if sp' = sp ∧ idx' = idx then v else s.entry sp' idx' := by
  split
  · next he => obtain ⟨rfl, rfl⟩ := he; exact entry_setEntry_same h _ v
  · next he => exact entry_setEntry_other s v he

/-- Settles O21: the entry written is the one addressed, and the faults come in the order of the checks. -/
theorem pwrWritesOneEntry : Obligations.PwrWritesOneEntry := by
  intro s sp idx hwf h n x
  have pwr := exec_pwr (sp := sp) (idx := idx) (n := n) (x := x) h rfl rfl
  have inside : idx < entryCount s.geom sp → ¬ entryCount s.geom sp ≤ idx := Nat.not_le.2
  have accepted : (holdsElements sp = true → x < s.geom.P) → ¬ (holdsElements sp = true ∧ s.geom.P ≤ x) :=
    fun hx ⟨he, hle⟩ => Nat.not_le.2 (hx he) hle
  refine ⟨fun hi hx hp => ⟨_, pwr, ?_⟩, fun hi => ?_, fun hi he hx => ?_, fun hi hx hp => ?_⟩
  · rw [if_neg (inside hi), if_neg (accepted hx), if_neg (by simp [hp])]
    exact ⟨rfl, State.entry_setEntry hwf idx x⟩
  · rw [pwr, if_pos hi]
  · rw [pwr, if_neg (inside hi), if_pos ⟨he, hx⟩]
  · rw [pwr, if_neg (inside hi), if_neg (accepted hx), if_pos hp]

-- O22: PRD

/-- What PRD does: the fault gate does not stop it, and a recorded fault outlives its own (R325, R356, R357). -/
theorem exec_prd {sp : Space} {idx : Nat} (h : 1 ≤ s.input.length) :
    exec (.prd sp idx) s = .next
      (if idx < entryCount s.geom sp then s.answered 0 0x00 [entryItem sp (s.entry sp idx)]
      else if s.fault = true then s.answered 0 0x24 [] else s.faultedWith 0 0x24) := by
  change execPrd sp idx s = _
  rw [execPrd, runCommand_ungated (n := 0) h]
  simp only [State.consume_geom, entry_consume]
  by_cases hi : idx < entryCount s.geom sp
  · simp only [hi, Nat.not_le.2 hi, if_true, if_false]; rfl
  · simp only [hi, Nat.not_lt.1 hi, if_true, if_false]; exact congrArg _ (report_consume_any rfl)

/-- Settles O22: an entry of the space is answered, and past the last one PRD raises `IndexOutOfRange`. -/
theorem prdReadsOneEntry : Obligations.PrdReadsOneEntry := by
  intro s sp idx h
  refine ⟨fun hi => ?_, fun hi => ?_⟩
  · rw [exec_prd h, if_pos hi]
  · rw [exec_prd h, if_neg (Nat.not_lt.2 hi)]

end Sys2Proof.Machine

/-! PROOF of O1, O2, O3 and O5. How the decoder reads the words of each format, once from the side of the encoder and
once from the side of the word; which words no format reads. -/

namespace Sys2Proof.Machine

-- O1: the words that the encoder writes, format by format. `hread` says which format the opcode has.

section
variable {op : Nat}

theorem decode_wordN {c : Instr} (hread : ∀ w, bitField w 7 0 = op → decode w = decodeN w c) (ho : op < 2 ^ 8) :
    decode (wordN op) = .ok c := by
  obtain ⟨hop, hzero⟩ := bitField_wordN ho
  rw [hread _ hop, decodeN, if_pos hzero]

theorem decode_wordI {make : Nat → Instr} {imm : Nat}
    (hread : ∀ w, bitField w 7 0 = op → decode w = decodeI w make) (ho : op < 2 ^ 8) (hi : fitsImm imm = true) :
    decode (wordI op 0 imm) = .ok (make imm) := by
  obtain ⟨hop, hsel, himm⟩ := bitField_wordI (sel := 0) ho (by decide) (of_decide_eq_true hi)
  rw [hread _ hop, decodeI, if_pos hsel, himm]

theorem decode_wordI_space {make : Space → Nat → Instr} {sp : Space} {imm : Nat}
    (hread : ∀ w, bitField w 7 0 = op → decode w = decodeSpace w make) (ho : op < 2 ^ 8) (hi : fitsImm imm = true) :
    decode (wordI op sp.code imm) = .ok (make sp imm) := by
  have hcode : sp.code < 2 ^ 4 := sp.code_lt.trans (by decide)
  obtain ⟨hop, hsel, himm⟩ := bitField_wordI ho hcode (of_decide_eq_true hi)
  simp only [hread _ hop, decodeSpace, hsel, Space.ofCode_code, himm]

theorem decode_wordI_strategy {make : Strategy → Instr} {st : Strategy}
    (hread : ∀ w, bitField w 7 0 = op → decode w = decodeStrategy w make) (ho : op < 2 ^ 8) :
    decode (wordI op st.code 0) = .ok (make st) := by
  have hcode : st.code < 2 ^ 4 := st.code_lt.trans (by decide)
  obtain ⟨hop, hsel, himm⟩ := bitField_wordI (imm := 0) ho hcode (by decide)
  simp only [hread _ hop, decodeStrategy, himm, if_true, hsel, Strategy.ofCode_code]

theorem decode_wordT3 {make : Nat → Nat → Nat → Instr} {d a b : Nat}
    (hread : ∀ w, bitField w 7 0 = op → decode w = decodeT3 w make) (ho : op < 2 ^ 8)
    (hr : (fitsReg d && fitsReg a && fitsReg b) = true) : decode (wordT op d a b) = .ok (make d a b) := by
  simp only [fitsReg, Bool.and_eq_true, decide_eq_true_eq] at hr
  obtain ⟨⟨hd, ha⟩, hb⟩ := hr
  obtain ⟨hop, hd, ha, hb⟩ := bitField_wordT ho hd ha hb
  rw [hread _ hop, decodeT3, hd, ha, hb]

theorem decode_wordT2 {make : Nat → Nat → Instr} {d a : Nat}
    (hread : ∀ w, bitField w 7 0 = op → decode w = decodeT2 w make) (ho : op < 2 ^ 8)
    (hr : (fitsReg d && fitsReg a) = true) : decode (wordT op d a 0) = .ok (make d a) := by
  simp only [fitsReg, Bool.and_eq_true, decide_eq_true_eq] at hr
  obtain ⟨hd, ha⟩ := hr
  obtain ⟨hop, hd, ha, hb⟩ := bitField_wordT ho hd ha (b := 0) (by decide)
  rw [hread _ hop, decodeT2, if_pos hb, hd, ha]

end

/-- Settles O1: the opcode gives the format back, and the format its operands. -/
theorem decodeEncodeCommands : Obligations.DecodeEncodeCommands := by
  intro i hwf hc
  cases i with
  | nop | rst | pcommit | sbf | sbi | mds | mpr | exl | inl | permute | spnew | absorb | squeeze =>
    exact decode_wordN (fun _ hop => by simp only [decode, hop]) (by decide)
  | csrw | csrr | swr | srd | sbfe | sbie | arc | arc0 | arco | arco0 | spm | absorbn | squeezen =>
    exact decode_wordI (fun _ hop => by simp only [decode, hop]) (by decide) hwf
  | pwr | prd => exact decode_wordI_space (fun _ hop => by simp only [decode, hop]) (by decide) hwf
  | hash | dcap | dpad => exact decode_wordI_strategy (fun _ hop => by simp only [decode, hop]) (by decide)
  | fadd | fsub | fmul => exact decode_wordT3 (fun _ hop => by simp only [decode, hop]) (by decide) hwf
  | fneg | fsqr | fpow | finv => exact decode_wordT2 (fun _ hop => by simp only [decode, hop]) (by decide) hwf
  | chDbl | chAdd => cases hc

-- O2: chain step words

/-- Settles O2: kind, reserved bit and indices are the fields of the step word. -/
theorem decodeEncodeChainSteps : Obligations.DecodeEncodeChainSteps := by
  intro st hwf
  cases st with
  | double index =>
    have hi : index < 2 ^ 15 := of_decide_eq_true hwf
    obtain ⟨hkind, hzero, hright, hleft⟩ := bitField_wordStep (kind := 0) (right := 0) (by decide) (by decide) hi
    simp only [ChainStep.toInstr, encode, decodeStep, hkind, hzero, hright, hleft, ne_eq, not_true, if_true, if_false]
  | add left right =>
    simp only [ChainStep.toInstr, Instr.wellFormed, fitsStepIndex, Bool.and_eq_true, decide_eq_true_eq] at hwf
    obtain ⟨hl, hr⟩ := hwf
    obtain ⟨hkind, hzero, hright, hleft⟩ := bitField_wordStep (kind := 1) (by decide) hr hl
    simp only [ChainStep.toInstr, encode, decodeStep, hkind, hzero, hright, hleft, ne_eq, not_true, if_false,
      one_ne_zero]

-- O3: a field holds what fits it

theorem bitField_lt (w : Word) (hi lo : Nat) : bitField w hi lo < 2 ^ (hi + 1 - lo) :=
  Nat.mod_lt _ (Nat.two_pow_pos _)

theorem fitsImm_bitField (w : Word) : fitsImm (bitField w 31 12) = true := decide_eq_true (bitField_lt w 31 12)

theorem fitsReg_bitField (w : Word) :
    fitsReg (bitField w 15 8) = true ∧ fitsReg (bitField w 23 16) = true ∧ fitsReg (bitField w 31 24) = true :=
  ⟨decide_eq_true (bitField_lt w 15 8), decide_eq_true (bitField_lt w 23 16), decide_eq_true (bitField_lt w 31 24)⟩

theorem fitsStepIndex_bitField (w : Word) :
    fitsStepIndex (bitField w 14 0) = true ∧ fitsStepIndex (bitField w 29 15) = true :=
  ⟨decide_eq_true (bitField_lt w 14 0), decide_eq_true (bitField_lt w 29 15)⟩

/-- Every operand that the decoder reads fits the field it is read from (R94, R95). -/
theorem wellFormed_of_decode {w : Word} {i : Instr} (h : decode w = .ok i) : i.wellFormed = true := by
  have himm := fitsImm_bitField w
  obtain ⟨hd, ha, hb⟩ := fitsReg_bitField w
  unfold decode decodeN decodeI decodeSpace decodeStrategy decodeT2 decodeT3 at h
  repeat' split at h
  all_goals cases h
  all_goals simp only [Instr.wellFormed, himm, hd, ha, hb, Bool.and_self]

/-- Every index that the step decoder reads fits its field, and the fields are the whole word (R105). -/
theorem encode_of_decodeStep {w : Word} {st : ChainStep} (h : decodeStep w = .ok st) :
    st.toInstr.wellFormed = true ∧ encode st.toInstr = w := by
  obtain ⟨hleft, hright⟩ := fitsStepIndex_bitField w
  unfold decodeStep at h
  split at h
  · cases h
  next hzero =>
    have hword := wordStep_of_fields (not_not.1 hzero)
    split at h
    · next hkind =>
      split at h <;> cases h
      next hr => exact ⟨hleft, by rwa [hkind, hr] at hword⟩
    · next hkind =>
      cases h
      have hone : bitField w 31 31 = 1 := by
        have := bitField_lt w 31 31
        omega
      refine ⟨?_, by rwa [hone] at hword⟩
      simp only [ChainStep.toInstr, Instr.wellFormed, hleft, hright, Bool.and_self]

/-- Settles O3: what a decoder answers fits its fields, and these make up the word again. -/
theorem legalWordsHaveOneMeaning : Obligations.LegalWordsHaveOneMeaning :=
  ⟨fun _ _ h => ⟨decode_isCommand h, wellFormed_of_decode h, encode_of_decode h⟩, fun _ _ => encode_of_decodeStep⟩

-- O5: the words that no format reads

-- The opcodes of each format (R93 to R96, R100)

def noOperandOpcodes : List Nat := [0x00, 0x01, 0x06, 0x20, 0x22, 0x2C, 0x2D, 0x2F, 0x30, 0x38, 0x40, 0x41, 0x43]
def immediateOpcodes : List Nat := [0x02, 0x03, 0x08, 0x09, 0x21, 0x23, 0x28, 0x29, 0x2A, 0x2B, 0x2E, 0x42, 0x44]
def spaceOpcodes : List Nat := [0x04, 0x05]
def threeRegisterOpcodes : List Nat := [0x10, 0x11, 0x13]
def twoRegisterOpcodes : List Nat := [0x12, 0x14, 0x15, 0x16]
def strategyOpcodes : List Nat := [0x45, 0x46, 0x47]

/-- The fields of an illegal word: opcode, bits 31:8, selector, immediate and second source (R101, R102). -/
def IllegalFields (op rest sel imm b : Nat) : Prop :=
  op ∉ noOperandOpcodes ++ immediateOpcodes ++ spaceOpcodes ++ threeRegisterOpcodes ++ twoRegisterOpcodes
      ++ strategyOpcodes ∨
    (op ∈ noOperandOpcodes ∧ rest ≠ 0) ∨ (op ∈ immediateOpcodes ∧ sel ≠ 0) ∨ (op ∈ spaceOpcodes ∧ 9 ≤ sel) ∨
    (op ∈ twoRegisterOpcodes ∧ b ≠ 0) ∨ (op ∈ strategyOpcodes ∧ (imm ≠ 0 ∨ 5 ≤ sel))

/-- The space codes from 9 on are reserved (R61). -/
theorem space_ofCode_eq_none {n : Nat} : Space.ofCode n = none ↔ 9 ≤ n := by
  constructor
  · intro h
    by_contra hn
    interval_cases n <;> cases h
  · intro h
    obtain ⟨k, rfl⟩ := Nat.exists_eq_add_of_le' h
    rfl

/-- The strategy codes from 5 on are reserved (R96). -/
theorem strategy_ofCode_eq_none {n : Nat} : Strategy.ofCode n = none ↔ 5 ≤ n := by
  constructor
  · intro h
    by_contra hn
    interval_cases n <;> cases h
  · intro h
    obtain ⟨k, rfl⟩ := Nat.exists_eq_add_of_le' h
    rfl

-- What makes a word of each format illegal

section
variable {w : Word}

theorem decodeN_error {c : Instr} : (∃ e, decodeN w c = .error e) ↔ bitField w 31 8 ≠ 0 := by
  unfold decodeN; split <;> simp [*]

theorem decodeI_error {make : Nat → Instr} : (∃ e, decodeI w make = .error e) ↔ bitField w 11 8 ≠ 0 := by
  unfold decodeI; split <;> simp [*]

theorem decodeSpace_error {make : Space → Nat → Instr} :
    (∃ e, decodeSpace w make = .error e) ↔ 9 ≤ bitField w 11 8 := by
  rw [← space_ofCode_eq_none]
  unfold decodeSpace; split <;> simp [*]

theorem decodeStrategy_error {make : Strategy → Instr} :
    (∃ e, decodeStrategy w make = .error e) ↔ bitField w 31 12 ≠ 0 ∨ 5 ≤ bitField w 11 8 := by
  rw [← strategy_ofCode_eq_none]
  unfold decodeStrategy; split
  · split <;> simp [*]
  · simp [*]

theorem decodeT3_error {make : Nat → Nat → Nat → Instr} : ¬ ∃ e, decodeT3 w make = .error e := by
  simp [decodeT3]

theorem decodeT2_error {make : Nat → Nat → Instr} : (∃ e, decodeT2 w make = .error e) ↔ bitField w 31 24 ≠ 0 := by
  unfold decodeT2; split <;> simp [*]

/-- Which words are illegal: the decoder's arms, each with its opcode (R101, R102). -/
theorem decode_error_iff : (∃ e, decode w = .error e) ↔
    IllegalFields (bitField w 7 0) (bitField w 31 8) (bitField w 11 8) (bitField w 31 12) (bitField w 31 24) := by
  unfold decode
  split <;> rename_i hop
  case h_39 =>
    refine iff_of_true ⟨_, rfl⟩ (.inl fun hmem => ?_)
    simp only [noOperandOpcodes, immediateOpcodes, spaceOpcodes, threeRegisterOpcodes, twoRegisterOpcodes,
      strategyOpcodes, List.cons_append, List.nil_append, List.mem_cons, List.not_mem_nil, or_false] at hmem
    grind
  all_goals
    simp [hop, decodeN_error, decodeI_error, decodeSpace_error, decodeStrategy_error, decodeT3_error, decodeT2_error,
      IllegalFields, noOperandOpcodes, immediateOpcodes, spaceOpcodes, threeRegisterOpcodes, twoRegisterOpcodes,
      strategyOpcodes]

end

/-- A field by its highest and lowest bit is the slice by its lowest bit and its width. -/
theorem bitField_eq_extractLsb' (w : Word) {hi lo n : Nat} (h : hi + 1 - lo = n) :
    bitField w hi lo = (w.extractLsb' lo n).toNat := by
  rw [BitVec.extractLsb'_toNat, Nat.shiftRight_eq_div_pow, bitField, h]

-- What an illegal word does

/-- The opcodes that the fault gate does not stop (R357). -/
theorem ungatedOpcode_iff {op : Nat} : ungatedOpcode op = true ↔ op ∈ [0x01, 0x03, 0x05, 0x09] := by
  simp [ungatedOpcode, or_assoc]

/-- An illegal word answers, and on a healthy engine it records the fault (R102, R356, R360). -/
theorem illegalWord_eq (s : State) (w : Word) : s.illegalWord w =
    if s.fault = true then s.answered 0 (if bitField w 7 0 ∈ [0x01, 0x03, 0x05, 0x09] then 0x20 else 0x26) []
    else s.faultedWith 0 0x20 := by
  unfold State.illegalWord
  cases hf : s.fault with
  | false => exact raise_consume s 0 .illegalCommand hf
  | true =>
    rw [raise_consume_faulted s 0 _ hf]
    by_cases hop : bitField w 7 0 ∈ [0x01, 0x03, 0x05, 0x09]
    · simp [ungatedOpcode_iff.2 hop, hop]; rfl
    · simp [Bool.eq_false_iff.2 (mt ungatedOpcode_iff.1 hop), hop]; rfl

/-- Settles O5: the decoder answers an error on exactly the illegal fields, and its command on all others. -/
theorem illegalWords : Obligations.IllegalWords := by
  intro s w ha hw
  have hillegal := decode_error_iff (w := w)
  have hword := illegalWord_eq s w
  rw [bitField_eq_extractLsb' w (hi := 31) (lo := 8) rfl, bitField_eq_extractLsb' w (hi := 11) rfl,
    bitField_eq_extractLsb' w (hi := 31) (lo := 12) rfl, bitField_eq_extractLsb' w (hi := 31) (lo := 24) rfl,
    bitField_eq_extractLsb' w (hi := 7) rfl] at hillegal
  rw [bitField_eq_extractLsb' w rfl] at hword
  intro op sel imm b noOperand immediate space threeRegisters twoRegisters strategy
  split
  · next h =>
    obtain ⟨e, he⟩ := hillegal.2 h
    rw [step_illegal ha hw he, hword]
  · next h =>
    rcases hd : decode w with e | i
    · exact absurd (hillegal.1 ⟨e, hd⟩) h
    · exact ⟨i, rfl, step_command ha hw hd⟩

end Sys2Proof.Machine

/-! PROOF of O6, O8, O30 and O45. What a step at the command port runs, the outcomes of a command, and the layer
commands of an expansion issued one by one. -/

namespace Sys2Proof.Machine

variable {s t : State}

-- O6: the word at the head of the stream

/-- A word stands in the low half of its transfer (R90; log 4). -/
theorem fetchWord_wordBeat {w : Word} {rest : List Beat} (h : s.input = wordBeat w :: rest) :
    s.fetchWord = some w := by
  simp [State.fetchWord, h, wordBeat]

/-- The engine runs the command that the host has encoded (R90). -/
theorem step_encoded {i : Instr} {rest : List Beat} (ha : s.activity = .idle) (hwf : i.wellFormed = true)
    (hi : i.isCommand = true) (hin : s.input = wordBeat (encode i) :: rest) : step s = exec i s :=
  step_command ha (fetchWord_wordBeat hin) (decodeEncodeCommands i hwf hi)

/-- Inside a run the interpreter runs the step word it takes next (R159). -/
theorem step_chain_exec {l : List Nat} {st : ChainStep} (ha : s.activity = .chain l)
    (hl : l.length - 1 < s.chainLen) (hd : decodeStep (s.chainWord (l.length - 1)) = .ok st) :
    step s = exec st.toInstr s := by
  have hfetch : s.fetchChainWord l = some (s.chainWord (l.length - 1)) := if_pos hl
  simp only [step, ha, chainStep, hfetch, hd]

/-- Settles O6: at the port the decoded command, inside a run the decoded step word. -/
theorem stepRunsTheInstruction : Obligations.StepRunsTheInstruction := by
  refine ⟨fun s w i => step_command, fun s i rest => step_encoded, fun s => step_waits, ?_,
    fun s l => step_chain_ends⟩
  rintro s l w st ha hl rfl hd
  exact step_chain_exec ha hl hd

-- O8: the outcomes of a command

/-- A signal or a fault on a healthy engine: a signal only answers, a fault is recorded (R354, R356). -/
theorem report_consume_healthy (h : s.fault = false) (n : Nat) (c : Code) :
    (s.consume (1 + n)).report c = if c.isSignal = true then s.answered n c.byte [] else s.faultedWith n c.byte := by
  split
  · next hs => exact report_consume_signal s n hs
  · next hs => exact report_consume_fault h (by simpa using hs)

/-- The bytes of the codes that a command's own checks end in, signals apart from faults (R351). -/
theorem byte_mem_of_mem_errorCodes : ∀ c ∈ errorCodes,
    if c.isSignal = true then c.byte ∈ ([0x01, 0x02] : List (BitVec 8))
    else c.byte ∈ ([0x10, 0x11, 0x20, 0x21, 0x22, 0x23, 0x24, 0x25, 0x27] : List (BitVec 8)) := by decide

/-- A command that ends in ok leaves a healthy engine healthy; RST does by resetting it (R50). -/
theorem BodyFrame.healthy {i : Instr} (hf : BodyFrame i s t) (h : s.fault = false) : t.fault = false := by
  by_cases hr : i = .rst
  · rw [hf.rst hr]; rfl
  · obtain ⟨hfault, -⟩ := hf.fault hr
    exact hfault.trans h

/-- Settles O8: the command shell gives one response, and the command's body says which. -/
theorem everyOutcomeIsPrecise : Obligations.EveryOutcomeIsPrecise := by
  intro s i hi
  obtain ⟨body, hrun, hok, herr⟩ := exec_shell i hi
  rw [hrun]
  refine ⟨runCommand_waits, fun h => ?_⟩
  rw [runCommand_ready h]
  rcases hb : body (s.consume (1 + payloadBeats s i)) (s.payload (payloadBeats s i)) with c | ⟨u, items⟩
  · have hbyte := byte_mem_of_mem_errorCodes c (herr _ _ _ hb)
    simp only [report_consume_healthy h.1]
    split at hbyte
    · next hs => exact .inr (.inl ⟨_, hbyte, by rw [if_pos hs]⟩)
    · next hs => exact .inr (.inr ⟨_, hbyte, by rw [if_neg hs]⟩)
  · have hf := hok _ _ _ _ hb
    refine .inl ⟨_, items, rfl, hf.healthy h.1, hf.input, ?_⟩
    rw [State.respond_output, hf.output]
    rfl

-- O30: register indices out of range

/-- A command whose first check finds an index out of range raises that fault (R103). -/
theorem runCommand_indexOutOfRange {body : State → List Beat → Except Code (State × List Item)} (h : Ready s 0)
    (hb : body (s.consume 1) (s.payload 0) = .error .indexOutOfRange) :
    runCommand true 0 body s = .next (s.faultedWith 0 0x24) := by
  rw [runCommand_ready h, hb]
  exact congrArg _ (report_consume_fault h.1 rfl)

/-- The first check of the two-register commands refuses an index out of range (R95). -/
theorem regOk_refuses {d a : Nat} (hi : s.geom.W ≤ d ∨ s.geom.W ≤ a) : (!(s.regOk d && s.regOk a)) = true := by
  simpa [State.regOk] using hi

theorem execFpow_indexOutOfRange {d a : Nat} (h : Ready s 0) (hi : s.geom.W ≤ d ∨ s.geom.W ≤ a) :
    execFpow d a s = .next (s.faultedWith 0 0x24) :=
  runCommand_indexOutOfRange h (by exact if_pos (regOk_refuses hi))

theorem execFinv_indexOutOfRange {d a : Nat} (h : Ready s 0) (hi : s.geom.W ≤ d ∨ s.geom.W ≤ a) :
    execFinv d a s = .next (s.faultedWith 0 0x24) :=
  runCommand_indexOutOfRange h (by exact if_pos (regOk_refuses hi))

/-- Settles O30: the index check is the first of every format T command. -/
theorem registerIndexFaults : Obligations.RegisterIndexFaults := by
  intro s d a b h
  refine ⟨fun hi => ?_, fun hi => ?_⟩
  · have fault (f) : twoRegister f d a s = .next (s.faultedWith 0 0x24) := by
      rw [twoRegister_ready h, if_neg (by omega)]
    exact ⟨fault fieldNeg, fault fieldSqr, execFpow_indexOutOfRange h hi, execFinv_indexOutOfRange h hi⟩
  · have fault (f) : threeRegister f d a b s = .next (s.faultedWith 0 0x24) := by
      rw [threeRegister_ready h, if_neg (by omega)]
    exact ⟨fault fieldAdd, fault fieldSub, fault fieldMul⟩

-- O45: the layer commands of an expansion

/-- The operand of a layer operation is inside its static bound and its committed length, as its command checks
(R103, R175). -/
def State.OperandOk (s : State) : Layer → Prop
  | .sbfe i | .sbie i => i < s.geom.W
  | .arc r | .arc0 r => r < s.geom.maxRc ∧ r < s.rcLen
  | .arco r | .arco0 r => r < s.geom.maxRc ∧ r < s.orcLen
  | .spm k => k < s.geom.maxRp ∧ k < s.spLen
  | .sbf | .sbi | .mds | .mpr | .exl | .inl => True

theorem operandOk_congr (hg : t.geom = s.geom) (hc : t.csr = s.csr) (l : Layer) :
    t.OperandOk l ↔ s.OperandOk l := by
  cases l <;> simp only [State.OperandOk, State.rcLen, State.orcLen, State.spLen, hg, hc]

/-- The round-constant vectors and the sparse matrices of a valid geometry are counted by an immediate (R61, R94). -/
theorem GeometryValid.depths_le {g : Geometry} (h : GeometryValid g) : g.maxRc ≤ 2 ^ 20 ∧ g.maxRp ≤ 2 ^ 20 := by
  have hW : 0 < g.W := Nat.lt_of_lt_of_le (by decide) h.twoLeW
  refine ⟨(Nat.le_mul_of_pos_right _ hW).trans h.rcFits, ?_⟩
  calc g.maxRp ≤ g.maxRp * (g.W * g.W) := Nat.le_mul_of_pos_right _ (Nat.mul_pos hW hW)
    _ = g.maxRp * g.W * g.W := (Nat.mul_assoc _ _ _).symm
    _ ≤ 2 ^ 20 := h.sparseFits

/-- A layer operation is performed by a command (R92). -/
theorem isCommand_command (l : Layer) : l.command.isCommand = true := by cases l <;> rfl

/-- An operand that its command accepts fits the immediate of the command word (R94). -/
theorem wellFormed_command (hg : GeometryValid s.geom) {l : Layer} (hl : s.OperandOk l) :
    l.command.wellFormed = true := by
  have hW := hg.wLe
  obtain ⟨hrc, hrp⟩ := hg.depths_le
  cases l with
  | sbf | sbi | mds | mpr | exl | inl => rfl
  | sbfe i | sbie i => exact decide_eq_true (by have : i < s.geom.W := hl; omega)
  | arc r | arc0 r | arco r | arco0 r => exact decide_eq_true (hl.1.trans_le hrc)
  | spm k => exact decide_eq_true (hl.1.trans_le hrp)

/-- A layer command whose checks pass replaces the registers and answers ok (R175). -/
theorem layerCommand_ok {inBound inLength : State → Bool} {l : Layer} (h : Ready s 0) (hp : s.pvalid = true)
    (hb : inBound s = true) (hl : inLength s = true) (hbc : inBound (s.consume 1) = inBound s := by rfl)
    (hlc : inLength (s.consume 1) = inLength s := by rfl) :
    layerCommand inBound inLength l s = .next ((s.setRegs (applyLayer s l s.regs)).answered 0 0x00 []) := by
  rw [layerCommand_ready h hbc hlc, if_neg (by simp [hb]), if_neg (by simp [hp]), if_neg (by simp [hl])]

/-- The command of a layer operation whose operand is accepted (R92, R103, R175). -/
theorem exec_layer_ok (h : Ready s 0) (hp : s.pvalid = true) {l : Layer} (hl : s.OperandOk l) :
    exec l.command s = .next ((s.setRegs (applyLayer s l s.regs)).answered 0 0x00 []) := by
  cases l <;> dsimp only [Layer.command, exec, execSbf, execSbfe, execSbi, execSbie, execArc, execArc0, execArco,
    execArco0, execMds, execMpr, execSpm, execExl, execInl]
  case sbf | sbi | mds | mpr | exl | inl => exact layerCommand_ok h hp rfl rfl
  case sbfe i | sbie i => exact layerCommand_ok h hp (decide_eq_true (p := i < s.geom.W) hl) rfl
  case arc | arc0 | arco | arco0 | spm =>
    obtain ⟨hbound, hlength⟩ := hl
    exact layerCommand_ok h hp (decide_eq_true hbound) (decide_eq_true hlength)

/-- The state of a host that has sent layer commands, when the engine has run them (R92). -/
def State.ranLayers (s : State) (ls : List Layer) (rest : List Beat) : State :=
  { s with
    regs := applyLayers s ls s.regs
    input := rest
    output := s.output ++ List.replicate ls.length { code := 0x00, items := [] } }

theorem applyLayers_answered (s : State) (v : List Nat) :
    applyLayers ((s.setRegs v).answered 0 0x00 []) = applyLayers s := by
  have h : applyLayer ((s.setRegs v).answered 0 0x00 []) = applyLayer s := applyLayer_congr rfl rfl rfl
  funext ls w
  simp only [applyLayers, h]

theorem ranLayers_nil (s : State) : s.ranLayers [] s.input = s :=
  State.eq_of_fields rfl rfl rfl rfl rfl rfl rfl rfl rfl rfl rfl (List.append_nil _)

theorem ranLayers_cons (s : State) (l : Layer) (ls : List Layer) (rest : List Beat) :
    s.ranLayers (l :: ls) rest
      = ((s.setRegs (applyLayer s l s.regs)).answered 0 0x00 []).ranLayers ls rest := by
  simp only [State.ranLayers, applyLayers_answered]
  simp [State.answered, State.setRegs, List.replicate_succ]

/-- Layer commands with accepted operands, one after another: each is one step (R92, R367). -/
theorem runs_layerCommands {ls : List Layer} {rest : List Beat} (hg : GeometryValid s.geom) (hp : s.pvalid = true)
    (hf : s.fault = false) (ha : s.activity = .idle) (hls : ls.Forall s.OperandOk)
    (hin : s.input = ls.map (fun l => wordBeat (encode l.command)) ++ rest) :
    Runs ls.length s (s.ranLayers ls rest) := by
  induction ls generalizing s with
  | nil =>
    obtain rfl : s.input = rest := hin
    exact (ranLayers_nil s).symm
  | cons l ls ih =>
    obtain ⟨hl, hls⟩ := List.forall_cons _ _ _ |>.1 hls
    have hstep : step s = .next ((s.setRegs (applyLayer s l s.regs)).answered 0 0x00 []) :=
      (step_encoded ha (wellFormed_command hg hl) (isCommand_command l) hin).trans
        (exec_layer_ok ⟨hf, by simp [hin]⟩ hp hl)
    rw [ranLayers_cons]
    exact ⟨_, hstep, ih hg hp hf ha (hls.imp fun l => (operandOk_congr rfl rfl l).2) (by simp [hin])⟩

-- O45: the commit has checked every operand of the expansion

/-- The lengths that the commit checks hold against the depths and the rounds (K3 to K7 and K13 of R327). -/
structure LengthsOk (s : State) : Prop where
  depths : s.rcLen ≤ s.geom.maxRc ∧ s.orcLen ≤ s.geom.maxRc ∧ s.spLen ≤ s.geom.maxRp
  rescue : s.csr.family.toNat = 0 → s.rcLen = 2 * s.rf + 1
  poseidon : s.csr.family.toNat = 1 → 1 ≤ s.rp ∧ s.rcLen = s.rf + s.rp
  poseidonOpt : s.csr.family.toNat = 1 → s.opt = true → s.orcLen = s.rf + s.rp ∧ s.spLen = s.rp
  poseidon2 : s.csr.family.toNat = 2 → s.rcLen = s.rf + s.rp
  rescuePrime : s.csr.family.toNat = 3 → s.rcLen = 2 * s.rf

theorem lengthsOk_of_commitChecks (h : s.commitChecks = true) : LengthsOk s := by
  simp only [State.commitChecks, Bool.and_eq_true] at h
  obtain ⟨⟨⟨⟨⟨⟨⟨⟨⟨⟨⟨-, h3⟩, h4⟩, h5⟩, h6⟩, h7⟩, -⟩, -⟩, -⟩, -⟩, -⟩, h13⟩ := h
  simp only [State.k3, Bool.and_eq_true, decide_eq_true_eq] at h3
  obtain ⟨⟨⟨hrc, horc⟩, hsp⟩, -⟩ := h3
  refine ⟨⟨hrc, horc, hsp⟩, fun hf => ?rescue, fun hf => ?poseidon, fun hf ho => ?poseidonOpt, fun hf => ?poseidon2,
    fun hf => ?rescuePrime⟩
  case rescue =>
    simp only [State.k4, hf, bne_self_eq_false, Bool.false_or, Bool.and_eq_true, beq_iff_eq] at h4
    obtain ⟨-, hlen⟩ := h4
    exact hlen
  case poseidon =>
    simp only [State.k6, hf, bne_self_eq_false, Bool.false_or, Bool.and_eq_true, beq_iff_eq, decide_eq_true_eq] at h6
    obtain ⟨⟨-, hrp⟩, hlen⟩ := h6
    exact ⟨hrp, hlen⟩
  case poseidonOpt =>
    simp only [State.k13, hf, ho, BEq.rfl, Bool.and_self, Bool.not_true, Bool.false_or, Bool.and_eq_true,
      beq_iff_eq] at h13
    obtain ⟨⟨⟨⟨horcLen, hspLen⟩, -⟩, -⟩, -⟩ := h13
    exact ⟨horcLen, hspLen⟩
  case poseidon2 =>
    simp only [State.k7, hf, bne_self_eq_false, Bool.false_or, Bool.and_eq_true, beq_iff_eq] at h7
    obtain ⟨⟨-, hlen⟩, -⟩ := h7
    exact hlen
  case rescuePrime =>
    simp only [State.k5, hf, bne_self_eq_false, Bool.false_or, Bool.and_eq_true, beq_iff_eq] at h5
    obtain ⟨-, hlen⟩ := h5
    exact hlen

/-- What holds of the layers of each round holds of all of them (R190). -/
theorem forall_rounds {p : Layer → Prop} {f : Nat → List Layer} {n : Nat} (h : ∀ i < n, (f i).Forall p) :
    (((List.range n).map f).flatten).Forall p := by
  simp only [List.forall_iff_forall_mem] at h ⊢
  intro l hl
  simp only [List.mem_flatten, List.mem_map, List.mem_range] at hl
  obtain ⟨_, ⟨i, hi, rfl⟩, hl⟩ := hl
  exact h i hi l hl

-- The operands of each family's rounds, against the lengths that its commit check asks for

section
variable (hW : 0 < s.geom.W)

theorem operandOk_rescue (hd : s.rcLen ≤ s.geom.maxRc) (h : s.rcLen = 2 * s.rf + 1) :
    (rescueRounds s.rf).flatten.Forall s.OperandOk := by
  rw [rescueRounds, leadWith_flatten, List.forall_append]
  refine ⟨?_, forall_rounds fun i hi => ?_⟩
  · simp only [List.Forall, State.OperandOk]; omega
  · split <;> simp only [List.Forall, State.OperandOk, true_and] <;> omega

theorem operandOk_rescuePrime (hd : s.rcLen ≤ s.geom.maxRc) (h : s.rcLen = 2 * s.rf) :
    (rescuePrimeRounds s.rf).flatten.Forall s.OperandOk := by
  refine forall_rounds fun i hi => ?_
  simp only [List.Forall, State.OperandOk, true_and]; omega

include hW

theorem operandOk_poseidon (hd : s.rcLen ≤ s.geom.maxRc) (h : s.rcLen = s.rf + s.rp) :
    (poseidonRounds s.rf s.rp).flatten.Forall s.OperandOk := by
  refine forall_rounds fun i hi => ?_
  split <;> simp only [List.Forall, State.OperandOk, and_true] <;> omega

theorem operandOk_poseidonOpt (hd : s.orcLen ≤ s.geom.maxRc) (hk : s.spLen ≤ s.geom.maxRp) (hrp : 1 ≤ s.rp)
    (h : s.orcLen = s.rf + s.rp) (hsp : s.spLen = s.rp) :
    (poseidonOptRounds s.rf s.rp).flatten.Forall s.OperandOk := by
  simp only [poseidonOptRounds, List.flatten_append, leadWith_flatten, List.forall_append]
  refine ⟨forall_rounds fun i hi => ?_, ?_, forall_rounds fun i hi => ?_, forall_rounds fun i hi => ?_⟩
  · simp only [List.Forall, State.OperandOk, and_true]; omega
  · simp only [List.Forall, State.OperandOk, and_true]; omega
  · split <;> simp only [List.Forall, State.OperandOk] <;> omega
  · simp only [List.Forall, State.OperandOk, and_true]; omega

theorem operandOk_poseidon2 (hd : s.rcLen ≤ s.geom.maxRc) (h : s.rcLen = s.rf + s.rp) :
    (poseidon2Rounds s.rf s.rp).flatten.Forall s.OperandOk := by
  simp only [poseidon2Rounds, List.flatten_append, leadWith_flatten, List.forall_append]
  refine ⟨trivial, ⟨forall_rounds fun i hi => ?_, forall_rounds fun i hi => ?_⟩, forall_rounds fun i hi => ?_⟩
  all_goals simp only [List.Forall, State.OperandOk, and_true]; omega

end

/-- No index check of a committed expansion fails (R330). -/
theorem operandOk_expansion (hg : GeometryValid s.geom) (h : LengthsOk s) : s.expansion.Forall s.OperandOk := by
  have hW : 0 < s.geom.W := Nat.lt_of_lt_of_le (by decide) hg.twoLeW
  obtain ⟨hrc, horc, hsp⟩ := h.depths
  have hfamily : s.csr.family.toNat = 0 ∨ s.csr.family.toNat = 1 ∨ s.csr.family.toNat = 2 ∨
      s.csr.family.toNat = 3 := by omega
  unfold State.expansion State.rounds
  rcases hfamily with hf | hf | hf | hf <;> rw [hf]
  · exact operandOk_rescue hrc (h.rescue hf)
  · obtain ⟨hrp, hlen⟩ := h.poseidon hf
    cases ho : s.opt with
    | false => exact operandOk_poseidon hW hrc hlen
    | true =>
      obtain ⟨hol, hsl⟩ := h.poseidonOpt hf ho
      exact operandOk_poseidonOpt hW horc hsp hrp hol hsl
  · exact operandOk_poseidon2 hW hrc (h.poseidon2 hf)
  · exact operandOk_rescuePrime hrc (h.rescuePrime hf)

/-- Settles O45: each layer command of the expansion is one step, and PERMUTE is the composition of what they do. -/
theorem permuteEqualsItsLayerCommands : Obligations.PermuteEqualsItsLayerCommands := by
  intro s rest hinv hp hf ha hin
  obtain ⟨-, hchecks⟩ := hinv.committed hp
  exact runs_layerCommands hinv.geometry hp hf ha
    (operandOk_expansion hinv.geometry (lengthsOk_of_commitChecks hchecks)) hin

end Sys2Proof.Machine

/-! PROOF of O27 and O29. The field commands on registers in range, and FINV: Fermat's little theorem makes the power
of R127 the inverse. -/

namespace Sys2Proof.Machine

variable {s : State} {d a b : Nat}

-- O27: FADD, FSUB, FNEG, FMUL and FSQR

/-- What a three-register command does on registers in range (R137). -/
theorem threeRegister_inRange (f : Nat → Nat → Nat → Nat) (h : Ready s 0) (hd : d < s.geom.W) (ha : a < s.geom.W)
    (hb : b < s.geom.W) :
    threeRegister f d a b s = .next ((s.setReg d (f s.geom.P (s.reg a) (s.reg b))).answered 0 0x00 []) := by
  rw [threeRegister_ready h, if_pos ⟨hd, ha, hb⟩]

/-- What a two-register command does on registers in range (R137). -/
theorem twoRegister_inRange (f : Nat → Nat → Nat) (h : Ready s 0) (hd : d < s.geom.W) (ha : a < s.geom.W) :
    twoRegister f d a s = .next ((s.setReg d (f s.geom.P (s.reg a))).answered 0 0x00 []) := by
  rw [twoRegister_ready h, if_pos ⟨hd, ha⟩]

/-- Settles O27: each command is its register shell around one operation on canonical integers. -/
theorem fieldCommands : Obligations.FieldCommands := by
  intro s d a b h hd ha hb P
  exact ⟨threeRegister_inRange fieldAdd h hd ha hb, threeRegister_inRange fieldSub h hd ha hb,
    twoRegister_inRange fieldNeg h hd ha, threeRegister_inRange fieldMul h hd ha hb,
    twoRegister_inRange fieldSqr h hd ha⟩

-- O29: FINV

/-- The power `P - 2` of a canonical element other than 0 is its inverse (R127), by Fermat's little theorem. -/
theorem fieldMul_fieldInv {P x : Nat} (hP : P.Prime) (h0 : x ≠ 0) (hx : x < P) : fieldMul P x (fieldInv P x) = 1 := by
  have : Fact P.Prime := ⟨hP⟩
  have hne : (x : ZMod P) ≠ 0 := fun hc =>
    h0 (eq_of_cast_eq hx hP.pos (hc.trans Nat.cast_zero.symm))
  have hexp : P - 2 + 1 = P - 1 := by have := hP.two_le; omega
  refine eq_of_cast_eq (fieldMul_lt hP.pos _ _) hP.one_lt ?_
  calc (fieldMul P x (fieldInv P x) : ZMod P)
    _ = x * x ^ (P - 2) := by rw [cast_fieldMul, fieldInv, cast_fieldPow hP.one_lt]
    _ = x ^ (P - 1) := by rw [← pow_succ', hexp]
    _ = 1 := ZMod.pow_card_sub_one_eq_one hne
    _ = (1 : Nat) := Nat.cast_one.symm

/-- What FINV does on registers in range (R136). -/
theorem exec_finv (h : Ready s 0) (hd : d < s.geom.W) (ha : a < s.geom.W) :
    exec (.finv d a) s = .next
      (if s.reg a = 0 then s.faultedWith 0 0x25
      else (s.setReg d (fieldInv s.geom.P (s.reg a))).answered 0 0x00 []) := by
  have hreg : (s.regOk d && s.regOk a) = true := by simp [State.regOk, hd, ha]
  change execFinv d a s = _
  rw [execFinv, runCommand_ready h]
  by_cases h0 : s.reg a = 0
  · simp only [regOk_consume, reg_consume, hreg, h0, Bool.not_true, Bool.false_eq_true, if_false, if_true]
    exact congrArg _ (report_consume_fault h.1 rfl)
  · simp only [regOk_consume, reg_consume, hreg, h0, Bool.not_true, Bool.false_eq_true, if_false]
    rfl

/-- Settles O29: the element FINV writes is the source's power `P - 2`. -/
theorem finvInverts : Obligations.FinvInverts := by
  intro s d a hP h hd ha hlt
  refine ⟨fun h0 => ⟨fieldInv s.geom.P (s.reg a), fieldPow_lt hP.one_lt _ _, fieldMul_fieldInv hP h0 hlt, ?_⟩,
    fun h0 => ?_⟩
  · rw [exec_finv h hd ha, if_neg h0]; rfl
  · rw [exec_finv h hd ha, if_pos h0]

end Sys2Proof.Machine

/-! PROOF of O31, O32, O33, O34, O35 and O41. The S-box commands compute powers: the fifth power, and the power by the
exponent that PCOMMIT has checked to invert 5. With Fermat's little theorem the two undo each other. The checks of the
layer commands are said once for all of them. -/

namespace Sys2Proof.Machine

variable {s : State} {P n : Nat}

-- O34: the chain steps

/-- An entry that is computed is read as it is (R159). -/
theorem scratchRead_of_lt {t : List Nat} {i : Nat} (hi : i < t.length) : scratchRead P t i = t.getD i 0 := by
  rw [scratchRead, List.getD_eq_getElem _ _ hi, List.getD_eq_getElem _ _ hi]

theorem exec_chDbl {t : List Nat} (ha : s.activity = .chain t) (i : Nat) :
    exec (.chDbl i) s = .next (s.setActivity (.chain (t ++ [doubledEntry s.geom.P t i]))) := by
  simp only [exec, execChDbl, ha]

theorem exec_chAdd {t : List Nat} (ha : s.activity = .chain t) (l r : Nat) :
    exec (.chAdd l r) s = .next (s.setActivity (.chain (t ++ [addedEntry s.geom.P t l r]))) := by
  simp only [exec, execChAdd, ha]

/-- Settles O34: inside a run the entries read are computed ones; outside a run both commands stop. -/
theorem chainStepsAppend : Obligations.ChainStepsAppend := by
  refine ⟨fun s t i ha hi => ?_, fun s t l r ha hl hr => ?_, fun s i l r hout => ?_⟩
  · rw [exec_chDbl ha, doubledEntry, scratchRead_of_lt hi]; rfl
  · rw [exec_chAdd ha, addedEntry, scratchRead_of_lt hl, scratchRead_of_lt hr]; rfl
  · cases ha : s.activity with
    | chain t => exact absurd ha (hout t)
    | idle | permuting => simp only [exec, execChDbl, execChAdd, ha, and_self]

-- O35: the exponents of a chain

theorem chainStepValid_double {w : Word} {i : Nat} (hd : decodeStep w = .ok (.double i)) :
    chainStepValid n w = true ↔ i ≤ n := by
  simp only [chainStepValid, hd, decide_eq_true_eq]

theorem chainStepValid_add {w : Word} {l r : Nat} (hd : decodeStep w = .ok (.add l r)) :
    chainStepValid n w = true ↔ l ≤ n ∧ r ≤ n := by
  simp only [chainStepValid, hd, Bool.and_eq_true, decide_eq_true_eq]

theorem chainExpAppend_double {w : Word} {i : Nat} (hd : decodeStep w = .ok (.double i)) (es : List Nat) :
    chainExpAppend es w = es ++ [2 * es.getD i 0] := by
  simp only [chainExpAppend, hd]

theorem chainExpAppend_add {w : Word} {l r : Nat} (hd : decodeStep w = .ok (.add l r)) (es : List Nat) :
    chainExpAppend es w = es ++ [es.getD l 0 + es.getD r 0] := by
  simp only [chainExpAppend, hd]

theorem chainExpAppend_extends (es : List Nat) (w : Word) : ∃ e, chainExpAppend es w = es ++ [e] := by
  unfold chainExpAppend; split <;> exact ⟨_, rfl⟩

/-- The exponents of a run already listed stay (R163). -/
theorem foldl_chainExpAppend_extends (ws : List Word) (es : List Nat) :
    ∃ new, ws.foldl chainExpAppend es = es ++ new := by
  induction ws generalizing es with
  | nil => exact ⟨[], (List.append_nil es).symm⟩
  | cons w ws ih =>
    obtain ⟨e, he⟩ := chainExpAppend_extends es w
    obtain ⟨new, hnew⟩ := ih (chainExpAppend es w)
    exact ⟨e :: new, hnew.trans (by rw [he, List.append_assoc]; rfl)⟩

/-- The exponents of the entries computed before step `n`, of entry `n + 1`, and of those after it. -/
theorem foldl_chainExpAppend_split {ws : List Word} (hn : n < ws.length) (es : List Nat) :
    ∃ new, ws.foldl chainExpAppend es
      = chainExpAppend ((ws.take n).foldl chainExpAppend es) (ws.getD n 0) ++ new := by
  obtain ⟨new, hnew⟩ := foldl_chainExpAppend_extends (ws.drop (n + 1))
    (chainExpAppend ((ws.take n).foldl chainExpAppend es) (ws.getD n 0))
  refine ⟨new, ?_⟩
  rw [← hnew, List.getD_eq_getElem _ _ hn, ← List.foldl_cons, ← List.drop_eq_getElem_cons, ← List.foldl_append,
    List.take_append_drop]

/-- If step `n` appends `f es` to the exponents `es`, and `f` reads entries up to `n` only, then `cexp (n + 1)` is what
`f` gives on all the exponents of the chain (R163). -/
theorem chainExponents_succ {ws : List Word} (hn : n < ws.length) {f : List Nat → Nat}
    (happ : ∀ es, chainExpAppend es (ws.getD n 0) = es ++ [f es])
    (hf : ∀ es new, n < es.length → f (es ++ new) = f es) :
    (ws.foldl chainExpAppend [1]).getD (n + 1) 0 = f (ws.foldl chainExpAppend [1]) := by
  obtain ⟨new, hnew⟩ := foldl_chainExpAppend_split hn [1]
  have hlen : ((ws.take n).foldl chainExpAppend [1]).length = n + 1 := by simp; omega
  rw [hnew, happ, List.append_assoc, hf _ _ (by omega), List.getD_append_right _ _ _ _ (by omega), hlen]
  simp

/-- Settles O35: a valid step reads entries already computed, which later steps keep; the powers are those of
`chainScratch_seed`. -/
theorem chainEntriesArePowers : Obligations.ChainEntriesArePowers := by
  intro P x ws _ hx hv cexp T
  have valid : ∀ t, t < ws.length → chainStepValid t (ws.getD t 0) = true := fun t ht => by
    simpa [ht] using chainStepValid_getElem hv ht
  refine ⟨?_, rfl, scratchRead_of_lt (by simp), fun t i ht hd => ?_, fun t l r ht hd => ?_, fun t ht => ?_⟩
  · obtain ⟨new, hnew⟩ := foldl_chainExpAppend_extends ws [1]
    simp only [cexp, hnew]; rfl
  · have hi := (chainStepValid_double hd).1 (valid t ht)
    refine chainExponents_succ (f := fun es => 2 * es.getD i 0) ht (chainExpAppend_double hd) fun es new hlen => ?_
    simp only [List.getD_append _ _ _ _ (Nat.lt_of_le_of_lt hi hlen)]
  · obtain ⟨hl, hr⟩ := (chainStepValid_add hd).1 (valid t ht)
    refine chainExponents_succ (f := fun es => es.getD l 0 + es.getD r 0) ht (chainExpAppend_add hd)
      fun es new hlen => ?_
    simp only [List.getD_append _ _ _ _ (Nat.lt_of_le_of_lt hl hlen),
      List.getD_append _ _ _ _ (Nat.lt_of_le_of_lt hr hlen)]
  · simp only [T, cexp, chainScratch_seed hx hv]
    exact getD_map_of_lt (by simp; omega) _ _

-- O31 and O32: the S-box commands

theorem exec_sbf (h : Ready s 0) (hp : s.pvalid = true) :
    exec .sbf s = .next ({ s with regs := s.regs.map (sboxForward s.geom.P) }.answered 0 0x00 []) :=
  exec_layer_ok h hp (l := .sbf) trivial

theorem exec_sbfe (h : Ready s 0) (hp : s.pvalid = true) {i : Nat} (hi : i < s.geom.W) :
    exec (.sbfe i) s
      = .next ({ s with regs := s.regs.set i (sboxForward s.geom.P (s.reg i)) }.answered 0 0x00 []) :=
  exec_layer_ok h hp (l := .sbfe i) hi

theorem exec_sbi (h : Ready s 0) (hp : s.pvalid = true) :
    exec .sbi s = .next ({ s with regs := s.regs.map s.sboxInverse }.answered 0 0x00 []) :=
  exec_layer_ok h hp (l := .sbi) trivial

theorem exec_sbie (h : Ready s 0) (hp : s.pvalid = true) {i : Nat} (hi : i < s.geom.W) :
    exec (.sbie i) s = .next ({ s with regs := s.regs.set i (s.sboxInverse (s.reg i)) }.answered 0 0x00 []) :=
  exec_layer_ok h hp (l := .sbie i) hi

/-- Settles O31: the forward S-box is the fifth power. -/
theorem sbfIsTheFifthPower : Obligations.SbfIsTheFifthPower := by
  intro s h hp
  have hpow : sboxForward s.geom.P = fun x => x ^ 5 % s.geom.P := funext sboxForward_eq
  exact ⟨by rw [exec_sbf h hp, hpow], fun i hi => by rw [exec_sbfe h hp hi, hpow]⟩

/-- What PCOMMIT has checked of the inverse S-box descriptor (K8 to K11 of R327). -/
theorem descriptor_of_commitChecks (h : s.commitChecks = true) :
    (s.csr.sboxinv = 1 ∧ 1 ≤ s.expValue ∧ 5 * s.expValue ≡ 1 [MOD s.geom.P - 1]) ∨
    (s.csr.sboxinv = 2 ∧ chainValidFrom 0 s.chainWords = true ∧
      5 * chainExponent s.chainWords ≡ 1 [MOD s.geom.P - 1]) := by
  simp only [State.commitChecks, Bool.and_eq_true] at h
  obtain ⟨⟨⟨⟨⟨⟨-, h8⟩, h9⟩, h10⟩, h11⟩, -⟩, -⟩ := h
  simp only [State.k8, Bool.or_eq_true, beq_iff_eq] at h8
  rcases h8 with hk | hk
  · simp only [State.k9, hk, invertsFive, bne_self_eq_false, Bool.false_or, Bool.and_eq_true, decide_eq_true_eq,
      beq_iff_eq] at h9
    exact .inl ⟨BitVec.eq_of_toNat_eq hk, h9⟩
  · simp only [State.k10, hk, bne_self_eq_false, Bool.false_or] at h10
    simp only [State.k11, hk, invertsFive, bne_self_eq_false, Bool.false_or, beq_iff_eq] at h11
    exact .inr ⟨BitVec.eq_of_toNat_eq hk, h10, h11⟩

/-- A valid step appends a positive exponent to positive ones (R163). -/
theorem one_le_chainExpAppend {es : List Nat} {w : Word} (hn : n < es.length) (hes : ∀ e ∈ es, 1 ≤ e)
    (hw : chainStepValid n w = true) : ∀ e ∈ chainExpAppend es w, 1 ≤ e := by
  have read : ∀ i, i ≤ n → 1 ≤ es.getD i 0 := fun i hi => by
    rw [List.getD_eq_getElem _ _ (Nat.lt_of_le_of_lt hi hn)]
    exact hes _ (List.getElem_mem _)
  have snoc : ∀ a, 1 ≤ a → ∀ e ∈ es ++ [a], 1 ≤ e := fun a ha e he =>
    (List.mem_append.1 he).elim (hes e) fun h => List.mem_singleton.1 h ▸ ha
  obtain ⟨st, hd⟩ := decodeStep_of_valid hw
  cases st with
  | double i =>
    have hi := read i ((chainStepValid_double hd).1 hw)
    rw [chainExpAppend_double hd]
    exact snoc _ (by omega)
  | add l r =>
    obtain ⟨hl, -⟩ := (chainStepValid_add hd).1 hw
    have hl := read l hl
    rw [chainExpAppend_add hd]
    exact snoc _ (by omega)

theorem one_le_foldl_chainExpAppend {ws : List Word} {es : List Nat} (hn : es.length = n + 1)
    (hes : ∀ e ∈ es, 1 ≤ e) (hv : chainValidFrom n ws = true) : ∀ e ∈ ws.foldl chainExpAppend es, 1 ≤ e := by
  induction ws generalizing es n with
  | nil => exact hes
  | cons w ws ih =>
    obtain ⟨hw, hws⟩ := Bool.and_eq_true_iff.1 hv
    exact ih (by rw [chainExpAppend_length, hn]) (one_le_chainExpAppend (by omega) hes hw) hws

/-- The exponent of a valid chain is positive (R163). -/
theorem one_le_chainExponent {ws : List Word} (hv : chainValidFrom 0 ws = true) : 1 ≤ chainExponent ws := by
  rw [chainExponent, List.getD_eq_getElem _ _ (by simp)]
  exact one_le_foldl_chainExpAppend (es := [1]) rfl (by simp) hv _ (List.getElem_mem _)

/-- The value of a valid chain is the power by its exponent (R159, R163). -/
theorem chainValue_eq {x : Nat} {ws : List Word} (hx : x < P) (hv : chainValidFrom 0 ws = true) :
    chainValue P ws x = x ^ chainExponent ws % P := by
  rw [chainValue, scratchRead_of_lt (by simp), chainScratch_seed hx hv, getD_map_of_lt (by simp) _ 0, chainExponent]

theorem inverseExponent_direct (h : s.csr.sboxinv = 1) : s.inverseExponent = s.expValue := by
  simp [State.inverseExponent, h]

theorem inverseExponent_chain (h : s.csr.sboxinv = 2) : s.inverseExponent = chainExponent s.chainWords := by
  simp [State.inverseExponent, h]

/-- The exponent of a committed engine is positive and inverts 5 modulo `P - 1` (R155, K9 and K11 of R327). -/
theorem Inv.inverseExponent_spec (h : Inv s) (hp : s.pvalid = true) :
    1 ≤ s.inverseExponent ∧ 5 * s.inverseExponent ≡ 1 [MOD s.geom.P - 1] := by
  obtain ⟨-, hc⟩ := h.committed hp
  rcases descriptor_of_commitChecks hc with ⟨hk, he⟩ | ⟨hk, hv, he⟩
  · rw [inverseExponent_direct hk]; exact he
  · rw [inverseExponent_chain hk]; exact ⟨one_le_chainExponent hv, he⟩

/-- The inverse S-box of a committed engine is the power by the exponent of its descriptor (R154, R155). -/
theorem Inv.sboxInverse_eq (h : Inv s) (hp : s.pvalid = true) {x : Nat} (hx : x < s.geom.P) :
    s.sboxInverse x = x ^ s.inverseExponent % s.geom.P := by
  obtain ⟨-, hc⟩ := h.committed hp
  rcases descriptor_of_commitChecks hc with ⟨hk, -⟩ | ⟨hk, hv, -⟩
  · simpa [State.sboxInverse, hk, inverseExponent_direct hk] using fieldPow_eq h.geometry.prime.one_lt x s.expValue
  · simpa [State.sboxInverse, hk, inverseExponent_chain hk] using chainValue_eq hx hv

/-- On a committed engine the kind that is not direct is the chain (K8 of R327). -/
theorem Inv.inverseExponent_eq (h : Inv s) (hp : s.pvalid = true) :
    s.inverseExponent = if s.csr.sboxinv = 1 then s.expValue else chainExponent s.chainWords := by
  obtain ⟨-, hc⟩ := h.committed hp
  rcases descriptor_of_commitChecks hc with ⟨hk, -⟩ | ⟨hk, -⟩
  · rw [if_pos hk, inverseExponent_direct hk]
  · rw [if_neg (by rw [hk]; decide), inverseExponent_chain hk]

/-- Settles O32: the registers hold canonical elements, on which the inverse S-box is that power. -/
theorem sbiIsTheInversePower : Obligations.SbiIsTheInversePower := by
  intro s hinv h hp e
  have he : s.inverseExponent = e := hinv.inverseExponent_eq hp
  obtain ⟨-, hlt⟩ := hinv.regs
  have power : ∀ x, x < s.geom.P → s.sboxInverse x = x ^ e % s.geom.P := fun x hx => by
    rw [hinv.sboxInverse_eq hp hx, he]
  obtain ⟨-, hfive⟩ := hinv.inverseExponent_spec hp
  refine ⟨he ▸ hfive, ?_, fun i hi => ?_⟩
  · rw [exec_sbi h hp, List.map_congr_left fun x hx => power x (hlt x hx)]
  · have hreg : s.reg i < s.geom.P := getD_lt hinv.geometry.prime.pos hlt i
    rw [exec_sbie h hp hi, power _ hreg]

-- O33: the round trip

/-- Fermat: a power by a positive exponent that is 1 modulo `P - 1` is the element itself, 0 included. -/
theorem pow_mod_eq_self {k x : Nat} (hP : P.Prime) (hk : 1 ≤ k) (hmod : k ≡ 1 [MOD P - 1]) (hx : x < P) :
    x ^ k % P = x := by
  have : Fact P.Prime := ⟨hP⟩
  obtain ⟨m, hm⟩ := (Nat.modEq_iff_dvd' hk).1 hmod.symm
  obtain rfl : k = (P - 1) * m + 1 := by omega
  refine eq_of_cast_eq (Nat.mod_lt _ hP.pos) hx ?_
  rw [ZMod.natCast_mod, Nat.cast_pow, pow_succ, pow_mul]
  by_cases h0 : (x : ZMod P) = 0
  · rw [h0, mul_zero]
  · rw [ZMod.pow_card_sub_one_eq_one h0, one_pow, one_mul]

/-- The fifth power of the inverse S-box gives the element back (R155). -/
theorem Inv.forward_sboxInverse (h : Inv s) (hp : s.pvalid = true) {x : Nat} (hx : x < s.geom.P) :
    s.sboxInverse x ^ 5 % s.geom.P = x := by
  obtain ⟨he, hfive⟩ := h.inverseExponent_spec hp
  rw [h.sboxInverse_eq hp hx, ← Nat.pow_mod, ← pow_mul, Nat.mul_comm]
  exact pow_mod_eq_self h.geometry.prime (by omega) hfive hx

/-- The inverse S-box of the fifth power gives the element back (R155). -/
theorem Inv.sboxInverse_forward (h : Inv s) (hp : s.pvalid = true) {x : Nat} (hx : x < s.geom.P) :
    s.sboxInverse (x ^ 5 % s.geom.P) = x := by
  obtain ⟨he, hfive⟩ := h.inverseExponent_spec hp
  rw [h.sboxInverse_eq hp (Nat.mod_lt _ h.geometry.prime.pos), ← Nat.pow_mod, ← pow_mul]
  exact pow_mod_eq_self h.geometry.prime (by omega) hfive hx

/-- An element that the forward S-box fixes is its own inverse image (R155). -/
theorem Inv.sboxInverse_fixed (h : Inv s) (hp : s.pvalid = true) {x : Nat} (hx : x < s.geom.P)
    (hfix : x ^ 5 % s.geom.P = x) : s.sboxInverse x = x := by
  simpa only [hfix] using h.sboxInverse_forward hp hx

/-- The fifth power of `-1` is `-1`. -/
theorem pred_pow_five_mod (h : 0 < P) : (P - 1) ^ 5 % P = P - 1 := by
  refine eq_of_cast_eq (Nat.mod_lt _ h) (by omega) ?_
  have hcast : ((P - 1 : Nat) : ZMod P) = -1 := by simp [Nat.cast_sub (Nat.succ_le_of_lt h)]
  rw [ZMod.natCast_mod, Nat.cast_pow, hcast]
  ring

/-- A map that another undoes on every element of the list. -/
theorem map_map_eq_self {f g : Nat → Nat} {v : List Nat} (h : ∀ x ∈ v, g (f x) = x) :
    (v.map f).map g = v := by
  rw [List.map_map]
  exact (List.map_congr_left h).trans (List.map_id' v)

/-- Two layer commands, one after the other: the second works under the same parameters (R92). -/
theorem exec_layer_twice (h : Ready s 1) (hp : s.pvalid = true) {l l' : Layer} (hl : s.OperandOk l)
    (hl' : s.OperandOk l') :
    ∃ t u, exec l.command s = .next t ∧ exec l'.command t = .next u ∧
      u.regs = applyLayer s l' (applyLayer s l s.regs) := by
  obtain ⟨hf, hin⟩ := h
  have hsecond := exec_layer_ok (s := (s.setRegs (applyLayer s l s.regs)).answered 0 0x00 []) (l := l')
    ⟨hf, by simp; omega⟩ hp ((operandOk_congr rfl rfl l').2 hl')
  refine ⟨_, _, exec_layer_ok ⟨hf, by omega⟩ hp hl, hsecond, ?_⟩
  exact congrArg (· l' (applyLayer s l s.regs)) (applyLayer_congr rfl rfl rfl)

/-- Settles O33: the exponents multiply to one that is 1 modulo `P - 1`, on every element and so on every register. -/
theorem sboxRoundTrip : Obligations.SboxRoundTrip := by
  intro s hinv hp P e
  have hP : P.Prime := hinv.geometry.prime
  obtain ⟨-, hlt⟩ := hinv.regs
  refine ⟨hinv.inverseExponent_spec hp,
    fun x hx => ⟨hinv.sboxInverse_eq hp hx, hinv.forward_sboxInverse hp hx, hinv.sboxInverse_forward hp hx⟩,
    hinv.sboxInverse_fixed hp hP.pos (Nat.zero_mod P),
    hinv.sboxInverse_fixed hp hP.one_lt (Nat.mod_eq_of_lt hP.one_lt),
    hinv.sboxInverse_fixed hp (Nat.sub_one_lt hP.ne_zero) (pred_pow_five_mod hP.pos), fun h => ?_⟩
  obtain ⟨t, u, ht, hu, hregs⟩ := exec_layer_twice h hp (l := .sbf) (l' := .sbi) trivial trivial
  obtain ⟨t', u', ht', hu', hregs'⟩ := exec_layer_twice h hp (l := .sbi) (l' := .sbf) trivial trivial
  refine ⟨t, u, t', u', ht, hu, hregs.trans ?_, ht', hu', hregs'.trans ?_⟩
  · exact map_map_eq_self fun x hx => by
      rw [sboxForward_eq]; exact hinv.sboxInverse_forward hp (hlt x hx)
  · exact map_map_eq_self fun x hx => by
      rw [sboxForward_eq]; exact hinv.forward_sboxInverse hp (hlt x hx)

-- O41: the order of checks

/-- The operand of a layer operation is below its static bound (R103, R175). -/
def State.inBound (s : State) : Layer → Bool
  | .sbfe i | .sbie i => decide (i < s.geom.W)
  | .arc r | .arc0 r | .arco r | .arco0 r => decide (r < s.geom.maxRc)
  | .spm k => decide (k < s.geom.maxRp)
  | .sbf | .sbi | .mds | .mpr | .exl | .inl => true

/-- The operand of a layer operation is below its committed length (R175). -/
def State.inLength (s : State) : Layer → Bool
  | .arc r | .arc0 r => decide (r < s.rcLen)
  | .arco r | .arco0 r => decide (r < s.orcLen)
  | .spm k => decide (k < s.spLen)
  | .sbf | .sbfe _ | .sbi | .sbie _ | .mds | .mpr | .exl | .inl => true

/-- What the command of a layer operation does, its checks in their order (R92, R175). -/
theorem exec_layer_ready (h : Ready s 0) (l : Layer) :
    exec l.command s = .next
      (if s.inBound l = false then s.faultedWith 0 0x24
      else if s.pvalid = false then s.faultedWith 0 0x22
      else if s.inLength l = false then s.faultedWith 0 0x24
      else (s.setRegs (applyLayer s l s.regs)).answered 0 0x00 []) := by
  cases l <;> dsimp only [Layer.command, exec, execSbf, execSbfe, execSbi, execSbie, execArc, execArc0, execArco,
    execArco0, execMds, execMpr, execSpm, execExl, execInl]
  all_goals exact layerCommand_ready h rfl rfl

/-- Before PCOMMIT an operand within its static bound ends in `ParamsNotCommitted` (R175). -/
theorem exec_layer_uncommitted (h : Ready s 0) (hp : s.pvalid = false) {l : Layer} (hb : s.inBound l = true) :
    exec l.command s = .next (s.faultedWith 0 0x22) := by
  rw [exec_layer_ready h, if_neg (by simp [hb]), if_pos hp]

/-- The static bound `b` of an operand is checked before the parameters (R175, R360). -/
theorem exec_layer_bound {l : Layer} {b : Nat} (hl : s.inBound l = decide (n < b)) (h : Ready s 0) :
    (b ≤ n → exec l.command s = .next (s.faultedWith 0 0x24)) ∧
    (n < b → s.pvalid = false → exec l.command s = .next (s.faultedWith 0 0x22)) := by
  refine ⟨fun hb => ?_, fun hb hp => exec_layer_uncommitted h hp (by simp [hl, hb])⟩
  rw [exec_layer_ready h, if_pos (by simp [hl, hb])]

/-- On a committed engine an operand within its static bound is checked against its committed length (R175). -/
theorem exec_layer_length (h : Ready s 0) (hp : s.pvalid = true) {l : Layer} (hb : s.inBound l = true)
    (hl : s.inLength l = false) : exec l.command s = .next (s.faultedWith 0 0x24) := by
  rw [exec_layer_ready h, if_neg (by simp [hb]), if_neg (by simp [hp]), if_pos hl]

/-- What PERMUTE does (R190). -/
theorem exec_permute (h : Ready s 0) :
    exec .permute s = .next
      (if s.pvalid = false then s.faultedWith 0 0x22
      else (s.setRegs (s.permute s.regs)).answered 0 0x00 []) := by
  change execPermute s = _
  rw [execPermute, runCommand_ready h]
  simp only [State.consume_pvalid, Bool.not_eq_true']
  by_cases hp : s.pvalid = false
  · simp only [if_pos hp]; exact congrArg _ (report_consume_fault h.1 rfl)
  · simp only [if_neg hp, permute_consume]; rfl

/-- Settles O41: the checks of `exec_layer_ready` and `exec_permute` with each command's bound and length. -/
theorem layerCheckOrder : Obligations.LayerCheckOrder := by
  intro s n h
  simp only [List.forall_mem_cons, List.not_mem_nil, false_implies, implies_true, and_true]
  refine ⟨fun hp => ?uncommitted, ?registers, ?constants, exec_layer_bound (l := .spm n) rfl h,
    fun hp => ⟨fun hb hlen => ?rcLength, fun hb hlen => ?orcLength, fun hb hlen => ?spLength⟩⟩
  case uncommitted =>
    have refused (l : Layer) (hb : s.inBound l = true) := exec_layer_uncommitted h hp hb
    exact ⟨refused .sbf rfl, refused .sbi rfl, refused .mds rfl, refused .mpr rfl, refused .exl rfl, refused .inl rfl,
      by rw [exec_permute h, if_pos hp]⟩
  case registers => exact ⟨exec_layer_bound (l := .sbfe n) rfl h, exec_layer_bound (l := .sbie n) rfl h⟩
  case constants =>
    exact ⟨exec_layer_bound (l := .arc n) rfl h, exec_layer_bound (l := .arc0 n) rfl h,
      exec_layer_bound (l := .arco n) rfl h, exec_layer_bound (l := .arco0 n) rfl h⟩
  case rcLength =>
    have outside : decide (n < s.rcLen) = false := decide_eq_false (Nat.not_lt.2 hlen)
    exact ⟨exec_layer_length h hp (l := .arc n) (decide_eq_true hb) outside,
      exec_layer_length h hp (l := .arc0 n) (decide_eq_true hb) outside⟩
  case orcLength =>
    have outside : decide (n < s.orcLen) = false := decide_eq_false (Nat.not_lt.2 hlen)
    exact ⟨exec_layer_length h hp (l := .arco n) (decide_eq_true hb) outside,
      exec_layer_length h hp (l := .arco0 n) (decide_eq_true hb) outside⟩
  case spLength =>
    exact exec_layer_length h hp (l := .spm n) (decide_eq_true hb) (decide_eq_false (Nat.not_lt.2 hlen))

end Sys2Proof.Machine

/-! PROOF of O37, O38, O39, O40, O42 and O43. Each linear layer is said once as a list of integer sums reduced modulo P;
the layer commands read off those lists at the entries of their space, and the two equivalences compare them column by
column. -/

namespace Sys2Proof.Machine

variable {s : State} {P W : Nat} {v : List Nat}

-- Vectors as lists over their indices

/-- A vector is the list of its elements, by index. -/
theorem map_range_getD (hv : v.length = W) : ((List.range W).map fun i => v.getD i 0) = v := by
  subst hv
  exact List.ext_getElem (by simp) fun i _ hi => by simp [hi]

/-- Two vectors of the same length, combined index by index. -/
theorem zipWith_eq_map_range {c : List Nat} (f : Nat → Nat → Nat) (hv : v.length = W) (hc : c.length = W) :
    List.zipWith f v c = (List.range W).map fun j => f (v.getD j 0) (c.getD j 0) := by
  refine List.ext_getElem (by simp [hv, hc]) fun j hj _ => ?_
  obtain ⟨hjv, hjc⟩ : j < v.length ∧ j < c.length := by simpa using hj
  simp [hjv, hjc]

/-- A sum in which only the term of index `j` can be other than zero. -/
theorem sum_range_ite_eq {j : Nat} (hj : j < W) (a : Nat) :
    ((List.range W).map fun i => if i = j then a else 0).sum = a := by
  have hcount : (List.range W).count j = 1 := List.count_eq_one_of_mem List.nodup_range (List.mem_range.2 hj)
  rw [List.sum_map_eq_nsmul_single j _ fun i hi _ => if_neg hi, hcount, one_nsmul, if_pos rfl]

-- What each linear layer computes, as integer sums

/-- A field sum of field products is the sum of the integer products, reduced (R170). -/
theorem fieldSum_map_fieldMul (l : List Nat) (f g : Nat → Nat) :
    fieldSum P (l.map fun i => fieldMul P (f i) (g i)) = (l.map fun i => f i * g i).sum % P := by
  rw [fieldSum_eq]
  exact Nat.ModEq.listSum_map fun i _ => Nat.mod_modEq _ _

/-- The product of a row vector and a matrix (R170). -/
theorem vecmat_eq (v : List Nat) (m : Mat) :
    vecmat P W v m
      = (List.range W).map fun j => ((List.range W).map fun i => v.getD i 0 * m.entry i j).sum % P := by
  simp only [vecmat, fieldSum_map_fieldMul]

/-- The product by the matrix whose entry in row `i` and column `j` is `f i j` (R170). -/
theorem vecmat_matOf (v : List Nat) (f : Nat → Nat → Nat) :
    vecmat P W v (matOf W W f)
      = (List.range W).map fun j => ((List.range W).map fun i => v.getD i 0 * f i j).sum % P := by
  rw [vecmat_eq]
  refine List.map_congr_left fun j hj => ?_
  rw [List.map_congr_left fun i hi => by rw [matOf_entry f (List.mem_range.1 hi) (List.mem_range.1 hj)]]

/-- The sparse product (R178). -/
theorem sparseMul_eq (v : List Nat) (q : Mat) :
    sparseMul P W v q = (List.range W).map fun j =>
      if j = 0 then ((List.range W).map fun i => v.getD i 0 * q.entry i 0).sum % P
      else (v.getD 0 0 * q.entry 0 j + v.getD j 0) % P := by
  simp only [sparseMul, fieldSum_map_fieldMul]
  simp only [fieldAdd, fieldMul, Nat.mod_add_mod]

/-- The sparse product by the matrix whose entry in row `i` and column `j` is `f i j` (R178). -/
theorem sparseMul_matOf (v : List Nat) (f : Nat → Nat → Nat) :
    sparseMul P W v (matOf W W f) = (List.range W).map fun j =>
      if j = 0 then ((List.range W).map fun i => v.getD i 0 * f i 0).sum % P
      else (v.getD 0 0 * f 0 j + v.getD j 0) % P := by
  rw [sparseMul_eq]
  refine List.map_congr_left fun j hj => ?_
  have hj : j < W := List.mem_range.1 hj
  have hW : 0 < W := by omega
  rw [matOf_entry f hW hj, List.map_congr_left fun i hi => by rw [matOf_entry f (List.mem_range.1 hi) hW]]

/-- The internal layer (R180). -/
theorem internalLayer_eq {d : List Nat} (hv : v.length = W) (hd : d.length = W) :
    internalLayer P v d
      = (List.range W).map fun j => (fieldSub P (d.getD j 0) 1 * v.getD j 0 + v.sum) % P := by
  simp only [internalLayer, zipWith_eq_map_range _ hv hd, fieldSum_eq, fieldAdd, fieldMul, ← Nat.add_mod]

/-- The addition of a stored constant vector (R171, R173). -/
theorem vecAdd_vector (hv : v.length = s.geom.W) (sp : Space) (r : Nat) :
    vecAdd P v (s.vector sp r)
      = (List.range s.geom.W).map fun j => (v.getD j 0 + s.entry sp (r * s.geom.W + j)) % P := by
  rw [vecAdd, zipWith_eq_map_range _ hv (vector_length s sp r)]
  exact List.map_congr_left fun j hj => by rw [vector_getD s sp r (List.mem_range.1 hj), fieldAdd]

/-- The product by a stored matrix (R170). -/
theorem vecmat_matrix (v : List Nat) (sp : Space) :
    vecmat P s.geom.W v (s.matrix sp) = (List.range s.geom.W).map fun j =>
      ((List.range s.geom.W).map fun i => v.getD i 0 * s.entry sp (i * s.geom.W + j)).sum % P := by
  simp only [State.matrix, State.matrixAt, vecmat_matOf, Nat.zero_add]

-- O37, O38, O39 and O40: the commands

/-- A layer command that is accepted, when the layer's new register list is known (R175). -/
theorem exec_layer_eq (h : Ready s 0) (hp : s.pvalid = true) {l : Layer} (hl : s.OperandOk l) {u : List Nat}
    (hu : applyLayer s l s.regs = u) : exec l.command s = .next ({ s with regs := u }.answered 0 0x00 []) :=
  hu ▸ exec_layer_ok h hp hl

/-- Settles O37: the four layers add a stored vector, or its first entry to register 0. -/
theorem roundConstantCommands : Obligations.RoundConstantCommands := by
  intro s r hregs h hp hr W P
  refine ⟨fun hlen => ⟨?arc, ?arc0⟩, fun hlen => ⟨?arco, ?arco0⟩⟩
  case arc => exact exec_layer_eq h hp (l := .arc r) ⟨hr, hlen⟩ (vecAdd_vector hregs .rc r)
  case arc0 => exact exec_layer_eq h hp (l := .arc0 r) ⟨hr, hlen⟩ rfl
  case arco => exact exec_layer_eq h hp (l := .arco r) ⟨hr, hlen⟩ (vecAdd_vector hregs .orc r)
  case arco0 => exact exec_layer_eq h hp (l := .arco0 r) ⟨hr, hlen⟩ rfl

/-- Settles O38: the three layers are the product by the matrix of their space. -/
theorem denseLayerCommands : Obligations.DenseLayerCommands := by
  intro s h hp W product
  exact ⟨exec_layer_eq h hp (l := .mds) trivial (vecmat_matrix s.regs .mds),
    exec_layer_eq h hp (l := .mpr) trivial (vecmat_matrix s.regs .mprime),
    exec_layer_eq h hp (l := .exl) trivial (vecmat_matrix s.regs .ext)⟩

/-- Settles O39: the layer is the sparse product by matrix `k` of its space. -/
theorem spmSparseProduct : Obligations.SpmSparseProduct := by
  intro s k h hp hk hlen W q
  exact exec_layer_eq h hp (l := .spm k) ⟨hk, hlen⟩ (sparseMul_matOf s.regs q)

/-- Settles O40: the layer is the internal layer with the diagonal of space DIAG. -/
theorem inlInternalLayer : Obligations.InlInternalLayer := by
  intro s hregs h hp P
  refine exec_layer_eq h hp (l := .inl) trivial ?_
  rw [applyLayer, internalLayer_eq hregs (vector_length s .diag 0)]
  refine List.map_congr_left fun i hi => ?_
  rw [vector_getD s .diag 0 (List.mem_range.1 hi), Nat.zero_mul, Nat.zero_add]
  rfl

-- O42: the sparse product is the full product

/-- The product of a vector `x` and column `j` of a matrix of the sparse shape, off column 0: below row 0 the column `c`
has a 1 in row `j` and zeros elsewhere (R181). -/
theorem sum_mul_sparseColumn {x c : Nat → Nat} {j : Nat} (hj0 : j ≠ 0) (hj : j < W)
    (hc : ∀ i, 1 ≤ i → i < W → c i = if i = j then 1 else 0) :
    ((List.range W).map fun i => x i * c i).sum = x 0 * c 0 + x j := by
  have term : ∀ i ∈ List.range W, x i * c i = (if i = 0 then x 0 * c 0 else 0) + if i = j then x j else 0 := by
    intro i hi
    rcases Nat.eq_zero_or_pos i with rfl | hpos
    · simp [hj0.symm]
    · rw [hc i hpos (List.mem_range.1 hi), if_neg hpos.ne', Nat.zero_add]
      split
      · next hij => rw [hij, Nat.mul_one]
      · rw [Nat.mul_zero]
  rw [List.map_congr_left term, List.sum_map_add, sum_range_ite_eq (Nat.zero_lt_of_lt hj), sum_range_ite_eq hj]

/-- Settles O42: column 0 is the same sum, and every other column has two terms (`sum_mul_sparseColumn`). -/
theorem sparseProductIsVecmat : Obligations.SparseProductIsVecmat := by
  intro P W v q hq
  rw [sparseMul_eq, vecmat_eq]
  refine List.map_congr_left fun j hj => ?_
  have hj : j < W := List.mem_range.1 hj
  split
  · next hj0 => rw [hj0]
  · next hj0 =>
    rw [sum_mul_sparseColumn hj0 hj fun i hi hiW => hq i j hi hiW (Nat.one_le_iff_ne_zero.2 hj0) hj]

-- O43: the internal layer is a full product

/-- The product of a vector `x` and column `j` of `J + diag(e)`: the term of the diagonal, and the sum of `x` (R180). -/
theorem sum_mul_onesPlusDiagColumn {x : Nat → Nat} {j : Nat} (hj : j < W) (e : Nat → Nat) :
    ((List.range W).map fun i => x i * if i = j then fieldAdd P 1 (e i) else 1).sum
      ≡ e j * x j + ((List.range W).map x).sum [MOD P] := by
  have term : ∀ i ∈ List.range W,
      (x i * if i = j then fieldAdd P 1 (e i) else 1) ≡ (if i = j then e j * x j else 0) + x i [MOD P] := by
    intro i _
    split
    · next hij =>
      subst hij
      calc x i * fieldAdd P 1 (e i) ≡ x i * (1 + e i) [MOD P] := (Nat.mod_modEq _ _).mul_left _
        _ = e i * x i + x i := by ring
    · rw [Nat.mul_one, Nat.zero_add]
  calc ((List.range W).map fun i => x i * if i = j then fieldAdd P 1 (e i) else 1).sum
      ≡ ((List.range W).map fun i => (if i = j then e j * x j else 0) + x i).sum [MOD P] :=
        Nat.ModEq.listSum_map term
    _ = e j * x j + ((List.range W).map x).sum := by rw [List.sum_map_add, sum_range_ite_eq hj]

/-- Settles O43: every column of the matrix gives its diagonal term and the sum of the vector. -/
theorem internalLayerIsVecmat : Obligations.InternalLayerIsVecmat := by
  intro P W v d hv hd
  rw [internalLayer_eq hv hd, vecmat_matOf]
  refine List.map_congr_left fun j hj => ?_
  have hcolumn := sum_mul_onesPlusDiagColumn (P := P) (x := fun i => v.getD i 0) (List.mem_range.1 hj)
    fun i => fieldSub P (d.getD i 0) 1
  rw [map_range_getD hv] at hcolumn
  exact hcolumn.symm

end Sys2Proof.Machine

/-! PROOF of O44 and O48. PERMUTE is `exec_permute`; the expansion of each family is its rounds, one after the other. -/

namespace Sys2Proof.Machine

-- O44: the expansions, written out and counted

/-- The expansion of PERMUTE by the configured family and schedule (R190). -/
theorem expansion_eq (s : State) : s.expansion =
    if s.csr.family = 0 then (rescueRounds s.rf).flatten
    else if s.csr.family = 1 then
      (if s.csr.ctrl = 1 then (poseidonOptRounds s.rf s.rp).flatten else (poseidonRounds s.rf s.rp).flatten)
    else if s.csr.family = 2 then (poseidon2Rounds s.rf s.rp).flatten
    else (rescuePrimeRounds s.rf).flatten := by
  unfold State.expansion State.rounds State.opt
  generalize s.csr.family = family
  have hfamily : family = 0 ∨ family = 1 ∨ family = 2 ∨ family = 3 := by bv_omega
  rcases hfamily with rfl | rfl | rfl | rfl
  case inr.inl =>
    by_cases hctrl : s.csr.ctrl = 1
    · rw [if_pos hctrl, beq_iff_eq.2 hctrl]; rfl
    · rw [if_neg hctrl, beq_eq_false_iff_ne.2 hctrl]; rfl
  all_goals rfl

/-- The partial rounds of the optimised schedule, the last without a constant (R203). -/
theorem optPartialRounds_flatten (first rp : Nat) : (optPartialRounds first rp).flatten =
    (List.range rp).flatMap fun k =>
      [Layer.sbfe 0] ++ (if k + 1 < rp then [.arco0 (first + (k + 1))] else []) ++ [Layer.spm k] := by
  rw [optPartialRounds, List.flatMap_def]
  congr 2
  funext k
  split <;> rfl

/-- Rounds of `c` layers each. -/
theorem length_flatten_map_range {f : Nat → List Layer} {c : Nat} (n : Nat) (hf : ∀ i < n, (f i).length = c) :
    ((List.range n).map f).flatten.length = n * c := by
  have hlength : ∀ i ∈ List.range n, (List.length ∘ f) i = c := fun i hi => hf i (List.mem_range.1 hi)
  rw [List.length_flatten, List.map_map, List.map_congr_left hlength]
  simp

theorem length_rescueRounds_flatten (rf : Nat) : (rescueRounds rf).flatten.length = 1 + 6 * rf := by
  rw [rescueRounds, leadWith_flatten, List.length_append, length_flatten_map_range (c := 3) _ fun _ _ => rfl]
  simp; omega

theorem length_rescuePrimeRounds_flatten (rf : Nat) : (rescuePrimeRounds rf).flatten.length = 6 * rf := by
  rw [rescuePrimeRounds, length_flatten_map_range (c := 6) _ fun _ _ => rfl, Nat.mul_comm]

theorem length_poseidonRounds_flatten (rf rp : Nat) : (poseidonRounds rf rp).flatten.length = 3 * (rf + rp) := by
  rw [poseidonRounds, length_flatten_map_range (c := 3) _ fun _ _ => rfl, Nat.mul_comm]

theorem length_optFullRounds_flatten (a n : Nat) : (optFullRounds a n).flatten.length = 3 * n := by
  rw [optFullRounds, length_flatten_map_range (c := 3) _ fun _ _ => rfl, Nat.mul_comm]

/-- The partial rounds of the optimised schedule have three layers each, the last one two (R203). -/
theorem length_optPartialRounds_flatten (first : Nat) {rp : Nat} (h : 1 ≤ rp) :
    (optPartialRounds first rp).flatten.length = 3 * rp - 1 := by
  obtain ⟨n, rfl⟩ := Nat.exists_eq_add_of_le' h
  rw [optPartialRounds, List.range_succ, List.map_append, List.flatten_append, List.length_append,
    length_flatten_map_range (c := 3) n fun i hi => by rw [if_pos (Nat.succ_lt_succ hi)]; rfl]
  simp; omega

theorem length_poseidonOptRounds_flatten (rf : Nat) {rp : Nat} (h : 1 ≤ rp) :
    (poseidonOptRounds rf rp).flatten.length = 3 * rf + 2 + 3 * rp - 1 := by
  simp only [poseidonOptRounds, List.flatten_append, leadWith_flatten, List.length_append,
    length_optFullRounds_flatten, length_optPartialRounds_flatten _ h, List.length_cons, List.length_nil]
  omega

theorem length_poseidon2FullRounds_flatten (a n : Nat) : (poseidon2FullRounds a n).flatten.length = 3 * n := by
  rw [poseidon2FullRounds, length_flatten_map_range (c := 3) _ fun _ _ => rfl, Nat.mul_comm]

theorem length_poseidon2PartialRounds_flatten (a n : Nat) : (poseidon2PartialRounds a n).flatten.length = 3 * n := by
  rw [poseidon2PartialRounds, length_flatten_map_range (c := 3) _ fun _ _ => rfl, Nat.mul_comm]

theorem length_poseidon2Rounds_flatten (rf rp : Nat) :
    (poseidon2Rounds rf rp).flatten.length = 1 + 3 * (rf + rp) := by
  simp only [poseidon2Rounds, List.flatten_append, leadWith_flatten, List.length_append,
    length_poseidon2FullRounds_flatten, length_poseidon2PartialRounds_flatten, List.length_cons, List.length_nil]
  omega

/-- Settles O44: `exec_permute` with the expansion written out, and the layers of each family counted. -/
theorem permuteAppliesItsExpansion : Obligations.PermuteAppliesItsExpansion := by
  intro s hready hp rf rp h rescue rescuePrime poseidon poseidonOpt poseidon2 layers
  have hrescue : (rescueRounds rf).flatten = rescue := leadWith_flatten _ _
  have hopt : (poseidonOptRounds rf rp).flatten = poseidonOpt := by
    simp only [poseidonOptRounds, List.flatten_append, leadWith_flatten, optPartialRounds_flatten, optFullRounds,
      Nat.zero_add, ← List.append_assoc]
    rfl
  have hposeidon2 : (poseidon2Rounds rf rp).flatten = poseidon2 := by
    simp only [poseidon2Rounds, List.flatten_append, leadWith_flatten, poseidon2FullRounds, Nat.zero_add,
      ← List.append_assoc]
    rfl
  have hlayers : s.expansion = layers := by rw [expansion_eq, hrescue, hopt, hposeidon2]; rfl
  refine ⟨?_, hrescue ▸ length_rescueRounds_flatten rf, length_rescuePrimeRounds_flatten rf,
    length_poseidonRounds_flatten rf rp, fun _ hrp => hopt ▸ length_poseidonOptRounds_flatten rf hrp,
    fun _ => hposeidon2 ▸ length_poseidon2Rounds_flatten rf rp⟩
  rw [exec_permute hready, if_neg (by simp [hp]), State.permute, hlayers]
  rfl

-- O48: PERMUTE is a function

/-- Settles O48: what PERMUTE computes is the same in both states (`permute_congr`), and it writes only the
registers. -/
theorem permuteIsAFunction : Obligations.PermuteIsAFunction := by
  intro s u hg hr hparams hcsr hs hu hps hpu
  refine ⟨s.permute s.regs, ?_, ?_⟩
  · rw [exec_permute hs, if_neg (by simp [hps])]; rfl
  · rw [exec_permute hu, if_neg (by simp [hpu]), permute_congr hg hparams hcsr, hr]; rfl

end Sys2Proof.Machine

/-! SUPPORT for O47 and O50. Row vectors over the field: two of them are equal when their elements are equal in
`ZMod P`, so the laws of the product (R170) are proved there. -/

namespace Sys2Proof.Machine

variable {g : Geometry} {v w : List Nat} {a b : Mat} {j : Nat}

-- Elements in the field

/-- Two vectors are equal when their elements are in the same classes. -/
theorem isVector_ext (hv : IsVector g v) (hw : IsVector g w)
    (h : ∀ j < g.W, (v.getD j 0 : ZMod g.P) = w.getD j 0) : v = w := by
  obtain ⟨hvl, hvP⟩ := hv
  obtain ⟨hwl, hwP⟩ := hw
  refine List.ext_getElem (hvl.trans hwl.symm) fun j hjv hjw => ?_
  have hj := h j (hvl ▸ hjv)
  rw [List.getD_eq_getElem _ _ hjv, List.getD_eq_getElem _ _ hjw] at hj
  exact eq_of_cast_eq (hvP _ (List.getElem_mem _)) (hwP _ (List.getElem_mem _)) hj

theorem isVector_vecmat (hP : 0 < g.P) (v : List Nat) (m : Mat) : IsVector g (vecmat g.P g.W v m) :=
  ⟨vecmat_length _ _ _, by simpa [vecmat] using fun j _ => fieldSum_lt hP _⟩

theorem isVector_vecAdd (hP : 0 < g.P) (hv : v.length = g.W) (hw : w.length = g.W) :
    IsVector g (vecAdd g.P v w) :=
  ⟨by simp [vecAdd, hv, hw], mem_zipWith_lt (fieldAdd_lt hP) _ _⟩

theorem isVector_mapAt {f : Nat → Nat} (hf : ∀ x, f x < g.P) (i : Nat) (hv : IsVector g v) :
    IsVector g (mapAt f i v) :=
  ⟨by simp [mapAt, hv.1], mem_set_lt hv.2 (hf _)⟩

/-- An element of a product, as a sum over the field (R170). -/
theorem cast_vecmat_getD (v : List Nat) (m : Mat) (hj : j < g.W) :
    ((vecmat g.P g.W v m).getD j 0 : ZMod g.P) = ∑ i ∈ Finset.range g.W, (v.getD i 0 : ZMod g.P) * m.entry i j := by
  rw [vecmat_getD v m hj, ZMod.natCast_mod, Nat.cast_list_sum, List.map_map]
  simp only [Function.comp_def, Nat.cast_mul]
  rfl

theorem vecAdd_getD (hv : v.length = g.W) (hw : w.length = g.W) (hj : j < g.W) :
    (vecAdd g.P v w).getD j 0 = fieldAdd g.P (v.getD j 0) (w.getD j 0) := by
  rw [vecAdd, zipWith_eq_map_range _ hv hw]
  simp [hj]

theorem cast_vecAdd_getD (hv : v.length = g.W) (hw : w.length = g.W) (hj : j < g.W) :
    ((vecAdd g.P v w).getD j 0 : ZMod g.P) = v.getD j 0 + w.getD j 0 := by
  rw [vecAdd_getD hv hw hj, cast_fieldAdd]

theorem mapAt_getD_same (f : Nat → Nat) {i : Nat} (hi : i < v.length) : (mapAt f i v).getD i 0 = f (v.getD i 0) := by
  simp [mapAt, hi]

theorem mapAt_getD_other (f : Nat → Nat) {i : Nat} (h : i ≠ j) : (mapAt f i v).getD j 0 = v.getD j 0 := by
  simp [mapAt, List.getElem?_set_ne h]

/-- An entry of a matrix product, as a sum over the field (R292). -/
theorem cast_matMul_entry {n k m i : Nat} (P : Nat) (a b : Mat) (hi : i < n) (hj : j < m) :
    ((matMul P n k m a b).entry i j : ZMod P) = ∑ t ∈ Finset.range k, (a.entry i t : ZMod P) * b.entry t j := by
  rw [matMul, matOf_entry _ hi hj, cast_fieldSum, List.map_map]
  simp only [Function.comp_def, cast_fieldMul]
  rfl

-- The laws of the product

/-- Two products in a row are one product by the matrix product. -/
theorem vecmat_vecmat (hP : 0 < g.P) (v : List Nat) (a b : Mat) :
    vecmat g.P g.W (vecmat g.P g.W v a) b = vecmat g.P g.W v (matMul g.P g.W g.W g.W a b) := by
  refine isVector_ext (isVector_vecmat hP _ _) (isVector_vecmat hP _ _) fun j hj => ?_
  rw [cast_vecmat_getD _ _ hj, cast_vecmat_getD _ _ hj]
  calc ∑ t ∈ Finset.range g.W, ((vecmat g.P g.W v a).getD t 0 : ZMod g.P) * b.entry t j
    _ = ∑ t ∈ Finset.range g.W, ∑ i ∈ Finset.range g.W, (v.getD i 0 : ZMod g.P) * a.entry i t * b.entry t j :=
      Finset.sum_congr rfl fun t ht => by rw [cast_vecmat_getD _ _ (Finset.mem_range.1 ht), Finset.sum_mul]
    _ = ∑ i ∈ Finset.range g.W, ∑ t ∈ Finset.range g.W, (v.getD i 0 : ZMod g.P) * a.entry i t * b.entry t j :=
      Finset.sum_comm
    _ = ∑ i ∈ Finset.range g.W, (v.getD i 0 : ZMod g.P) * (matMul g.P g.W g.W g.W a b).entry i j :=
      Finset.sum_congr rfl fun i hi => by
        rw [cast_matMul_entry _ _ _ (Finset.mem_range.1 hi) hj, Finset.mul_sum]
        exact Finset.sum_congr rfl fun t _ => mul_assoc _ _ _

/-- The product is additive in the vector. -/
theorem vecmat_vecAdd (hP : 0 < g.P) (hv : v.length = g.W) (hw : w.length = g.W) (m : Mat) :
    vecmat g.P g.W (vecAdd g.P v w) m = vecAdd g.P (vecmat g.P g.W v m) (vecmat g.P g.W w m) := by
  refine isVector_ext (isVector_vecmat hP _ _)
    (isVector_vecAdd hP (vecmat_length _ _ _) (vecmat_length _ _ _)) fun j hj => ?_
  rw [cast_vecAdd_getD (vecmat_length _ _ _) (vecmat_length _ _ _) hj, cast_vecmat_getD _ _ hj,
    cast_vecmat_getD _ _ hj, cast_vecmat_getD _ _ hj, ← Finset.sum_add_distrib]
  exact Finset.sum_congr rfl fun i hi => by rw [cast_vecAdd_getD hv hw (Finset.mem_range.1 hi), add_mul]

/-- The product by the identity. -/
theorem vecmat_identityMat (hP : 0 < g.P) (hv : IsVector g v) : vecmat g.P g.W v (identityMat g.W) = v := by
  refine isVector_ext (isVector_vecmat hP _ _) hv fun j hj => ?_
  have hterm : ∀ i ∈ Finset.range g.W, (v.getD i 0 : ZMod g.P) * (identityMat g.W).entry i j
      = if i = j then (v.getD i 0 : ZMod g.P) else 0 := fun i hi => by
    rw [identityMat, matOf_entry _ (Finset.mem_range.1 hi) hj]
    split <;> simp
  rw [cast_vecmat_getD _ _ hj, Finset.sum_congr rfl hterm, Finset.sum_ite_eq', if_pos (Finset.mem_range.2 hj)]

/-- An inverse matrix undoes the product (R293). -/
theorem vecmat_matInverse (hP : 0 < g.P) (h : matInverse g.P g.W a = some b) (hv : IsVector g v) :
    vecmat g.P g.W (vecmat g.P g.W v b) a = v := by
  have hleft : matMul g.P g.W g.W g.W b a = identityMat g.W := by
    unfold matInverse at h
    simp only at h
    split at h
    · cases h
    · split at h
      · next hinv => cases h; exact hinv.2
      · cases h
  rw [vecmat_vecmat hP, hleft, vecmat_identityMat hP hv]

/-- The first row and the first column are those of the identity. -/
def IsBordered (W : Nat) (m : Mat) : Prop :=
  m.entry 0 0 = 1 ∧ ∀ j, 1 ≤ j → j < W → m.entry 0 j = 0 ∧ m.entry j 0 = 0

/-- A change of element 0 commutes with the product by a bordered matrix (R181). -/
theorem vecmat_mapAt_zero (hW : 0 < g.W) {m : Mat} (hm : IsBordered g.W m) {f : Nat → Nat} (hf : ∀ x, f x < g.P)
    (hv : IsVector g v) : vecmat g.P g.W (mapAt f 0 v) m = mapAt f 0 (vecmat g.P g.W v m) := by
  obtain ⟨hcorner, hborder⟩ := hm
  have hP : 0 < g.P := Nat.zero_lt_of_lt (hf 0)
  have hprod : ∀ u, IsVector g u → (vecmat g.P g.W u m).getD 0 0 = u.getD 0 0 := fun u hu => by
    refine eq_of_cast_eq (getD_lt hP (isVector_vecmat hP u m).2 0) (getD_lt hP hu.2 0) ?_
    rw [cast_vecmat_getD _ _ hW, Finset.sum_eq_single_of_mem 0 (Finset.mem_range.2 hW) fun i hi hi0 => by
      rw [(hborder i (Nat.pos_of_ne_zero hi0) (Finset.mem_range.1 hi)).2, Nat.cast_zero, mul_zero], hcorner]
    simp
  have hu := isVector_mapAt hf 0 hv
  refine isVector_ext (isVector_vecmat hP _ _) (isVector_mapAt hf 0 (isVector_vecmat hP v m)) fun j hj => ?_
  rcases Nat.eq_zero_or_pos j with rfl | hj0
  · rw [hprod _ hu, mapAt_getD_same f (by rw [hv.1]; exact hW), mapAt_getD_same f (by simpa using hW), hprod _ hv]
  · rw [mapAt_getD_other f hj0.ne, cast_vecmat_getD _ _ hj, cast_vecmat_getD _ _ hj]
    refine Finset.sum_congr rfl fun i _ => ?_
    rcases Nat.eq_zero_or_pos i with rfl | hi0
    · rw [(hborder j hj0 hj).1, Nat.cast_zero, mul_zero, mul_zero]
    · rw [mapAt_getD_other f hi0.ne]

end Sys2Proof.Machine

/-! PROOF of O47. The partial rounds of the naive schedule become those of the optimised one in two passes over the
rounds, from the last to the first: the backward pass of R295 moves all constants but those of element 0 in front, and
the decomposition of R294 moves the bordered factors in front. Both move something linear that does not read or write
element 0 through the S-box on element 0. -/

namespace Sys2Proof.Machine

variable {s : State} {g : Geometry} {mds minv : Mat}

-- Rounds that change element 0 and multiply by a matrix

/-- One partial round: element 0 through `r.1`, then the product by `r.2` (R197, R203). -/
def partialRound (g : Geometry) (v : List Nat) (r : (Nat → Nat) × Mat) : List Nat :=
  vecmat g.P g.W (mapAt r.1 0 v) r.2

/-- Partial rounds, one after the other. -/
def partialRounds (g : Geometry) (rs : List ((Nat → Nat) × Mat)) (v : List Nat) : List Nat :=
  rs.foldl (partialRound g) v

theorem partialRounds_snoc (g : Geometry) (rs : List ((Nat → Nat) × Mat)) (r : (Nat → Nat) × Mat) (v : List Nat) :
    partialRounds g (rs ++ [r]) v = partialRound g (partialRounds g rs v) r := by
  simp [partialRounds]

theorem isVector_partialRounds (hP : 0 < g.P) (rs : List ((Nat → Nat) × Mat)) {v : List Nat} (hv : IsVector g v) :
    IsVector g (partialRounds g rs v) := by
  induction rs generalizing v with
  | nil => exact hv
  | cons r rs ih => exact ih (isVector_vecmat hP _ _)

-- The decomposition (R294)

theorem isBordered_blockMat {W : Nat} (hW : 0 < W) (a : Mat) : IsBordered W (blockMat W a) := by
  refine ⟨?_, fun j hj hjW => ⟨?_, ?_⟩⟩
  · simp [blockMat, injectMat_entry hW hW, identityMat, matOf_entry _ hW hW]
  · rw [blockMat, injectMat_entry hW hjW, if_neg (by omega), identityMat, matOf_entry _ hW hjW, if_neg (by omega)]
  · rw [blockMat, injectMat_entry hjW hW, if_neg (by omega), identityMat, matOf_entry _ hjW hW, if_neg (by omega)]

/-- The identity off row 0 and column 0 (R181). -/
def IsSparse (W : Nat) (q : Mat) : Prop :=
  ∀ i j, 1 ≤ i → i < W → 1 ≤ j → j < W → q.entry i j = if i = j then 1 else 0

theorem isSparse_sparseFactor (W : Nat) (a what : Mat) : IsSparse W (sparseFactor W a what) := by
  intro i j hi hiW hj hjW
  rw [sparseFactor, matOf_entry _ hiW hjW, if_neg (by omega), if_neg (by omega)]

/-- One iteration of the decomposition: the matrix is its bordered factor times its sparse factor, and the rest of the
iterations decompose `mds` times the bordered factor (R294). -/
theorem decomposeFrom_succ {P W n : Nat} {a mp mp' : Mat} {acc ms : List Mat}
    (h : decomposeFrom P W mds (n + 1) a mp acc = some (mp', ms)) :
    ∃ q, IsSparse W q ∧ matMul P W W W (blockMat W a) q = a ∧
      decomposeFrom P W mds n (matMul P W W W mds (blockMat W a)) (blockMat W a) (q :: acc) = some (mp', ms) := by
  rw [decomposeFrom] at h
  split at h
  · cases h
  · simp only at h
    split at h
    · next hfactor => exact ⟨_, isSparse_sparseFactor _ _ _, hfactor, h⟩
    · cases h

/-- The decomposition turns rounds by `mds`, followed by the bordered factor in hand, into rounds by the sparse factors
it finds, preceded by the last bordered factor (R294, R297). -/
theorem partialRounds_decomposeFrom (hP : 0 < g.P) (hW : 0 < g.W) :
    ∀ {n : Nat} {a mp mp' : Mat} {acc ms : List Mat}, decomposeFrom g.P g.W mds n a mp acc = some (mp', ms) →
      (∀ v, IsVector g v → vecmat g.P g.W (vecmat g.P g.W v mds) mp = vecmat g.P g.W v a) →
      ∃ qs, ms = qs ++ acc ∧ qs.length = n ∧ (∀ q ∈ qs, IsSparse g.W q) ∧
        ∀ fs : List (Nat → Nat), fs.length = n → (∀ f ∈ fs, ∀ x, f x < g.P) → ∀ v, IsVector g v →
          vecmat g.P g.W (partialRounds g (fs.map fun f => (f, mds)) v) mp
            = partialRounds g (fs.zip qs) (vecmat g.P g.W v mp')
  | 0, a, mp, mp', acc, ms, h, _ => by
    rw [decomposeFrom] at h
    cases h
    refine ⟨[], rfl, rfl, by simp, fun fs hfs _ v _ => ?_⟩
    obtain rfl := List.length_eq_zero_iff.1 hfs
    rfl
  | n + 1, a, mp, mp', acc, ms, h, ha => by
    obtain ⟨q, hq, hfactor, hrest⟩ := decomposeFrom_succ h
    obtain ⟨qs, rfl, hlen, hqs, hrounds⟩ :=
      partialRounds_decomposeFrom hP hW hrest fun v _ => vecmat_vecmat hP v _ _
    refine ⟨qs ++ [q], by simp, by simp [hlen], ?_, fun fs hfs hf v hv => ?_⟩
    · intro q' hq'
      rcases List.mem_append.1 hq' with hq' | hq'
      · exact hqs q' hq'
      · exact List.mem_singleton.1 hq' ▸ hq
    · obtain rfl | ⟨fs, f, rfl⟩ := List.eq_nil_or_concat fs
      · cases hfs
      rw [List.concat_eq_append] at hfs hf ⊢
      have hfs : fs.length = n := by simpa using hfs
      have hu := isVector_partialRounds hP (fs.map fun f => (f, mds)) hv
      have hfP : ∀ x, f x < g.P := hf f (by simp)
      rw [List.map_append, List.zip_append (hfs.trans hlen.symm)]
      simp only [List.map_cons, List.map_nil, List.zip_cons_cons, List.zip_nil_left, partialRounds_snoc]
      rw [← hrounds fs hfs (fun f' hf' => hf f' (by simp [hf'])) v hv]
      generalize partialRounds g (fs.map fun f => (f, mds)) v = u at hu
      calc vecmat g.P g.W (partialRound g u (f, mds)) mp
        _ = vecmat g.P g.W (mapAt f 0 u) a := ha _ (isVector_mapAt hfP 0 hu)
        _ = vecmat g.P g.W (vecmat g.P g.W (mapAt f 0 u) (blockMat g.W a)) q := by rw [vecmat_vecmat hP, hfactor]
        _ = partialRound g (vecmat g.P g.W u (blockMat g.W a)) (f, q) := by
          rw [vecmat_mapAt_zero hW (isBordered_blockMat hW a) hfP hu]; rfl

-- Constant folding (R295)

/-- The S-box on element 0, then the addition of the single constant `b` (R203). -/
def sboxThenAdd (P : Nat) (b x : Nat) : Nat := fieldAdd P (sboxForward P x) b

/-- The constants `c` of a partial round with those of `t` added, element 0 apart (R295). -/
def foldedConstants (P W : Nat) (c t : List Nat) : List Nat :=
  (List.range W).map fun j => if j = 0 then c.getD 0 0 else fieldAdd P (c.getD j 0) (t.getD j 0)

theorem foldBackFrom_succ (P W : Nat) (minv : Mat) (c : Nat → List Nat) (k : Nat) (cp acc : List Nat) :
    foldBackFrom P W minv c (k + 1) cp acc
      = foldBackFrom P W minv c k (foldedConstants P W (c (k + 1)) (vecmat P W cp minv))
          ((vecmat P W cp minv).getD 0 0 :: acc) := rfl

theorem foldedConstants_getD_zero {W : Nat} (hW : 0 < W) (P : Nat) (c t : List Nat) :
    (foldedConstants P W c t).getD 0 0 = c.getD 0 0 := by
  simp [foldedConstants, hW]

theorem foldedConstants_getD_pos {W j : Nat} (hj0 : 0 < j) (hj : j < W) (P : Nat) (c t : List Nat) :
    (foldedConstants P W c t).getD j 0 = fieldAdd P (c.getD j 0) (t.getD j 0) := by
  simp [foldedConstants, hj, hj0.ne']

theorem isVector_foldedConstants (hP : 0 < g.P) {c : List Nat} (hc : IsVector g c) (t : List Nat) :
    IsVector g (foldedConstants g.P g.W c t) := by
  refine ⟨by simp [foldedConstants], fun x hx => ?_⟩
  obtain ⟨j, -, rfl⟩ := List.mem_map.1 hx
  split
  · exact getD_lt hP hc.2 0
  · exact fieldAdd_lt hP _ _

/-- Adding `t` after the S-box on element 0 is adding `t[0]` after it and the rest of `t` before it (R295). -/
theorem vecAdd_mapAt_sbox {v c t : List Nat} (hP : 0 < g.P) (hW : 0 < g.W) (hv : v.length = g.W) (hc : IsVector g c)
    (ht : t.length = g.W) :
    vecAdd g.P (mapAt (sboxForward g.P) 0 (vecAdd g.P v c)) t
      = mapAt (sboxThenAdd g.P (t.getD 0 0)) 0 (vecAdd g.P v (foldedConstants g.P g.W c t)) := by
  have hfold := (isVector_foldedConstants hP hc t).1
  have hvc := isVector_vecAdd hP hv hc.1
  have hvf := isVector_vecAdd hP hv hfold
  have hu := isVector_mapAt (sboxForward_lt hP) 0 hvc
  refine isVector_ext (isVector_vecAdd hP hu.1 ht) (isVector_mapAt (fun _ => fieldAdd_lt hP _ _) 0 hvf) fun j hj => ?_
  rw [cast_vecAdd_getD hu.1 ht hj]
  rcases Nat.eq_zero_or_pos j with rfl | hj0
  · rw [mapAt_getD_same _ (hW.trans_eq hvc.1.symm), mapAt_getD_same _ (hW.trans_eq hvf.1.symm), vecAdd_getD hv hc.1 hW,
      vecAdd_getD hv hfold hW, foldedConstants_getD_zero hW, sboxThenAdd, cast_fieldAdd]
  · rw [mapAt_getD_other _ hj0.ne, mapAt_getD_other _ hj0.ne, cast_vecAdd_getD hv hc.1 hj,
      cast_vecAdd_getD hv hfold hj, foldedConstants_getD_pos hj0 hj, cast_fieldAdd, add_assoc]

/-- The naive partial rounds with the constants `c 1`, `c 2`, to `c k` (R197). -/
def naivePartialRounds (g : Geometry) (mds : Mat) (c : Nat → List Nat) (k : Nat) (v : List Nat) : List Nat :=
  (List.range k).foldl (fun v i => partialRound g (vecAdd g.P v (c (i + 1))) (sboxForward g.P, mds)) v

theorem naivePartialRounds_succ (c : Nat → List Nat) (k : Nat) (v : List Nat) :
    naivePartialRounds g mds c (k + 1) v
      = partialRound g (vecAdd g.P (naivePartialRounds g mds c k v) (c (k + 1))) (sboxForward g.P, mds) := by
  simp [naivePartialRounds, List.range_succ]

theorem isVector_naivePartialRounds (hP : 0 < g.P) (c : Nat → List Nat) (k : Nat) {v : List Nat}
    (hv : IsVector g v) : IsVector g (naivePartialRounds g mds c k v) := by
  cases k with
  | zero => exact hv
  | succ k => rw [naivePartialRounds_succ]; exact isVector_vecmat hP _ _

/-- The backward pass turns naive partial rounds, followed by the addition of the vector in hand, into rounds with
single constants, preceded by the addition of the last vector (R295, R297). -/
theorem naivePartialRounds_foldBackFrom (hP : 0 < g.P) (hW : 0 < g.W)
    (hinv : ∀ v, IsVector g v → vecmat g.P g.W (vecmat g.P g.W v minv) mds = v) {c : Nat → List Nat}
    (hc : ∀ i, IsVector g (c i)) :
    ∀ (k : Nat) {cp : List Nat} (acc : List Nat), IsVector g cp →
      ∃ cp' bs, foldBackFrom g.P g.W minv c k cp acc = (cp', bs ++ acc) ∧ bs.length = k ∧
        ∀ v, IsVector g v → vecAdd g.P (naivePartialRounds g mds c k v) cp
          = partialRounds g (bs.map fun b => (sboxThenAdd g.P b, mds)) (vecAdd g.P v cp')
  | 0, cp, acc, hcp => ⟨cp, [], rfl, rfl, fun _ _ => rfl⟩
  | k + 1, cp, acc, hcp => by
    have htlen : (vecmat g.P g.W cp minv).length = g.W := vecmat_length _ _ _
    obtain ⟨cp', bs, hfrom, hlen, hrounds⟩ := naivePartialRounds_foldBackFrom hP hW hinv hc k
      ((vecmat g.P g.W cp minv).getD 0 0 :: acc) (isVector_foldedConstants hP (hc (k + 1)) (vecmat g.P g.W cp minv))
    refine ⟨cp', bs ++ [(vecmat g.P g.W cp minv).getD 0 0], ?_, by simp [hlen], fun v hv => ?_⟩
    · rw [foldBackFrom_succ, hfrom]; simp
    · have hu := isVector_naivePartialRounds (mds := mds) hP c k hv
      have hsbox := isVector_mapAt (sboxForward_lt hP) 0 (isVector_vecAdd hP hu.1 (hc (k + 1)).1)
      rw [List.map_append, List.map_singleton, partialRounds_snoc, ← hrounds v hv, naivePartialRounds_succ,
        partialRound, partialRound, ← vecAdd_mapAt_sbox hP hW hu.1 (hc (k + 1)) htlen, vecmat_vecAdd hP hsbox.1 htlen,
        hinv cp hcp]

-- What a consistent bundle holds (R204)

/-- A consistent bundle is the decomposition and the folded constants, by an inverse of the MDS matrix (R204). -/
theorem bundleConsistent_spec (h : s.bundleConsistent = true) :
    ∃ minv, matInverse s.geom.P s.geom.W (s.matrix .mds) = some minv ∧
      decompose s.geom.P s.geom.W s.rp (s.matrix .mds)
        = some (s.matrix .mprime, (List.range s.rp).map s.sparseMatrix) ∧
      foldConstants s.geom.P s.geom.W s.rf s.rp minv (s.vector .rc)
        = (List.range (s.rf + s.rp)).map (s.vector .orc) := by
  unfold State.bundleConsistent at h
  split at h
  · cases h
  · next minv hinv =>
    obtain ⟨hdecompose, hfold⟩ := Bool.and_eq_true_iff.1 h
    exact ⟨minv, hinv, of_decide_eq_true hdecompose, of_decide_eq_true hfold⟩

/-- The folded constants, by the rounds they stand in: those of the full rounds are unchanged, the first partial round
has the vector `cp` of the backward pass, each later one the single constant of `bs` (R295, R296). -/
theorem foldConstants_spec {rf k P W : Nat} {rc orc : Nat → List Nat} {cp bs : List Nat} (hlen : bs.length = k)
    (hback : foldBackFrom P W minv (fun i => rc (rf / 2 + i - 1)) k (rc (rf / 2 + k)) [] = (cp, bs))
    (h : foldConstants P W rf (k + 1) minv rc = (List.range (rf + (k + 1))).map orc) :
    (∀ r < rf / 2, orc r = rc r) ∧ orc (rf / 2) = cp ∧
      bs = (List.range k).map (fun i => (orc (rf / 2 + i + 1)).getD 0 0) ∧
      ∀ i < rf - rf / 2, orc (rf / 2 + (k + 1) + i) = rc (rf / 2 + (k + 1) + i) := by
  have hrounds : rf + (k + 1) = rf / 2 + 1 + k + (rf - rf / 2) := by omega
  have hlast : rf / 2 + (k + 1) - 1 = rf / 2 + k := rfl
  simp only [foldConstants, Nat.add_sub_cancel, hlast, hback] at h
  rw [hrounds, List.range_add, List.range_add, List.range_succ] at h
  simp only [List.map_append, List.map_map, List.map_singleton] at h
  obtain ⟨h, hend⟩ := List.append_inj h (by simp [hlen])
  obtain ⟨h, hsingle⟩ := List.append_inj h (by simp)
  obtain ⟨hfirst, hpartial⟩ := List.append_inj h (by simp)
  refine ⟨fun r hr => (List.map_inj_left.1 hfirst r (List.mem_range.2 hr)).symm, ?_, ?_, fun i hi => ?_⟩
  · simpa using hpartial.symm
  · have hheads := congrArg (List.map fun u : List Nat => u.getD 0 0) hsingle
    simpa [Function.comp_def, Nat.add_right_comm] using hheads
  · have := List.map_inj_left.1 hend i (List.mem_range.2 hi)
    simp only [Function.comp_apply] at this
    rw [this]; congr 1; omega

-- The schedules, as rounds (R197, R203)

theorem applyLayers_flatten (s : State) (rounds : List (List Layer)) (v : List Nat) :
    applyLayers s rounds.flatten v = rounds.foldl (fun v r => applyLayers s r v) v := by
  induction rounds generalizing v with
  | nil => rfl
  | cons r rounds ih => rw [List.flatten_cons, applyLayers_append, ih, List.foldl_cons]

/-- Rounds that agree one by one. -/
theorem applyLayers_rounds_congr {f f' : Nat → List Layer} {n : Nat}
    (h : ∀ i < n, ∀ v, applyLayers s (f i) v = applyLayers s (f' i) v) (v : List Nat) :
    applyLayers s ((List.range n).map f).flatten v = applyLayers s ((List.range n).map f').flatten v := by
  rw [applyLayers_flatten, applyLayers_flatten, List.foldl_map, List.foldl_map]
  exact List.foldl_ext _ _ v fun v i hi => h i (List.mem_range.1 hi) v

/-- The naive schedule is full rounds, partial rounds, full rounds (R197). -/
theorem poseidonRounds_eq (rf rp : Nat) : poseidonRounds rf rp =
    (List.range (rf / 2)).map (fun i => [.arc i, .sbf, .mds]) ++
    ((List.range rp).map (fun i => [.arc (rf / 2 + i), .sbfe 0, .mds]) ++
    (List.range (rf - rf / 2)).map fun i => [.arc (rf / 2 + rp + i), .sbf, .mds]) := by
  rw [poseidonRounds, show rf + rp = rf / 2 + (rp + (rf - rf / 2)) by omega, List.range_add, List.map_append,
    List.range_add, List.map_append, List.map_append]
  simp only [List.map_map]
  congr 1
  · refine List.map_congr_left fun i hi => ?_
    rw [if_pos (.inl (List.mem_range.1 hi))]
  congr 1
  · refine List.map_congr_left fun i hi => ?_
    have hi := List.mem_range.1 hi
    simp only [Function.comp_apply]
    rw [if_neg (by omega)]
  · refine List.map_congr_left fun i _ => ?_
    simp only [Function.comp_apply]
    rw [if_pos (by omega), Nat.add_assoc]

/-- Full rounds with equal constants are equal, whichever space the constants stand in (R203). -/
theorem applyLayers_fullRound {r : Nat} (h : s.vector .orc r = s.vector .rc r) (v : List Nat) :
    applyLayers s [.arco r, .sbf, .mds] v = applyLayers s [.arc r, .sbf, .mds] v := by
  simp only [applyLayers_cons, applyLayer, h]

theorem applyLayers_naivePartial (s : State) (h rp : Nat) (v : List Nat) :
    applyLayers s ((List.range rp).map fun i => [.arc (h + i), .sbfe 0, .mds]).flatten v
      = naivePartialRounds s.geom (s.matrix .mds) (fun i => s.vector .rc (h + i - 1)) rp v := by
  rw [applyLayers_flatten, List.foldl_map]
  rfl

theorem mapAt_mapAt_zero (f f' : Nat → Nat) (v : List Nat) :
    mapAt f' 0 (mapAt f 0 v) = mapAt (fun x => f' (f x)) 0 v := by
  cases v <;> rfl

/-- What a partial round of the optimised schedule does to element 0: the last one adds no constant (R203). -/
def State.optElement (s : State) (first rp i : Nat) : Nat → Nat :=
  if i + 1 < rp then sboxThenAdd s.geom.P (s.entry .orc ((first + i + 1) * s.geom.W)) else sboxForward s.geom.P

theorem optElement_lt (hP : 0 < s.geom.P) (first rp i x : Nat) : s.optElement first rp i x < s.geom.P := by
  unfold State.optElement
  split
  · exact fieldAdd_lt hP _ _
  · exact sboxForward_lt hP _

/-- A partial round of the optimised schedule, when its sparse matrix has the shape of R181 (R203). -/
theorem applyLayers_optPartialRound {first rp i : Nat} (hq : IsSparse s.geom.W (s.sparseMatrix i)) (v : List Nat) :
    applyLayers s (if i + 1 < rp then [.sbfe 0, .arco0 (first + i + 1), .spm i] else [.sbfe 0, .spm i]) v
      = partialRound s.geom v (s.optElement first rp i, s.sparseMatrix i) := by
  have hspm : ∀ u, applyLayer s (.spm i) u = vecmat s.geom.P s.geom.W u (s.sparseMatrix i) := fun u =>
    sparseProductIsVecmat _ _ _ _ hq
  have harco0 : ∀ r u, applyLayer s (.arco0 r) u
      = mapAt (fun x => fieldAdd s.geom.P x (s.entry .orc (r * s.geom.W))) 0 u := fun _ _ => rfl
  have hsbfe : ∀ u, applyLayer s (.sbfe 0) u = mapAt (sboxForward s.geom.P) 0 u := fun _ => rfl
  unfold partialRound State.optElement
  split <;> simp only [applyLayers_cons, applyLayers_nil, hspm, hsbfe, harco0, mapAt_mapAt_zero]
  rfl

theorem applyLayers_optPartialRounds {first rp : Nat} (hq : ∀ i < rp, IsSparse s.geom.W (s.sparseMatrix i))
    (v : List Nat) : applyLayers s (optPartialRounds first rp).flatten v
      = partialRounds s.geom
          ((List.range rp).map fun i => (s.optElement first rp i, s.sparseMatrix i)) v := by
  rw [applyLayers_flatten, optPartialRounds, partialRounds, List.foldl_map, List.foldl_map]
  exact List.foldl_ext _ _ v fun v i hi => applyLayers_optPartialRound (hq i (List.mem_range.1 hi)) v

-- O47: the two schedules agree

theorem isVector_vector (h : Inv s) {sp : Space} (hb : entryBound s.geom sp = s.geom.P) (r : Nat) :
    IsVector s.geom (s.vector sp r) := by
  have hP : 0 < entryBound s.geom sp := hb ▸ h.geometry.prime.pos
  refine ⟨vector_length s sp r, fun x hx => ?_⟩
  obtain ⟨j, -, rfl⟩ := List.mem_map.1 hx
  exact hb ▸ (h.spaces sp).entry_lt hP _

/-- The constants of a consistent bundle: the full rounds keep theirs, and the naive partial rounds up to the constants
of the last one are rounds with single constants (R295). -/
theorem bundle_constants (hinv : Inv s) (hb : s.bundleConsistent = true) {k : Nat} (hk : s.rp = k + 1) :
    (∀ i < s.rf / 2, s.vector .orc i = s.vector .rc i) ∧
      (∀ i < s.rf - s.rf / 2, s.vector .orc (s.rf / 2 + s.rp + i) = s.vector .rc (s.rf / 2 + s.rp + i)) ∧
      ∀ v, IsVector s.geom v →
        vecAdd s.geom.P (naivePartialRounds s.geom (s.matrix .mds) (fun i => s.vector .rc (s.rf / 2 + i - 1)) k v)
            (s.vector .rc (s.rf / 2 + k))
          = partialRounds s.geom ((List.range k).map fun i =>
              (sboxThenAdd s.geom.P (s.entry .orc ((s.rf / 2 + i + 1) * s.geom.W)), s.matrix .mds))
              (vecAdd s.geom.P v (s.vector .orc (s.rf / 2))) := by
  have hP := hinv.geometry.prime.pos
  have hW : 0 < s.geom.W := Nat.lt_of_lt_of_le (by decide) hinv.geometry.twoLeW
  have hrc : ∀ r, IsVector s.geom (s.vector .rc r) := isVector_vector hinv rfl
  obtain ⟨minv, hmatInverse, -, hconstants⟩ := bundleConsistent_spec hb
  rw [hk] at hconstants ⊢
  obtain ⟨cp, bs, hback, hlen, hfold⟩ := naivePartialRounds_foldBackFrom hP hW
    (fun u hu => vecmat_matInverse hP hmatInverse hu) (c := fun i => s.vector .rc (s.rf / 2 + i - 1))
    (fun i => hrc _) k [] (hrc (s.rf / 2 + k))
  rw [List.append_nil] at hback
  obtain ⟨hleading, rfl, rfl, htrailing⟩ := foldConstants_spec hlen hback hconstants
  refine ⟨hleading, htrailing, fun v hv => ?_⟩
  rw [hfold v hv, List.map_map]
  simp only [Function.comp_def, vector_getD s .orc _ hW, Nat.add_zero]

/-- The matrices of a consistent bundle: rounds by the MDS matrix are rounds by the sparse matrices after MPRIME
(R294). -/
theorem bundle_matrices (hinv : Inv s) (hb : s.bundleConsistent = true) :
    (∀ i < s.rp, IsSparse s.geom.W (s.sparseMatrix i)) ∧
      ∀ f : Nat → Nat → Nat, (∀ i x, f i x < s.geom.P) → ∀ v, IsVector s.geom v →
        partialRounds s.geom ((List.range s.rp).map fun i => (f i, s.matrix .mds)) v
          = partialRounds s.geom ((List.range s.rp).map fun i => (f i, s.sparseMatrix i))
              (vecmat s.geom.P s.geom.W v (s.matrix .mprime)) := by
  have hP := hinv.geometry.prime.pos
  have hW : 0 < s.geom.W := Nat.lt_of_lt_of_le (by decide) hinv.geometry.twoLeW
  obtain ⟨-, -, hdecompose, -⟩ := bundleConsistent_spec hb
  obtain ⟨qs, hqs, -, hsparse, hrounds⟩ := partialRounds_decomposeFrom hP hW hdecompose fun u _ =>
    vecmat_identityMat hP (isVector_vecmat hP u _)
  obtain rfl : (List.range s.rp).map s.sparseMatrix = qs := hqs.trans (List.append_nil _)
  refine ⟨fun i hi => hsparse _ (List.mem_map_of_mem (List.mem_range.2 hi)), fun f hf v hv => ?_⟩
  have hbelow : ∀ e ∈ (List.range s.rp).map f, ∀ x, e x < s.geom.P := fun e he x => by
    obtain ⟨i, -, rfl⟩ := List.mem_map.1 he
    exact hf i x
  have hfactors := hrounds ((List.range s.rp).map f) (by simp) hbelow v hv
  rwa [vecmat_identityMat hP (isVector_partialRounds hP _ hv), List.map_map, List.zip_map'] at hfactors

/-- The partial rounds of the two schedules agree: the matrices are multiplied back, then the constants are spread over
the rounds again (R204, R297). -/
theorem optPartialRounds_eq_naive (hinv : Inv s) (hb : s.bundleConsistent = true) {k : Nat} (hk : s.rp = k + 1)
    {v : List Nat} (hv : IsVector s.geom v) :
    applyLayers s (optPartialRounds (s.rf / 2) s.rp).flatten (applyLayers s [.arco (s.rf / 2), .mpr] v)
      = naivePartialRounds s.geom (s.matrix .mds) (fun i => s.vector .rc (s.rf / 2 + i - 1)) s.rp v := by
  have hP := hinv.geometry.prime.pos
  obtain ⟨-, -, hconstants⟩ := bundle_constants hinv hb hk
  obtain ⟨hsparse, hmatrices⟩ := bundle_matrices hinv hb
  have hu := isVector_vecAdd hP hv.1 (vector_length s .orc (s.rf / 2))
  have hsingle : ∀ i ∈ List.range k, (s.optElement (s.rf / 2) s.rp i, s.matrix .mds)
      = (sboxThenAdd s.geom.P (s.entry .orc ((s.rf / 2 + i + 1) * s.geom.W)), s.matrix .mds) := fun i hi => by
    rw [State.optElement, if_pos (hk ▸ Nat.succ_lt_succ (List.mem_range.1 hi))]
  have hlast : s.optElement (s.rf / 2) s.rp k = sboxForward s.geom.P := if_neg (hk ▸ Nat.lt_irrefl _)
  calc applyLayers s (optPartialRounds (s.rf / 2) s.rp).flatten (applyLayers s [.arco (s.rf / 2), .mpr] v)
    _ = applyLayers s (optPartialRounds (s.rf / 2) s.rp).flatten (vecmat s.geom.P s.geom.W
          (vecAdd s.geom.P v (s.vector .orc (s.rf / 2))) (s.matrix .mprime)) := rfl
    _ = partialRounds s.geom ((List.range s.rp).map fun i => (s.optElement (s.rf / 2) s.rp i, s.matrix .mds))
          (vecAdd s.geom.P v (s.vector .orc (s.rf / 2))) := by
      rw [applyLayers_optPartialRounds hsparse, hmatrices _ (optElement_lt hP _ _) _ hu]
    _ = partialRound s.geom (partialRounds s.geom ((List.range k).map fun i =>
          (sboxThenAdd s.geom.P (s.entry .orc ((s.rf / 2 + i + 1) * s.geom.W)), s.matrix .mds))
          (vecAdd s.geom.P v (s.vector .orc (s.rf / 2)))) (sboxForward s.geom.P, s.matrix .mds) := by
      rw [hk, List.range_succ, List.map_append, List.map_singleton, partialRounds_snoc, ← hk,
        List.map_congr_left hsingle, hlast]
    _ = naivePartialRounds s.geom (s.matrix .mds) (fun i => s.vector .rc (s.rf / 2 + i - 1)) s.rp v := by
      rw [hk, naivePartialRounds_succ, ← hconstants v hv]; rfl

/-- Settles O47: full rounds with the same constants, and between them partial rounds that agree. -/
theorem poseidonOptEqualsPoseidon : Obligations.PoseidonOptEqualsPoseidon := by
  intro s v hinv hp hfamily hb hv
  obtain ⟨-, hchecks⟩ := hinv.committed hp
  obtain ⟨hrp, -⟩ := (lengthsOk_of_commitChecks hchecks).poseidon (by rw [hfamily]; rfl)
  obtain ⟨k, hk⟩ := Nat.exists_eq_add_of_le' hrp
  obtain ⟨hleading, htrailing, -⟩ := bundle_constants hinv hb hk
  have hfirst : ∀ u, applyLayers s (optFullRounds 0 (s.rf / 2)).flatten u
      = applyLayers s ((List.range (s.rf / 2)).map fun i => [.arc i, .sbf, .mds]).flatten u :=
    applyLayers_rounds_congr fun i hi u => by rw [Nat.zero_add, applyLayers_fullRound (hleading i hi)]
  have hlast : ∀ u, applyLayers s (optFullRounds (s.rf / 2 + s.rp) (s.rf - s.rf / 2)).flatten u
      = applyLayers s ((List.range (s.rf - s.rf / 2)).map fun i =>
          [.arc (s.rf / 2 + s.rp + i), .sbf, .mds]).flatten u :=
    applyLayers_rounds_congr fun i hi u => applyLayers_fullRound (htrailing i hi) u
  rw [poseidonRounds_eq, poseidonOptRounds]
  simp only [List.flatten_append, leadWith_flatten, applyLayers_append, hfirst, hlast, applyLayers_naivePartial]
  rw [optPartialRounds_eq_naive hinv hb hk (isVector_applyLayers hinv.geometry.prime.one_lt _ hv)]

end Sys2Proof.Machine

/-! PROOF of O50. Every layer of the three families is injective on the W-vectors over the field: the S-boxes undo each
other, an addition can be cancelled, and the elimination of K12 shows that only the zero combination of the rows of MDS
is zero. The vectors are finitely many, so their composition is onto as well. -/

namespace Sys2Proof.Machine

variable {s : State} {g : Geometry} {P : Nat}

-- Elimination (K12 of R327): only the zero combination of the rows is zero

/-- Element `j` of a combination of rows: each row stands with its coefficient. -/
def rowCombination (l : List (ZMod P × List Nat)) (j : Nat) : ZMod P :=
  (l.map fun r => r.1 * (r.2.getD j 0 : ZMod P)).sum

@[simp] theorem rowCombination_cons (c : ZMod P) (row : List Nat) (l : List (ZMod P × List Nat)) (j : Nat) :
    rowCombination ((c, row) :: l) j = c * row.getD j 0 + rowCombination l j := by
  simp [rowCombination]

theorem rowCombination_perm {l l' : List (ZMod P × List Nat)} (h : l.Perm l') (j : Nat) :
    rowCombination l j = rowCombination l' j := (h.map _).sum_eq

/-- The pivot row has a head that is not zero, and the other rows are the rest of the matrix, in another order. -/
theorem splitPivot_perm {l : List (ZMod P × List Nat)} {pivot : List Nat} {rest : Mat}
    (h : splitPivot P (l.map Prod.snd) = some (pivot, rest)) :
    (pivot.headD 0 : ZMod P) ≠ 0 ∧ ∃ c l', l.Perm ((c, pivot) :: l') ∧ l'.map Prod.snd = rest := by
  induction l generalizing rest with
  | nil => cases h
  | cons r l ih =>
    obtain ⟨c, row⟩ := r
    rw [List.map_cons, splitPivot] at h
    split at h
    · next hhead =>
      cases h
      exact ⟨fun h0 => hhead (Nat.mod_eq_zero_of_dvd ((ZMod.natCast_eq_zero_iff _ _).1 h0)), c, l, .refl _, rfl⟩
    · split at h
      · next p others hsplit =>
        cases h
        obtain ⟨hhead, c', l', hperm, rfl⟩ := ih hsplit
        exact ⟨hhead, c', (c, row) :: l', (hperm.cons _).trans (.swap _ _ _), rfl⟩
      · cases h

theorem cast_fieldInv {x : Nat} [Fact P.Prime] (h : (x : ZMod P) ≠ 0) :
    (fieldInv P x : ZMod P) = (x : ZMod P)⁻¹ := by
  have hP : P.Prime := Fact.out
  have hexp : P - 2 + 1 = P - 1 := by have := hP.two_le; omega
  rw [fieldInv, cast_fieldPow hP.one_lt]
  exact eq_inv_of_mul_eq_one_left (by rw [← pow_succ, hexp, ZMod.pow_card_sub_one_eq_one h])

theorem headD_eq_getD (l : List Nat) : l.headD 0 = l.getD 0 0 := by cases l <;> rfl

/-- An element of a cleared row (K12 of R327). -/
theorem cast_clearHead_getD [Fact P.Prime] {pivot row : List Nat} {n j : Nat} (hp : pivot.length = n + 1)
    (hr : row.length = n + 1) (h : (pivot.headD 0 : ZMod P) ≠ 0) (hj : j < n) :
    ((clearHead P pivot row).getD j 0 : ZMod P)
      = row.getD (j + 1) 0 - row.getD 0 0 * (pivot.getD 0 0 : ZMod P)⁻¹ * pivot.getD (j + 1) 0 := by
  have hP : P.Prime := Fact.out
  have htail : ∀ u : List Nat, u.tail.getD j 0 = u.getD (j + 1) 0 := fun u => by simp
  rw [clearHead, zipWith_eq_map_range _ (W := n) (by simp [hr]) (by simp [hp]),
    List.getD_eq_getElem _ _ (by simpa using hj), List.getElem_map, List.getElem_range, htail, htail,
    cast_fieldSub (fieldMul_lt hP.pos _ _).le, cast_fieldMul, cast_fieldMul, cast_fieldInv h, headD_eq_getD,
    headD_eq_getD]

/-- A combination of cleared rows. -/
theorem rowCombination_clearHead [Fact P.Prime] {pivot : List Nat} {n j : Nat} (hp : pivot.length = n + 1)
    (h : (pivot.headD 0 : ZMod P) ≠ 0) (hj : j < n) {l : List (ZMod P × List Nat)}
    (hl : ∀ r ∈ l, r.2.length = n + 1) :
    rowCombination (l.map (Prod.map id (clearHead P pivot))) j
      = rowCombination l (j + 1) - rowCombination l 0 * (pivot.getD 0 0 : ZMod P)⁻¹ * pivot.getD (j + 1) 0 := by
  induction l with
  | nil => simp [rowCombination]
  | cons r l ih =>
    obtain ⟨c, row⟩ := r
    rw [List.map_cons, Prod.map_apply, rowCombination_cons, rowCombination_cons, rowCombination_cons,
      ih fun r hr => hl r (List.mem_cons_of_mem _ hr), cast_clearHead_getD hp (hl _ List.mem_cons_self) h hj, id_eq]
    ring

theorem length_clearHead {pivot row : List Nat} {n : Nat} (hp : pivot.length = n + 1) (hr : row.length = n + 1) :
    (clearHead P pivot row).length = n := by
  simp [clearHead, hp, hr]

/-- If elimination finds a pivot for every column, only the zero combination of the rows is zero (K12 of R327). -/
theorem coefficients_eq_zero [Fact P.Prime] {n : Nat} {l : List (ZMod P × List Nat)} (hlen : l.length = n)
    (hrows : ∀ r ∈ l, r.2.length = n) (hns : nonsingular P n (l.map Prod.snd) = true)
    (hzero : ∀ j < n, rowCombination l j = 0) : ∀ r ∈ l, r.1 = 0 := by
  induction n generalizing l with
  | zero => simp [List.length_eq_zero_iff.1 hlen]
  | succ n ih =>
    rw [nonsingular] at hns
    split at hns
    · cases hns
    next pivot rest hsplit =>
    obtain ⟨hhead, c, l', hperm, rfl⟩ := splitPivot_perm hsplit
    have hp : pivot.length = n + 1 := hrows (c, pivot) (hperm.mem_iff.2 List.mem_cons_self)
    have hrows' : ∀ r ∈ l', r.2.length = n + 1 := fun r hr => hrows r (hperm.mem_iff.2 (List.mem_cons_of_mem _ hr))
    have hp0 : (pivot.getD 0 0 : ZMod P) ≠ 0 := headD_eq_getD pivot ▸ hhead
    have hsum : ∀ j < n + 1, rowCombination l' j = -(c * pivot.getD j 0) := fun j hj => by
      have := hzero j hj
      rw [rowCombination_perm hperm, rowCombination_cons] at this
      exact eq_neg_of_add_eq_zero_right this
    have hrest : ∀ r ∈ l'.map (Prod.map id (clearHead P pivot)), r.1 = 0 := by
      refine ih ?_ ?_ ?_ fun j hj => ?_
      · have := hperm.length_eq
        simp only [List.length_cons, List.length_map] at this ⊢
        omega
      · intro r hr
        obtain ⟨r', hr', rfl⟩ := List.mem_map.1 hr
        exact length_clearHead hp (hrows' r' hr')
      · rw [List.map_map] at hns ⊢
        exact hns
      · rw [rowCombination_clearHead hp hhead hj hrows', hsum _ (Nat.succ_lt_succ hj), hsum 0 (Nat.succ_pos n)]
        field_simp
        ring
    have hcoeff : ∀ r ∈ l', r.1 = 0 := fun r hr =>
      hrest (Prod.map id (clearHead P pivot) r) (List.mem_map_of_mem hr)
    have hc : c = 0 := by
      have hnone : rowCombination l' 0 = 0 := by
        rw [rowCombination, List.map_congr_left fun r hr => by rw [hcoeff r hr, zero_mul]]
        simp
      rw [hsum 0 (Nat.succ_pos n), neg_eq_zero] at hnone
      exact (mul_eq_zero.1 hnone).resolve_right hp0
    intro r hr
    rcases List.mem_cons.1 (hperm.mem_iff.1 hr) with rfl | hr
    · exact hc
    · exact hcoeff r hr

/-- The W-vectors over the field (R12). -/
def vectors (g : Geometry) : Set (List Nat) := {v | IsVector g v}

theorem finite_vectors (g : Geometry) : (vectors g).Finite := by
  refine ((List.finite_length_eq (Fin g.P) g.W).image (List.map Fin.val)).subset fun v hv => ?_
  obtain ⟨hlen, hlt⟩ := hv
  exact ⟨v.pmap Fin.mk hlt, by simp [hlen], by simp [List.map_pmap]⟩

/-- The product by a matrix that elimination finds nonsingular is injective (R170, K12 of R327). -/
theorem injOn_vecmat (hP : g.P.Prime) {f : Nat → Nat → Nat} (hns : nonsingular g.P g.W (matOf g.W g.W f) = true) :
    Set.InjOn (fun v => vecmat g.P g.W v (matOf g.W g.W f)) (vectors g) := by
  intro v hv w hw heq
  have : Fact g.P.Prime := ⟨hP⟩
  have hcoeff := coefficients_eq_zero (P := g.P) (n := g.W) (l := (List.range g.W).map fun i =>
    ((v.getD i 0 : ZMod g.P) - w.getD i 0, (List.range g.W).map (f i))) (by simp) (by simp)
    (by rw [List.map_map]; exact hns) fun j hj => ?_
  · refine isVector_ext hv hw fun j hj => sub_eq_zero.1 ?_
    exact hcoeff _ (List.mem_map_of_mem (List.mem_range.2 hj))
  · have hj' := congrArg (fun u : List Nat => (u.getD j 0 : ZMod g.P)) heq
    simp only [cast_vecmat_getD _ _ hj] at hj'
    rw [rowCombination, List.map_map]
    change ∑ i ∈ Finset.range g.W,
      ((v.getD i 0 : ZMod g.P) - w.getD i 0) * (((List.range g.W).map (f i)).getD j 0 : ZMod g.P) = 0
    rw [← sub_eq_zero.2 hj', ← Finset.sum_sub_distrib]
    refine Finset.sum_congr rfl fun i hi => ?_
    rw [matOf_entry f (Finset.mem_range.1 hi) hj, ← sub_mul]
    simp [hj]

-- The layers

/-- A layer operation loses nothing of a W-vector over the field. -/
def Layer.IsInjective (s : State) (l : Layer) : Prop := Set.InjOn (applyLayer s l) (vectors s.geom)

theorem mapAt_zero_eq_self {f f' : Nat → Nat} {v : List Nat} (h : ∀ x ∈ v, f' (f x) = x) :
    mapAt f' 0 (mapAt f 0 v) = v := by
  rw [mapAt_mapAt_zero]
  cases v with
  | nil => rfl
  | cons x v => exact congrArg (· :: v) (h x List.mem_cons_self)

theorem Inv.sboxInverse_sboxForward (h : Inv s) (hp : s.pvalid = true) {x : Nat} (hx : x < s.geom.P) :
    s.sboxInverse (sboxForward s.geom.P x) = x := by
  rw [sboxForward_eq]; exact h.sboxInverse_forward hp hx

theorem Inv.sboxForward_sboxInverse (h : Inv s) (hp : s.pvalid = true) {x : Nat} (hx : x < s.geom.P) :
    sboxForward s.geom.P (s.sboxInverse x) = x := by
  rw [sboxForward_eq]; exact h.forward_sboxInverse hp hx

theorem isInjective_sbf (h : Inv s) (hp : s.pvalid = true) : Layer.IsInjective s .sbf :=
  Set.LeftInvOn.injOn (f₁' := applyLayer s .sbi) fun _ hv =>
    map_map_eq_self fun x hx => h.sboxInverse_sboxForward hp (hv.2 x hx)

theorem isInjective_sbi (h : Inv s) (hp : s.pvalid = true) : Layer.IsInjective s .sbi :=
  Set.LeftInvOn.injOn (f₁' := applyLayer s .sbf) fun _ hv =>
    map_map_eq_self fun x hx => h.sboxForward_sboxInverse hp (hv.2 x hx)

theorem isInjective_sbfe_zero (h : Inv s) (hp : s.pvalid = true) : Layer.IsInjective s (.sbfe 0) :=
  Set.LeftInvOn.injOn (f₁' := applyLayer s (.sbie 0)) fun _ hv =>
    mapAt_zero_eq_self fun x hx => h.sboxInverse_sboxForward hp (hv.2 x hx)

theorem isInjective_arc (s : State) (r : Nat) : Layer.IsInjective s (.arc r) := by
  intro v hv w hw heq
  have hc := vector_length s .rc r
  refine isVector_ext hv hw fun j hj => ?_
  have hj' := congrArg (fun u : List Nat => (u.getD j 0 : ZMod s.geom.P)) heq
  simp only [applyLayer, cast_vecAdd_getD hv.1 hc hj, cast_vecAdd_getD hw.1 hc hj] at hj'
  exact add_right_cancel hj'

/-- The commit has checked that MDS is nonsingular, for the families that use it (K12 of R327). -/
theorem isInjective_mds (h : Inv s) (hp : s.pvalid = true) (hfamily : s.csr.family ≠ 2) :
    Layer.IsInjective s .mds := by
  obtain ⟨-, hchecks⟩ := h.committed hp
  simp only [State.commitChecks, Bool.and_eq_true] at hchecks
  obtain ⟨⟨-, h12⟩, -⟩ := hchecks
  have hfamily' : (s.csr.family.toNat == 2) = false := by
    rw [beq_eq_false_iff_ne]
    exact fun hf => hfamily (BitVec.eq_of_toNat_eq hf)
  rw [State.k12, hfamily', Bool.false_or] at h12
  exact injOn_vecmat h.geometry.prime h12

theorem injOn_applyLayers (hP : 1 < s.geom.P) {ls : List Layer} (h : ls.Forall (Layer.IsInjective s)) :
    Set.InjOn (applyLayers s ls) (vectors s.geom) := by
  induction ls with
  | nil => exact Set.injOn_id _
  | cons l ls ih =>
    obtain ⟨hl, hls⟩ := List.forall_cons _ _ _ |>.1 h
    exact (ih hls).comp hl fun v hv => isVector_applyLayer hP l hv

-- O50: the permutations

section
variable (h : Inv s) (hp : s.pvalid = true) (hfamily : s.csr.family ≠ 2)
include h hp hfamily

theorem isInjective_rescueRounds (rf : Nat) : (rescueRounds rf).flatten.Forall (Layer.IsInjective s) := by
  rw [rescueRounds, leadWith_flatten, List.forall_append]
  refine ⟨isInjective_arc s 0, forall_rounds fun i _ => ⟨?_, isInjective_mds h hp hfamily, isInjective_arc s _⟩⟩
  split
  · exact isInjective_sbi h hp
  · exact isInjective_sbf h hp

theorem isInjective_rescuePrimeRounds (rf : Nat) : (rescuePrimeRounds rf).flatten.Forall (Layer.IsInjective s) :=
  forall_rounds fun _ _ => ⟨isInjective_sbf h hp, isInjective_mds h hp hfamily, isInjective_arc s _,
    isInjective_sbi h hp, isInjective_mds h hp hfamily, isInjective_arc s _⟩

theorem isInjective_poseidonRounds (rf rp : Nat) : (poseidonRounds rf rp).flatten.Forall (Layer.IsInjective s) := by
  refine forall_rounds fun i _ => ⟨isInjective_arc s _, ?_, isInjective_mds h hp hfamily⟩
  split
  · exact isInjective_sbf h hp
  · exact isInjective_sbfe_zero h hp

end

/-- PERMUTE of Rescue, RescuePrime and Poseidon is injective; the optimised schedule is Poseidon (R204, R209). -/
theorem injOn_permute (h : Inv s) (hp : s.pvalid = true)
    (hfamily : s.csr.family = 0 ∨ s.csr.family = 3 ∨
      (s.csr.family = 1 ∧ (s.csr.ctrl = 0 ∨ s.bundleConsistent = true))) :
    Set.InjOn s.permute (vectors s.geom) := by
  have hP := h.geometry.prime.one_lt
  unfold State.permute
  rw [expansion_eq]
  rcases hfamily with hf | hf | ⟨hf, hschedule⟩ <;> rw [hf]
  · exact injOn_applyLayers hP (isInjective_rescueRounds h hp (by rw [hf]; decide) _)
  · exact injOn_applyLayers hP (isInjective_rescuePrimeRounds h hp (by rw [hf]; decide) _)
  · have hnaive := injOn_applyLayers hP (isInjective_poseidonRounds h hp (by rw [hf]; decide) s.rf s.rp)
    rw [if_neg (by decide), if_pos rfl]
    split
    · next hctrl =>
      have hb := hschedule.resolve_left (by rw [hctrl]; decide)
      exact hnaive.congr fun v hv => (poseidonOptEqualsPoseidon s v h hp hf hb hv).symm
    · exact hnaive

/-- Settles O50: an injective map of the finitely many W-vectors into themselves is onto. -/
theorem permuteIsABijection : Obligations.PermuteIsABijection := by
  intro s h hp hfamily
  have hmaps : Set.MapsTo s.permute (vectors s.geom) (vectors s.geom) := fun v hv =>
    isVector_permute h.geometry.prime.one_lt hv
  have hinj := injOn_permute h hp hfamily
  have honto := (((finite_vectors s.geom).injOn_iff_bijOn_of_mapsTo hmaps).1 hinj).surjOn
  exact ⟨fun v hv => hmaps hv, fun v w hv hw heq => hinj hv hw heq, fun w hw => honto hw⟩

end Sys2Proof.Machine

/-! PROOF of O51 and O52. Neither command has a payload and neither reads anything but the geometry and HLEN, so each
answers what its strategy function gives. -/

namespace Sys2Proof.Machine

variable {s : State} {st : Strategy} {R v : Nat}

-- O51: DCAP

/-- DCAP for a strategy that has a capacity value (R238). -/
theorem exec_dcap_some (h : Ready s 0) (hc : capacityValue s.geom.P s.geom.R st s.hLen = some v) :
    exec (.dcap st) s = .next (s.answered 0 0x00 [.csr 1, .elem v]) := by
  change execDcap st s = _
  rw [execDcap, runCommand_ready h]
  simp only [State.consume_geom, hLen_consume, hc]
  rfl

/-- DCAP for a strategy that has none (R238). -/
theorem exec_dcap_none (h : Ready s 0) (hc : capacityValue s.geom.P s.geom.R st s.hLen = none) :
    exec (.dcap st) s = .next (s.answered 0 0x00 [.csr 0, .elem 0]) := by
  change execDcap st s = _
  rw [execDcap, runCommand_ready h]
  simp only [State.consume_geom, hLen_consume, hc]
  rfl

/-- Settles O51: the first three strategies have a capacity value, the other two have none (R237). -/
theorem dcapAnswersTheCapacity : Obligations.DcapAnswersTheCapacity := by
  intro s h n some'
  refine ⟨exec_dcap_some h rfl, exec_dcap_some h rfl, exec_dcap_some h rfl, ?_⟩
  rw [List.forall_mem_cons, List.forall_mem_singleton]
  exact ⟨exec_dcap_none h rfl, exec_dcap_none h rfl⟩

-- O52: DPAD

/-- DPAD for an input that the strategy can pad (R239). -/
theorem exec_dpad_some (h : Ready s 0) {p : List Nat} (hp : paddingValues s.geom.R st s.hLen = some p) :
    exec (.dpad st) s = .next (s.answered 0 0x00 (.csr (BitVec.ofNat 64 p.length) :: p.map .elem)) := by
  change execDpad st s = _
  rw [execDpad, runCommand_ready h]
  simp only [State.consume_geom, hLen_consume, hp]
  rfl

/-- DPAD for an input that the strategy leaves misaligned is a signal, no fault (R239, R354). -/
theorem exec_dpad_none (h : Ready s 0) (hp : paddingValues s.geom.R st s.hLen = none) :
    exec (.dpad st) s = .next (s.answered 0 0x02 []) := by
  change execDpad st s = _
  rw [execDpad, runCommand_ready h]
  simp only [State.consume_geom, hLen_consume, hp]
  exact congrArg _ (report_consume_signal s 0 rfl)

/-- DPAD for a strategy that pads with zeros only (R232, R234). -/
theorem exec_dpad_zeros (h : Ready s 0) {z : Nat}
    (hp : paddingValues s.geom.R st s.hLen = some (List.replicate z 0)) :
    exec (.dpad st) s = .next (s.answered 0 0x00 (.csr (BitVec.ofNat 64 z) :: List.replicate z (.elem 0))) := by
  rw [exec_dpad_some h hp, List.length_replicate, List.map_replicate]

/-- DPAD for a strategy that leaves padding to the caller (R235, R236). -/
theorem exec_dpad_aligned (h : Ready s 0)
    (hp : paddingValues s.geom.R st s.hLen = if s.hLen % s.geom.R = 0 then some [] else none) :
    exec (.dpad st) s
      = .next (if s.hLen % s.geom.R = 0 then s.answered 0 0x00 [.csr 0] else s.answered 0 0x02 []) := by
  split <;> rename_i hn
  · exact exec_dpad_some h (hp.trans (if_pos hn))
  · exact exec_dpad_none h (hp.trans (if_neg hn))

/-- From `n` up to the next block boundary above it (R233). -/
theorem add_block_sub_mod (n : Nat) (hR : 1 ≤ R) : (n + (R - n % R)) % R = 0 := by
  have hlt : n % R < R := Nat.mod_lt n hR
  have hsum : n + (R - n % R) = R * (n / R) + R := by
    have := Nat.div_add_mod n R
    omega
  rw [hsum, Nat.mul_add_mod, Nat.mod_self]

/-- Settles O52: what the padding functions list, and that it ends on a block boundary (R237). -/
theorem dpadAnswersThePadding : Obligations.DpadAnswersThePadding := by
  intro s h hR n R z y
  have hlt : n % R < R := Nat.mod_lt n hR
  have hboundary : (n + y) % R = 0 := add_block_sub_mod n hR
  have hy : 1 ≤ y ∧ y ≤ R := ⟨Nat.sub_pos_of_lt hlt, Nat.sub_le R _⟩
  refine ⟨?zeros, ?always, ?aligned, (Nat.add_mod_mod n y R).trans hboundary, Nat.mod_lt y hR, hboundary, hy⟩
  case zeros =>
    rw [List.forall_mem_cons, List.forall_mem_singleton]
    exact ⟨exec_dpad_zeros h rfl, exec_dpad_zeros h rfl⟩
  case always =>
    rw [exec_dpad_some h rfl, List.length_cons, List.length_replicate, List.map_cons, List.map_replicate]
    exact congrArg (fun c => Host.Outcome.next (s.answered 0 0x00 (.csr (BitVec.ofNat 64 c) :: _)))
      (Nat.sub_add_cancel hy.1)
  case aligned =>
    rw [List.forall_mem_cons, List.forall_mem_singleton]
    exact ⟨exec_dpad_aligned h rfl, exec_dpad_aligned h rfl⟩

end Sys2Proof.Machine

/-! SUPPORT for O53 to O59. The sponge operations neither read nor write the ports, so a run of commands is a run of the
operations; and the outcome of a command is what its body answers, for the absorbing commands behind two shared
checks. -/

namespace Sys2Proof.Machine

variable {s t : State}

-- The ports

/-- `s` with other ports: what the host has sent and what the engine has answered (R368). -/
def State.withPorts (s : State) (sent : List Beat) (given : List Response) : State :=
  { s with input := sent, output := given }

section
variable (s : State) (i : List Beat) (o : List Response)

@[simp] theorem withPorts_geom : (s.withPorts i o).geom = s.geom := rfl
@[simp] theorem withPorts_mode : (s.withPorts i o).mode = s.mode := rfl
@[simp] theorem withPorts_bufCount : (s.withPorts i o).bufCount = s.bufCount := rfl
@[simp] theorem withPorts_output : (s.withPorts i o).output = o := rfl

@[simp] theorem withPorts_withPorts (i' : List Beat) (o' : List Response) :
    (s.withPorts i o).withPorts i' o' = s.withPorts i' o' := rfl

@[simp] theorem permute_withPorts : (s.withPorts i o).permute = s.permute := permute_congr rfl rfl rfl

theorem absorbBlock_withPorts : (s.withPorts i o).absorbBlock = s.absorbBlock.withPorts i o := by
  rw [State.absorbBlock, permute_withPorts]; rfl

theorem toAbsorbing_withPorts : (s.withPorts i o).toAbsorbing = s.toAbsorbing.withPorts i o := by
  cases hm : s.mode
  case absorbing =>
    rw [toAbsorbing_absorbing hm]; exact toAbsorbing_absorbing (s := s.withPorts i o) hm
  case squeezing =>
    rw [toAbsorbing_squeezing hm]; exact toAbsorbing_squeezing (s := s.withPorts i o) hm

theorem absorbOne_withPorts (x : Nat) : (s.withPorts i o).absorbOne x = (s.absorbOne x).withPorts i o := by
  have hpush : (s.withPorts i o).toAbsorbing.push x = (s.toAbsorbing.push x).withPorts i o := by
    rw [toAbsorbing_withPorts]; rfl
  simp only [State.absorbOne, hpush, withPorts_bufCount, withPorts_geom, absorbBlock_withPorts]
  split <;> rfl

theorem toSqueezing_withPorts :
    (s.withPorts i o).toSqueezing = s.toSqueezing.map fun t => t.withPorts i o := by
  simp only [State.toSqueezing, withPorts_mode, withPorts_bufCount, withPorts_geom, absorbBlock_withPorts]
  cases s.mode
  case squeezing => rfl
  case absorbing =>
    dsimp only
    split
    · rfl
    · split <;> rfl

theorem refill_withPorts : (s.withPorts i o).refill = s.refill.withPorts i o := by
  simp only [State.refill, withPorts_bufCount, permute_withPorts]
  split <;> rfl

theorem squeezeOne_withPorts :
    (s.withPorts i o).squeezeOne = s.squeezeOne.map (Prod.map id fun t => t.withPorts i o) := by
  rw [State.squeezeOne, State.squeezeOne, toSqueezing_withPorts]
  cases s.toSqueezing with
  | none => rfl
  | some t => simp only [Option.map_some, refill_withPorts]; rfl

end

theorem absorbMany_cons (s : State) (x : Nat) (xs : List Nat) :
    s.absorbMany (x :: xs) = (s.absorbOne x).absorbMany xs := rfl

theorem absorbMany_append (s : State) (xs ys : List Nat) :
    s.absorbMany (xs ++ ys) = (s.absorbMany xs).absorbMany ys := List.foldl_append

theorem absorbMany_withPorts (s : State) (i : List Beat) (o : List Response) (xs : List Nat) :
    (s.withPorts i o).absorbMany xs = (s.absorbMany xs).withPorts i o := by
  induction xs generalizing s with
  | nil => rfl
  | cons x xs ih => rw [absorbMany_cons, absorbMany_cons, absorbOne_withPorts, ih]

theorem squeezeMany_zero (s : State) : s.squeezeMany 0 = some ([], s) := rfl

/-- One more execution of `squeeze()` in front (R257). -/
theorem squeezeMany_succ {k v : Nat} (h : s.squeezeOne = some (v, t)) :
    s.squeezeMany (k + 1) = (t.squeezeMany k).map (Prod.map (v :: ·) id) := by
  simp only [State.squeezeMany, h]
  cases t.squeezeMany k <;> rfl

theorem squeezeMany_succ_none {k : Nat} (h : s.squeezeOne = none) : s.squeezeMany (k + 1) = none := by
  simp only [State.squeezeMany, h]

theorem squeezeMany_withPorts (k : Nat) (s : State) (i : List Beat) (o : List Response) :
    (s.withPorts i o).squeezeMany k = (s.squeezeMany k).map (Prod.map id fun t => t.withPorts i o) := by
  induction k generalizing s with
  | zero => rfl
  | succ k ih =>
    have hone := squeezeOne_withPorts s i o
    cases h : s.squeezeOne with
    | none =>
      rw [h] at hone
      rw [squeezeMany_succ_none h, squeezeMany_succ_none hone]; rfl
    | some r =>
      rw [h] at hone
      rw [squeezeMany_succ h, squeezeMany_succ hone, ih]
      cases r.2.squeezeMany k <;> rfl

theorem squeezeMany_withPorts_some {k : Nat} {vs : List Nat} (h : s.squeezeMany k = some (vs, t)) (i : List Beat)
    (o : List Response) : (s.withPorts i o).squeezeMany k = some (vs, t.withPorts i o) := by
  rw [squeezeMany_withPorts, h]; rfl

-- The outcome of a command

/-- The outcome of a command with `n` payload transfers, from what its body answers (R350). -/
def State.outcome (s : State) (n : Nat) : Except Code (State × List Item) → Out
  | .ok (t, items) => .next (t.respond .ok items)
  | .error c => .next ((s.consume (1 + n)).report c)

theorem runCommand_outcome {g : Bool} {n : Nat} {body : State → List Beat → Except Code (State × List Item)}
    (h : Ready s n) : runCommand g n body s = s.outcome n (body (s.consume (1 + n)) (s.payload n)) := by
  rw [runCommand_ready h]
  cases body (s.consume (1 + n)) (s.payload n) <;> rfl

/-- A sponge command that ends in ok: the operations, then the ports (R98, R99). -/
theorem outcome_ok (s t : State) (n : Nat) (items : List Item) (hin : t.input = s.input) (hout : t.output = s.output) :
    s.outcome n (.ok (t.withPorts (s.input.drop (1 + n)) s.output, items)) = .next (t.answered n 0x00 items) := by
  simp only [State.outcome, State.respond, State.answered, State.withPorts, hin, hout]
  rfl

theorem outcome_signal (s : State) (n : Nat) {c : Code} (hc : c.isSignal = true) :
    s.outcome n (.error c) = .next (s.answered n c.byte []) :=
  congrArg _ (report_consume_signal s n hc)

theorem outcome_fault (hf : s.fault = false) (n : Nat) {c : Code} (hc : c.isSignal = false) :
    s.outcome n (.error c) = .next (s.faultedWith n c.byte) :=
  congrArg _ (report_consume_fault hf hc)

/-- The checks of the absorbing commands, in their order: the elements, then the parameters (R252, R254, R258). -/
def elementChecks (P : Nat) (committed : Bool) (xs : List Nat) (r : Except Code (State × List Item)) :
    Except Code (State × List Item) :=
  if !xs.all (canonical P) then .error .nonCanonicalOperand else if !committed then .error .paramsNotCommitted else r

section
variable {P : Nat} {xs : List Nat} (committed : Bool) (r : Except Code (State × List Item))

theorem elementChecks_nonCanonical (h : ∃ x ∈ xs, P ≤ x) :
    elementChecks P committed xs r = .error .nonCanonicalOperand :=
  if_pos (by simpa [canonical] using h)

theorem elementChecks_canonical (h : ∀ x ∈ xs, x < P) :
    elementChecks P committed xs r = if !committed then .error .paramsNotCommitted else r :=
  if_neg (by simpa [canonical] using h)

end

/-- What the absorbing commands do (R252, R254). -/
theorem absorbCommand_ready {n : Nat} (h : Ready s (n * s.geom.limbs)) :
    absorbCommand n s = s.outcome (n * s.geom.limbs)
      (elementChecks s.geom.P s.pvalid (elemsOfBeats s.geom.limbs n (s.payload (n * s.geom.limbs)))
        (.ok ((s.consume (1 + n * s.geom.limbs)).absorbMany
          (elemsOfBeats s.geom.limbs n (s.payload (n * s.geom.limbs))), []))) := by
  rw [absorbCommand, runCommand_outcome h]; rfl

/-- On a committed engine, with canonical elements, the fold of `absorb` (R252, R254). -/
theorem absorbCommand_ok {n : Nat} {xs : List Nat} (h : Ready s (n * s.geom.limbs)) (hp : s.pvalid = true)
    (hx : ∀ x ∈ xs, x < s.geom.P) (hxs : elemsOfBeats s.geom.limbs n (s.payload (n * s.geom.limbs)) = xs) :
    absorbCommand n s = .next ((s.absorbMany xs).answered (n * s.geom.limbs) 0x00 []) := by
  obtain ⟨v, m, b, hmany⟩ := eq_setSponge_absorbMany xs s
  rw [absorbCommand_ready h, hxs, elementChecks_canonical _ _ hx, hp]
  have hports : (s.consume (1 + n * s.geom.limbs)).absorbMany xs
      = (s.absorbMany xs).withPorts (s.input.drop (1 + n * s.geom.limbs)) s.output :=
    absorbMany_withPorts s _ _ xs
  rw [if_neg (by decide), hports]
  exact outcome_ok s _ _ _ (by rw [hmany]; rfl) (by rw [hmany]; rfl)

/-- What the squeezing commands and HASH answer, from `squeeze()` so many times (R255, R257, R258). -/
def squeezeResult : Option (List Nat × State) → Except Code (State × List Item)
  | some (vs, t) => .ok (t, vs.map .elem)
  | none => .error .squeezeNeedsPadding

/-- What the squeezing commands do (R255, R257). -/
theorem squeezeCommand_ready {k : Nat} (h : Ready s 0) :
    squeezeCommand k s = s.outcome 0
      (if !s.pvalid then .error .paramsNotCommitted else squeezeResult ((s.consume 1).squeezeMany k)) := by
  rw [squeezeCommand, runCommand_outcome h]; rfl

theorem squeezeCommand_uncommitted {k : Nat} (h : Ready s 0) (hp : s.pvalid = false) :
    squeezeCommand k s = .next (s.faultedWith 0 0x22) := by
  rw [squeezeCommand_ready h, hp]
  exact outcome_fault h.1 0 (c := .paramsNotCommitted) rfl

/-- On a committed engine, `squeeze()` that many times with the elements in one response (R257). -/
theorem squeezeCommand_ok {k : Nat} {vs : List Nat} (h : Ready s 0) (hp : s.pvalid = true)
    (hs : s.squeezeMany k = some (vs, t)) : squeezeCommand k s = .next (t.answered 0 0x00 (vs.map .elem)) := by
  obtain ⟨v, m, b, rfl⟩ := eq_setSponge_squeezeMany k hs
  have hports : (s.consume 1).squeezeMany k = _ := squeezeMany_withPorts_some hs (s.input.drop 1) s.output
  rw [squeezeCommand_ready h, hp, if_neg (by decide), hports]
  exact outcome_ok s _ 0 _ rfl rfl

/-- On a committed engine, the signal of the first `squeeze()` (R255, R257). -/
theorem squeezeCommand_signal {k : Nat} (h : Ready s 0) (hp : s.pvalid = true) (hs : s.squeezeMany k = none) :
    squeezeCommand k s = .next (s.answered 0 0x01 []) := by
  have hports : (s.consume 1).squeezeMany k = _ := squeezeMany_withPorts k s (s.input.drop 1) s.output
  rw [squeezeCommand_ready h, hp, if_neg (by decide), hports, hs]
  exact outcome_signal s 0 (c := .squeezeNeedsPadding) rfl

/-- What HASH answers once its elements and the parameters are checked (R258). -/
def State.hashResult (s : State) (st : Strategy) (xs : List Nat) : Except Code (State × List Item) :=
  match paddingValues s.geom.R st s.hLen with
  | none => .error .misalignedVariableLengthInput
  | some pad => squeezeResult ((s.hashAbsorbed st xs pad).squeezeMany s.geom.R)

theorem hashResult_none {st : Strategy} (hp : paddingValues s.geom.R st s.hLen = none) (xs : List Nat) :
    s.hashResult st xs = .error .misalignedVariableLengthInput := by
  rw [State.hashResult, hp]

theorem hashResult_some {st : Strategy} {pad : List Nat} (hp : paddingValues s.geom.R st s.hLen = some pad)
    (xs : List Nat) : s.hashResult st xs = squeezeResult ((s.hashAbsorbed st xs pad).squeezeMany s.geom.R) := by
  rw [State.hashResult, hp]

theorem hashAbsorbed_withPorts (s : State) (st : Strategy) (xs pad : List Nat) (i : List Beat) (o : List Response) :
    (s.withPorts i o).hashAbsorbed st xs pad = (s.hashAbsorbed st xs pad).withPorts i o := by
  have hstart : ∀ c, (s.withPorts i o).newSponge.setCapacity c = (s.newSponge.setCapacity c).withPorts i o := by
    intro c; cases c <;> rfl
  rw [State.hashAbsorbed, hstart, absorbMany_withPorts]; rfl

/-- What HASH does (R258). -/
theorem execHash_ready {st : Strategy} (h : Ready s (s.hLen * s.geom.limbs)) :
    execHash st s = s.outcome (s.hLen * s.geom.limbs)
      (elementChecks s.geom.P s.pvalid (elemsOfBeats s.geom.limbs s.hLen (s.payload (s.hLen * s.geom.limbs)))
        ((s.consume (1 + s.hLen * s.geom.limbs)).hashResult st
          (elemsOfBeats s.geom.limbs s.hLen (s.payload (s.hLen * s.geom.limbs))))) := by
  rw [execHash, runCommand_outcome h]; rfl

/-- HASH of canonical elements on a committed engine, when the strategy pads them (R258). -/
theorem execHash_ok {st : Strategy} {xs pad vs : List Nat} (h : Ready s (s.hLen * s.geom.limbs))
    (hp : s.pvalid = true) (hpad : paddingValues s.geom.R st s.hLen = some pad) (hx : ∀ x ∈ xs, x < s.geom.P)
    (hxs : elemsOfBeats s.geom.limbs s.hLen (s.payload (s.hLen * s.geom.limbs)) = xs)
    (hs : (s.hashAbsorbed st xs pad).squeezeMany s.geom.R = some (vs, t)) (hin : t.input = s.input)
    (hout : t.output = s.output) :
    execHash st s = .next (t.answered (s.hLen * s.geom.limbs) 0x00 (vs.map .elem)) := by
  have hresult : (s.consume (1 + s.hLen * s.geom.limbs)).hashResult st xs
      = .ok (t.withPorts (s.input.drop (1 + s.hLen * s.geom.limbs)) s.output, vs.map .elem) := by
    rw [hashResult_some (s := s.consume _) hpad]
    change squeezeResult (((s.withPorts _ s.output).hashAbsorbed st xs pad).squeezeMany s.geom.R) = _
    rw [hashAbsorbed_withPorts, squeezeMany_withPorts_some hs]
    rfl
  rw [execHash_ready h, hxs, elementChecks_canonical _ _ hx, hp, if_neg (by decide), hresult]
  exact outcome_ok s t _ _ hin hout

end Sys2Proof.Machine

/-! PROOF of O53 and O59. SPNEW, and the order of checks of the other sponge commands. -/

namespace Sys2Proof.Machine

variable {s : State}

-- O53: SPNEW

/-- Settles O53: SPNEW checks nothing, and what it writes is the empty sponge. -/
theorem spnewClearsTheSponge : Obligations.SpnewClearsTheSponge := by
  intro s h
  change execSpnew s = _
  rw [execSpnew, runCommand_outcome h]
  rfl

-- O59: the order of checks

/-- The outcome of the element checks that fail (R252, R254, R258, R360). -/
theorem outcome_nonCanonical (hf : s.fault = false) (n : Nat) {xs : List Nat} (hx : ∃ x ∈ xs, s.geom.P ≤ x)
    (r : Except Code (State × List Item)) :
    s.outcome n (elementChecks s.geom.P s.pvalid xs r) = .next (s.faultedWith n 0x21) := by
  rw [elementChecks_nonCanonical _ _ hx]
  exact outcome_fault hf n (c := .nonCanonicalOperand) rfl

theorem outcome_uncommitted (hf : s.fault = false) (n : Nat) {xs : List Nat} (hx : ∀ x ∈ xs, x < s.geom.P)
    (hp : s.pvalid = false) (r : Except Code (State × List Item)) :
    s.outcome n (elementChecks s.geom.P s.pvalid xs r) = .next (s.faultedWith n 0x22) := by
  rw [elementChecks_canonical _ _ hx, hp]
  exact outcome_fault hf n (c := .paramsNotCommitted) rfl

/-- The absorbing commands and HASH are behind the same checks of their payload (R252, R254, R258). -/
theorem exec_elementChecks {i : Instr} {n : Nat}
    (hi : i = .absorb ∧ n = 1 ∨ i = .absorbn n ∨ ∃ st, i = .hash st ∧ n = s.hLen)
    (h : Ready s (n * s.geom.limbs)) : ∃ r, exec i s = s.outcome (n * s.geom.limbs)
      (elementChecks s.geom.P s.pvalid (elemsOfBeats s.geom.limbs n (s.payload (n * s.geom.limbs))) r) := by
  rcases hi with ⟨rfl, rfl⟩ | rfl | ⟨st, rfl, rfl⟩
  · exact ⟨_, absorbCommand_ready h⟩
  · exact ⟨_, absorbCommand_ready h⟩
  · exact ⟨_, execHash_ready h⟩

/-- A strategy that leaves padding to the caller signals a misaligned input (R235, R236, R258). -/
theorem exec_hash_misaligned {st : Strategy} (h : Ready s (s.hLen * s.geom.limbs)) (hp : s.pvalid = true)
    (hx : ∀ x ∈ elemsOfBeats s.geom.limbs s.hLen (s.payload (s.hLen * s.geom.limbs)), x < s.geom.P)
    (hpad : paddingValues s.geom.R st s.hLen = none) :
    exec (.hash st) s = .next (s.answered (s.hLen * s.geom.limbs) 0x02 []) := by
  change execHash st s = _
  rw [execHash_ready h, elementChecks_canonical _ _ hx, hp, if_neg (by decide),
    hashResult_none (s := s.consume _) hpad]
  exact outcome_signal s _ (c := .misalignedVariableLengthInput) rfl

/-- Settles O59: every absorbing command is behind the two checks, and HASH comes to its padding after them. -/
theorem spongeCheckOrder : Obligations.SpongeCheckOrder := by
  refine ⟨?absorbing, fun s k h hp => ⟨squeezeCommand_uncommitted h hp, squeezeCommand_uncommitted h hp⟩⟩
  intro s hf i n hi hlen xs
  have hi : i = .absorb ∧ n = 1 ∨ i = .absorbn n ∨ ∃ st, i = .hash st ∧ n = s.hLen := by
    rcases hi with hi | hi
    · simp only [List.mem_cons, List.not_mem_nil, or_false, Prod.mk.injEq] at hi
      exact hi.imp_right fun hhash => .inr (by rcases hhash with h | h | h | h | h <;> exact ⟨_, h⟩)
    · exact .inr (.inl hi)
  obtain ⟨r, hr⟩ := exec_elementChecks hi ⟨hf, hlen⟩
  refine ⟨fun hx => hr.trans (outcome_nonCanonical hf _ hx r),
    fun hx hp => hr.trans (outcome_uncommitted hf _ hx hp r), fun hx hp hmod hstrategy => ?_⟩
  obtain ⟨st, rfl, hpad⟩ : ∃ st, i = .hash st ∧ paddingValues s.geom.R st s.hLen = none := by
    rcases hstrategy with rfl | rfl <;> exact ⟨_, rfl, if_neg hmod⟩
  obtain rfl : n = s.hLen := by simpa using hi
  exact exec_hash_misaligned ⟨hf, hlen⟩ hp hx hpad

end Sys2Proof.Machine

/-! PROOF of O54 and O55. What `absorb` does to an Absorbing buffer that does or does not fill, and ABSORB commands one
after another. -/

namespace Sys2Proof.Machine

variable {s : State} {x : Nat}

-- O54: the transitions of `absorb`

/-- In Squeezing mode the unread output is dropped first (R252). -/
theorem absorbOne_squeezing (hm : s.mode = .squeezing) (x : Nat) :
    s.absorbOne x = (s.setSponge s.regs .absorbing s.emptyBuf).absorbOne x := by
  rw [← toAbsorbing_squeezing hm, State.absorbOne, State.absorbOne, toAbsorbing_absorbing (toAbsorbing_mode s)]

/-- A push that does not fill the buffer (R252). -/
theorem absorbOne_push (hm : s.mode = .absorbing) (hc : (s.push x).bufCount ≠ s.geom.R) :
    s.absorbOne x = s.push x := by
  rw [State.absorbOne, toAbsorbing_absorbing hm]
  exact if_neg hc

/-- A push that fills the buffer: the block step (R252, R253). -/
theorem absorbOne_block (hm : s.mode = .absorbing) (hc : (s.push x).bufCount = s.geom.R) :
    s.absorbOne x = s.setSponge (s.permute (s.push x).blockAdded) .absorbing s.emptyBuf := by
  rw [State.absorbOne, toAbsorbing_absorbing hm, ← hm]
  exact if_pos hc

/-- The block after the push of its last element, element by element (R253). -/
theorem blockAdded_push (h : BufOk s) (hm : s.mode = .absorbing) (hc : s.bufCount + 1 = s.geom.R) :
    (s.push x).blockAdded = (List.range s.geom.W).map fun i =>
      if i < s.bufCount then (s.reg i + (s.buf.getD i none).getD 0) % s.geom.P
      else if i = s.bufCount then (s.reg i + x) % s.geom.P else s.reg i := by
  obtain ⟨-, hpresent⟩ := h.absorbing hm
  have hlen : s.bufCount < s.buf.length := by rw [h.1]; omega
  refine List.map_congr_left fun i _ => ?_
  change (if i < s.geom.R then fieldAdd s.geom.P (s.reg i) ((s.push x).bufValue i) else s.reg i) = _
  rcases Nat.lt_trichotomy i s.bufCount with hi | rfl | hi
  · have hvalue : (s.push x).bufValue i = (s.buf.getD i none).getD 0 := by
      obtain ⟨v, hv⟩ := Option.isSome_iff_exists.1 ((hpresent i (by omega)).2 hi)
      have hv' : (s.push x).buf.getD i none = some v := (getD_set_other (Nat.ne_of_gt hi) _).trans hv
      rw [State.bufValue, hv', hv]; rfl
    rw [if_pos (by omega), if_pos hi, hvalue, fieldAdd]
  · have hvalue : (s.push x).bufValue s.bufCount = x := by
      have hx : (s.push x).buf.getD s.bufCount none = some x := getD_set_same hlen _
      rw [State.bufValue, hx]; rfl
    rw [if_pos (by omega), if_neg (Nat.lt_irrefl _), if_pos rfl, hvalue, fieldAdd]
  · rw [if_neg (by omega), if_neg (by omega), if_neg (by omega)]

/-- A vector with one element rewritten, by index. -/
theorem map_range_ite_eq_set {v : List Nat} {W : Nat} (hv : v.length = W) (j : Nat) (f : Nat → Nat) :
    ((List.range W).map fun i => if i = j then f i else v.getD i 0) = v.set j (f j) := by
  refine List.ext_getElem (by simp [hv]) fun i hi hi' => ?_
  have hlt : i < v.length := by simpa using hi'
  rcases eq_or_ne i j with rfl | hne
  · simp
  · simp [List.getElem_set_ne hne.symm, hne, hlt]

/-- The one element of an ABSORB payload (R99, R252). -/
theorem elemsOfBeats_one (s : State) (n : Nat) : elemsOfBeats n 1 (s.payload n) = [elemOfBeats (s.payload n)] := by
  rw [elemsOfBeats, elemsOfBeats, State.payload, List.take_take, Nat.min_self]

/-- ABSORB of a canonical element on a committed engine (R252). -/
theorem exec_absorb (h : Ready s s.geom.limbs) (hp : s.pvalid = true)
    (hx : elemOfBeats (s.payload s.geom.limbs) < s.geom.P) : exec .absorb s
      = .next ((s.absorbOne (elemOfBeats (s.payload s.geom.limbs))).answered s.geom.limbs 0x00 []) := by
  have hone := absorbCommand_ok (n := 1) (xs := [elemOfBeats (s.payload s.geom.limbs)])
    (by rwa [Nat.one_mul]) hp (by simpa using hx) (by rw [Nat.one_mul, elemsOfBeats_one])
  rw [Nat.one_mul] at hone
  exact hone

/-- Settles O54: the two transitions of an Absorbing buffer, and those of the buffer emptied first. -/
theorem absorbTransitions : Obligations.AbsorbTransitions := by
  intro s h hr hp R x c done hx
  have hR : 0 < R := h.geometry.oneLeR
  have hexec : ∀ {u}, s.absorbOne x = u → exec .absorb s = done u := fun hu =>
    (exec_absorb hr hp hx).trans (congrArg done hu)
  have hempty : BufOk (s.setSponge s.regs .absorbing s.emptyBuf) := bufOk_empty hR s.regs
  have hzero : (s.setSponge s.regs .absorbing s.emptyBuf).bufCount = 0 := countP_replicate_none R
  have hone : ((s.setSponge s.regs .absorbing s.emptyBuf).push x).bufCount = 1 := by
    rw [push_bufCount hempty rfl, hzero]
  refine ⟨fun hm hc => hexec ?push, fun hm hc => hexec ?block, fun hm hc => hexec ?dropAndPush,
    fun hm hc => hexec ?dropAndBlock⟩
  case push => exact absorbOne_push hm (by rw [push_bufCount h.buf hm]; exact hc.ne)
  case block =>
    rw [absorbOne_block hm ((push_bufCount h.buf hm x).trans hc), blockAdded_push h.buf hm hc, ← hm]
    rfl
  case dropAndPush =>
    rw [absorbOne_squeezing hm, absorbOne_push rfl (by rw [hone]; exact hc.ne), State.push, hzero]
    rfl
  case dropAndBlock =>
    have hfull : (s.setSponge s.regs .absorbing s.emptyBuf).bufCount + 1 = R := by rw [hzero, hc]
    rw [absorbOne_squeezing hm, absorbOne_block rfl (hone.trans hc.symm), blockAdded_push hempty rfl hfull, hzero]
    simp only [Nat.not_lt_zero, if_false]
    have hregs := map_range_ite_eq_set h.regs.1 0 fun i => (s.reg i + x) % s.geom.P
    exact congrArg (fun v => s.setSponge (s.permute v) .absorbing s.emptyBuf) hregs

-- O55: ABSORBN

/-- An element of a valid geometry fits its limbs (R9, R63). -/
theorem GeometryValid.modulus_le {g : Geometry} (h : GeometryValid g) : g.P ≤ 2 ^ (64 * g.limbs) := by
  have hl : (g.P.log2 + 1 + 63) / 64 ≤ g.limbs := h.limbsHold
  calc g.P ≤ 2 ^ (g.P.log2 + 1) := Nat.lt_log2_self.le
    _ ≤ 2 ^ (64 * g.limbs) := Nat.pow_le_pow_right (by decide) (by omega)

theorem length_flatMap_beatsOfElem (n : Nat) (xs : List Nat) :
    (xs.flatMap (beatsOfElem n)).length = xs.length * n := by
  induction xs with
  | nil => simp
  | cons x xs ih => rw [List.flatMap_cons, List.length_append, ih, beatsOfElem_length, List.length_cons]; ring

/-- What the host sends for elements that fit their limbs is read back as those elements (R63, R99). -/
theorem elemsOfBeats_flatMap {n : Nat} {xs : List Nat} (hx : ∀ x ∈ xs, x < 2 ^ (64 * n)) :
    elemsOfBeats n xs.length (xs.flatMap (beatsOfElem n)) = xs := by
  induction xs with
  | nil => rfl
  | cons x xs ih =>
    obtain ⟨hx, hxs⟩ := List.forall_mem_cons.1 hx
    rw [List.length_cons, elemsOfBeats, List.flatMap_cons,
      List.take_left' (beatsOfElem_length n x), List.drop_left' (beatsOfElem_length n x),
      elemOfBeats_beatsOfElem hx, ih hxs]

/-- An ABSORB command sent with its element is one step (R90, R252). -/
theorem step_absorb {rest : List Beat} (hg : GeometryValid s.geom) (hp : s.pvalid = true) (hf : s.fault = false)
    (ha : s.activity = .idle) (hx : x < s.geom.P)
    (hin : s.input = wordBeat 0x00000041 :: (beatsOfElem s.geom.limbs x ++ rest)) :
    step s = .next ((s.absorbOne x).withPorts rest (s.output ++ [{ code := 0x00, items := [] }])) := by
  have hlen : (beatsOfElem s.geom.limbs x).length = s.geom.limbs := beatsOfElem_length _ _
  have hr : Ready s s.geom.limbs := ⟨hf, by rw [hin, List.length_cons, List.length_append, hlen]; omega⟩
  have hpayload : elemOfBeats (s.payload s.geom.limbs) = x := by
    rw [State.payload, hin, List.drop_succ_cons, List.drop_zero, List.take_left' hlen,
      elemOfBeats_beatsOfElem (hx.trans_le hg.modulus_le)]
  obtain ⟨v, m, b, hone⟩ := eq_setSponge_absorbOne s x
  rw [step_encoded (i := .absorb) ha rfl rfl hin, exec_absorb hr hp (hpayload.symm ▸ hx), hpayload, hone]
  simp only [State.answered, State.withPorts, State.setSponge_input, State.setSponge_output, hin,
    Nat.add_comm 1, List.drop_succ_cons, List.drop_left' hlen]

/-- ABSORB commands, each sent with its element: each is one step (R254, R367). -/
theorem runs_absorb {xs : List Nat} {rest : List Beat} (hg : GeometryValid s.geom) (hp : s.pvalid = true)
    (hf : s.fault = false) (ha : s.activity = .idle) (hx : ∀ x ∈ xs, x < s.geom.P)
    (hin : s.input = xs.flatMap (fun x => wordBeat 0x00000041 :: beatsOfElem s.geom.limbs x) ++ rest) :
    Runs xs.length s ((s.absorbMany xs).withPorts rest
      (s.output ++ List.replicate xs.length { code := 0x00, items := [] })) := by
  induction xs generalizing s with
  | nil =>
    obtain rfl : s.input = rest := hin
    rw [List.length_nil, List.replicate_zero, List.append_nil]
    rfl
  | cons x xs ih =>
    obtain ⟨hx, hxs⟩ := List.forall_mem_cons.1 hx
    rw [List.flatMap_cons, List.cons_append, List.cons_append, List.append_assoc] at hin
    have hstep := step_absorb hg hp hf ha hx hin
    obtain ⟨v, m, b, hone⟩ := eq_setSponge_absorbOne s x
    rw [hone] at hstep
    have hrest := ih (s := (s.setSponge v m b).withPorts
      (xs.flatMap (fun y => wordBeat 0x00000041 :: beatsOfElem s.geom.limbs y) ++ rest)
      (s.output ++ [{ code := 0x00, items := [] }])) hg hp hf ha hxs rfl
    rw [absorbMany_withPorts, withPorts_withPorts, withPorts_output, List.append_assoc] at hrest
    rw [absorbMany_cons, hone]
    exact ⟨_, hstep, hrest⟩

/-- Settles O55: both are the fold of `absorb` over the elements (`runs_absorb`). -/
theorem absorbnEqualsAbsorbs : Obligations.AbsorbnEqualsAbsorbs := by
  intro s xs w rest h hf hp ha hx hin
  have hlen := length_flatMap_beatsOfElem s.geom.limbs xs
  have hr : Ready s (xs.length * s.geom.limbs) :=
    ⟨hf, by rw [hin, List.length_cons, List.length_append, hlen]; omega⟩
  have hpayload : s.payload (xs.length * s.geom.limbs) = xs.flatMap (beatsOfElem s.geom.limbs) := by
    rw [State.payload, hin, List.drop_succ_cons, List.drop_zero, List.take_left' hlen]
  have hdrop : s.input.drop (1 + xs.length * s.geom.limbs) = rest := by
    rw [hin, Nat.add_comm, List.drop_succ_cons, List.drop_left' hlen]
  have hexec : exec (.absorbn xs.length) s = _ := absorbCommand_ok hr hp hx
    (by rw [hpayload, elemsOfBeats_flatMap fun x hm => (hx x hm).trans_le h.geometry.modulus_le])
  have hruns := runs_absorb (s := s.withPorts
    (xs.flatMap (fun x => wordBeat 0x00000041 :: beatsOfElem s.geom.limbs x) ++ rest) s.output)
    h.geometry hp hf ha hx rfl
  rw [absorbMany_withPorts, withPorts_withPorts, withPorts_output] at hruns
  obtain ⟨v, m, b, hmany⟩ := eq_setSponge_absorbMany xs s
  rw [hmany] at hexec hruns
  refine ⟨v, m, b, ?_, hruns, ?_⟩
  · rw [hexec, State.answered, State.setSponge_input, hdrop]; rfl
  · rintro rfl
    exact ⟨(congrArg State.regs hmany).symm, (congrArg State.mode hmany).symm, (congrArg State.buf hmany).symm⟩

end Sys2Proof.Machine

/-! PROOF of O56 and O57. What `squeeze()` does from each kind of buffer, and SQUEEZE commands one after another. -/

namespace Sys2Proof.Machine

variable {s t : State} {j k x R : Nat}

-- O56: the transitions of `squeeze`

/-- A copy of the rate part of `v` whose first `j` elements are read (R255). -/
def unreadFrom (R : Nat) (v : List Nat) (j : Nat) : List (Option Nat) :=
  (List.range R).map fun i => if i < j then none else some (v.getD i 0)

theorem unreadFrom_zero (s : State) : unreadFrom s.geom.R s.regs 0 = s.rateCopy := rfl

theorem unreadFrom_all (R : Nat) (v : List Nat) : unreadFrom R v R = List.replicate R none :=
  List.ext_getElem (by simp [unreadFrom]) fun i hi hi' => by
    have hlt : i < R := by simpa using hi'
    simp [unreadFrom, hlt]

theorem unreadFrom_getD (hj : j < R) (v : List Nat) : (unreadFrom R v j).getD j none = some (v.getD j 0) := by
  simp [unreadFrom, hj]

theorem unreadFrom_set (R : Nat) (v : List Nat) (j : Nat) :
    (unreadFrom R v j).set j none = unreadFrom R v (j + 1) := by
  refine List.ext_getElem (by simp [unreadFrom]) fun i _ _ => ?_
  rcases Nat.lt_trichotomy i j with hi | rfl | hi
  · simp [unreadFrom, hi.ne', hi, hi.le]
  · simp [unreadFrom]
  · simp [unreadFrom, hi.ne, hi.not_gt, hi.not_ge]

/-- Reading an element makes the count of unread ones one less (R25). -/
theorem unreadFrom_countP (hj : j ≤ R) (v : List Nat) : (unreadFrom R v j).countP Option.isSome = R - j := by
  induction j with
  | zero => exact countP_map_some R _
  | succ j ih =>
    have hlen : j < (unreadFrom R v j).length := by simpa [unreadFrom] using hj
    rw [← unreadFrom_set, countP_set_none hlen (by rw [unreadFrom_getD hj]; rfl), ih (Nat.le_of_lt hj)]
    omega

/-- From an empty Absorbing buffer the rate part is copied (R255). -/
theorem squeezeOne_absorbing (hm : s.mode = .absorbing) (hR : 0 < s.geom.R) (hc : s.bufCount = 0) :
    s.squeezeOne = (s.setSponge s.regs .squeezing (unreadFrom s.geom.R s.regs 0)).squeezeOne := by
  simp only [State.squeezeOne, State.toSqueezing, hm, hc, Nat.lt_irrefl, false_and, if_false, hR.ne,
    State.setSponge_mode, unreadFrom_zero]

/-- A partly filled Absorbing buffer gives the signal (R255). -/
theorem squeezeOne_partly (hm : s.mode = .absorbing) (h : BufOk s) (hc : 0 < s.bufCount) : s.squeezeOne = none := by
  have hpart : 0 < s.bufCount ∧ s.bufCount < s.geom.R := ⟨hc, (h.absorbing hm).1⟩
  simp only [State.squeezeOne, State.toSqueezing, hm, if_pos hpart]

/-- In Squeezing mode the lowest unread element is taken (R255). -/
theorem squeezeOne_unread (hm : s.mode = .squeezing) (hc : 0 < s.bufCount) :
    s.squeezeOne = some (s.bufValue (s.geom.R - s.bufCount),
      s.setSponge s.regs .squeezing (s.buf.set (s.geom.R - s.bufCount) none)) := by
  simp only [State.squeezeOne, State.toSqueezing, hm, State.refill, if_neg hc.ne', State.takeUnread]

/-- When everything is read the state is permuted and the rate part copied again (R255). -/
theorem squeezeOne_read (hm : s.mode = .squeezing) (hR : 0 < s.geom.R) (hc : s.bufCount = 0) : s.squeezeOne
      = (s.setSponge (s.permute s.regs) .squeezing (unreadFrom s.geom.R (s.permute s.regs) 0)).squeezeOne := by
  have hcopy : (s.setSponge (s.permute s.regs) .squeezing (unreadFrom s.geom.R (s.permute s.regs) 0)).bufCount ≠ 0 :=
    (unreadFrom_countP (Nat.zero_le _) _).trans_ne hR.ne'
  simp only [State.squeezeOne, State.toSqueezing, hm, State.refill, if_pos hc, if_neg hcopy, State.setSponge_mode]
  rw [State.setRegs_mode, hm]
  rfl

/-- From a copy of the rate part that is read up to element `j`, element `j` is taken (R255). -/
theorem squeezeOne_unreadFrom (hj : j < s.geom.R) (v : List Nat) :
    (s.setSponge v .squeezing (unreadFrom s.geom.R v j)).squeezeOne
      = some (v.getD j 0, s.setSponge v .squeezing (unreadFrom s.geom.R v (j + 1))) := by
  have hcount : (s.setSponge v .squeezing (unreadFrom s.geom.R v j)).bufCount = s.geom.R - j :=
    unreadFrom_countP hj.le v
  have hindex : s.geom.R - (s.geom.R - j) = j := by omega
  rw [squeezeOne_unread rfl (by omega), hcount, State.bufValue, State.setSponge_buf, State.setSponge_geom, hindex,
    unreadFrom_getD hj, unreadFrom_set]
  rfl

theorem squeezeMany_one (h : s.squeezeOne = some (x, t)) : s.squeezeMany 1 = some ([x], t) := by
  rw [squeezeMany_succ h]; rfl

/-- SQUEEZE on a committed engine that has an element to give (R255). -/
theorem exec_squeeze (h : Ready s 0) (hp : s.pvalid = true) (hs : s.squeezeOne = some (x, t)) :
    exec .squeeze s = .next (t.answered 0 0x00 [.elem x]) :=
  squeezeCommand_ok h hp (squeezeMany_one hs)

/-- Settles O56: `squeeze()` from each kind of buffer; of a fresh copy element 0 is taken. -/
theorem squeezeTransitions : Obligations.SqueezeTransitions := by
  intro s h hr hp R c copied
  have hR : 0 < R := h.geometry.oneLeR
  have hcopied : ∀ v, unreadFrom R v 1 = copied v := fun v => by simp only [unreadFrom, Nat.lt_one_iff]; rfl
  refine ⟨fun hm hc => ?_, fun hm hc => ?_, fun hm hc => ?_, fun hm hc => ?_⟩
  · have hone := (squeezeOne_absorbing hm hR hc).trans (squeezeOne_unreadFrom hR s.regs)
    rw [exec_squeeze hr hp hone, hcopied]
    rfl
  · exact squeezeCommand_signal hr hp (squeezeMany_succ_none (squeezeOne_partly hm h.buf hc))
  · obtain ⟨x, hx⟩ := Option.isSome_iff_exists.1 (unread_isSome h.buf hm hc)
    have hvalue : s.bufValue (s.geom.R - s.bufCount) = x := by rw [State.bufValue, hx]; rfl
    refine ⟨x, hx, ?_⟩
    rw [exec_squeeze hr hp (squeezeOne_unread hm hc), hvalue, ← hm]
    rfl
  · have hone := (squeezeOne_read hm hR hc).trans (squeezeOne_unreadFrom hR (s.permute s.regs))
    rw [exec_squeeze hr hp hone, hcopied, ← hm]
    rfl

-- O57: SQUEEZEN

/-- The first of several executions of `squeeze()` and the others (R257). -/
theorem squeezeMany_succ_eq_some {vs : List Nat} (h : s.squeezeMany (k + 1) = some (vs, t)) :
    ∃ x u xs, s.squeezeOne = some (x, u) ∧ u.squeezeMany k = some (xs, t) ∧ vs = x :: xs := by
  cases hone : s.squeezeOne with
  | none => rw [squeezeMany_succ_none hone] at h; cases h
  | some r =>
    rw [squeezeMany_succ hone, Option.map_eq_some_iff] at h
    obtain ⟨⟨xs, u⟩, hmany, he⟩ := h
    cases he
    exact ⟨r.1, r.2, xs, rfl, hmany, rfl⟩

theorem squeezeMany_length {vs : List Nat} (h : s.squeezeMany k = some (vs, t)) : vs.length = k := by
  induction k generalizing s vs with
  | zero => cases h; rfl
  | succ k ih =>
    obtain ⟨x, u, xs, -, hmany, rfl⟩ := squeezeMany_succ_eq_some h
    exact congrArg Nat.succ (ih hmany)

/-- Only the first `squeeze()` can give the signal: after it the sponge is Squeezing (R257). -/
theorem exists_squeezeMany (h : DataOk s) (hs : ¬(s.mode = .absorbing ∧ 0 < s.bufCount)) (k : Nat) :
    ∃ vs t, s.squeezeMany k = some (vs, t) := by
  induction k generalizing s with
  | zero => exact ⟨[], s, rfl⟩
  | succ k ih =>
    rcases squeezeOne_cases h.one_lt h.geometry.oneLeR h.buf h.regs with
      ⟨hm, hc, -⟩ | ⟨-, v, t, hone, -, hm, -, -⟩
    · exact absurd ⟨hm, hc⟩ hs
    · obtain ⟨vs, u, hmany⟩ := ih (h.squeezeOne hone) (by simp [hm])
      exact ⟨v :: vs, u, by rw [squeezeMany_succ hone, hmany]; rfl⟩

/-- A SQUEEZE command is one step (R90, R255). -/
theorem step_squeeze {rest : List Beat} (hp : s.pvalid = true) (hf : s.fault = false) (ha : s.activity = .idle)
    (hs : s.squeezeOne = some (x, t)) (hin : s.input = wordBeat 0x00000043 :: rest) :
    step s = .next (t.withPorts rest (s.output ++ [{ code := 0x00, items := [.elem x] }])) := by
  obtain ⟨r, m, b, rfl⟩ := eq_setSponge_squeezeOne hs
  rw [step_encoded (i := .squeeze) ha rfl rfl hin, exec_squeeze ⟨hf, by rw [hin]; simp⟩ hp hs]
  simp only [State.answered, State.withPorts, State.setSponge_input, State.setSponge_output, hin]
  rfl

/-- SQUEEZE commands, one after another: each is one step and one response (R257, R367). -/
theorem runs_squeeze {vs : List Nat} {rest : List Beat} (hp : s.pvalid = true) (hf : s.fault = false)
    (ha : s.activity = .idle) (hs : s.squeezeMany k = some (vs, t))
    (hin : s.input = List.replicate k (wordBeat 0x00000043) ++ rest) :
    Runs k s (t.withPorts rest (s.output ++ vs.map fun v => { code := 0x00, items := [.elem v] })) := by
  induction k generalizing s t vs with
  | zero =>
    obtain ⟨rfl, rfl⟩ : vs = [] ∧ t = s := by cases hs; exact ⟨rfl, rfl⟩
    obtain rfl : t.input = rest := hin
    rw [List.map_nil, List.append_nil]
    rfl
  | succ k ih =>
    obtain ⟨x, u, xs, hone, hmany, rfl⟩ := squeezeMany_succ_eq_some hs
    rw [List.replicate_succ, List.cons_append] at hin
    have hstep := step_squeeze hp hf ha hone hin
    obtain ⟨r, m, b, rfl⟩ := eq_setSponge_squeezeOne hone
    have hrest := ih (s := (s.setSponge r m b).withPorts (List.replicate k (wordBeat 0x00000043) ++ rest)
      (s.output ++ [{ code := 0x00, items := [.elem x] }])) hp hf ha (squeezeMany_withPorts_some hmany _ _) rfl
    rw [withPorts_output, List.append_assoc] at hrest
    exact ⟨_, hstep, hrest⟩

/-- Settles O57: both are `squeeze()` so many times (`runs_squeeze`), and only the first can give the signal. -/
theorem squeezenEqualsSqueezes : Obligations.SqueezenEqualsSqueezes := by
  intro s k h hr hp ha partly
  obtain ⟨hdata, -⟩ := inv_iff.1 h
  refine ⟨fun hk => ?_, fun hk hpart => ?_⟩
  · obtain ⟨vs, t, hmany⟩ : ∃ vs t, s.squeezeMany k = some (vs, t) := by
      rcases hk with rfl | hpart
      · exact ⟨[], s, squeezeMany_zero s⟩
      · exact exists_squeezeMany hdata hpart k
    obtain ⟨r, m, b, rfl⟩ := eq_setSponge_squeezeMany k hmany
    refine ⟨r, m, b, vs, squeezeMany_length hmany, squeezeCommand_ok hr hp hmany,
      runs_squeeze
      (s := s.withPorts (List.replicate k (wordBeat 0x00000043) ++ s.input.drop 1) s.output)
      hp hr.1 ha (squeezeMany_withPorts_some hmany _ _) rfl, ?_⟩
    rintro rfl
    rw [squeezeMany_zero] at hmany
    have hself : s = s.setSponge r m b := congrArg Prod.snd (Option.some.inj hmany)
    exact ⟨(congrArg State.regs hself).symm, (congrArg State.mode hself).symm, (congrArg State.buf hself).symm⟩
  · obtain ⟨k, rfl⟩ := Nat.exists_eq_succ_of_ne_zero hk.ne'
    obtain ⟨hm, hc⟩ := hpart
    exact squeezeCommand_signal hr hp (squeezeMany_succ_none (squeezeOne_partly hm h.buf hc))

end Sys2Proof.Machine

/-! PROOF of O58. Absorbing whole blocks from an empty buffer is one block step for each, by induction on the blocks;
squeezing the rate part that follows reads the copy element by element. -/

namespace Sys2Proof.Machine

variable {s : State} {R : Nat}

-- The buffer while a block fills

/-- The buffer that holds the elements `l` of an unfinished block (R25). -/
def filledBuf (R : Nat) (l : List Nat) : List (Option Nat) := l.map some ++ List.replicate (R - l.length) none

theorem filledBuf_countP (R : Nat) (l : List Nat) : (filledBuf R l).countP Option.isSome = l.length := by
  rw [filledBuf, List.countP_append, countP_replicate_none, List.countP_map, Nat.add_zero, List.countP_eq_length]
  exact fun _ _ => rfl

theorem filledBuf_set {l : List Nat} (h : l.length < R) (x : Nat) :
    (filledBuf R l).set l.length (some x) = filledBuf R (l ++ [x]) := by
  obtain ⟨k, rfl⟩ := Nat.exists_eq_add_of_lt h
  have hfree : l.length + k + 1 - l.length = k + 1 := by omega
  have hrest : l.length + k + 1 - (l ++ [x]).length = k := by rw [List.length_append, List.length_singleton]; omega
  rw [filledBuf, filledBuf, hfree, hrest, List.set_append_right _ _ (by simp), List.replicate_succ]
  simp

theorem filledBuf_getD {l : List Nat} {i : Nat} (h : i < l.length) :
    (filledBuf R l).getD i none = some (l.getD i 0) := by
  simp [filledBuf, List.getElem?_append_left, h]

theorem push_filledBuf {l : List Nat} (h : l.length < s.geom.R) (v : List Nat) (x : Nat) :
    (s.setSponge v .absorbing (filledBuf s.geom.R l)).push x
      = s.setSponge v .absorbing (filledBuf s.geom.R (l ++ [x])) := by
  have hcount : (s.setSponge v .absorbing (filledBuf s.geom.R l)).bufCount = l.length := filledBuf_countP _ _
  rw [State.push, hcount, State.setSponge_buf, filledBuf_set h]
  rfl

/-- Elements that do not fill the buffer are pushed (R252). -/
theorem absorbMany_push (hm : s.mode = .absorbing) (hb : s.buf = s.emptyBuf) {l : List Nat}
    (hl : l.length < s.geom.R) : s.absorbMany l = s.setSponge s.regs .absorbing (filledBuf s.geom.R l) := by
  induction l using List.reverseRecOn with
  | nil => rw [← hm]; exact congrArg (s.setSponge s.regs s.mode) hb
  | append_singleton l x ih =>
    have hlt : l.length < s.geom.R := (Nat.lt_add_one _).trans (by simpa using hl)
    have hpush := push_filledBuf hlt s.regs x
    have hnot : ((s.setSponge s.regs .absorbing (filledBuf s.geom.R l)).push x).bufCount ≠ s.geom.R := by
      rw [hpush]; exact (filledBuf_countP _ _).trans_ne hl.ne
    rw [absorbMany_append, ih hlt, ← hpush]
    exact absorbOne_push rfl hnot

-- Whole blocks

/-- `v` with the first `R` elements of `l` added into its rate part (R253). -/
def State.addBlock (s : State) (v l : List Nat) : List Nat :=
  (List.range s.geom.W).map fun i =>
    if i < s.geom.R then (v.getD i 0 + l.getD i 0) % s.geom.P else v.getD i 0

/-- Only the first `R` elements are looked at. -/
theorem addBlock_take (s : State) (v l : List Nat) : s.addBlock v (l.take s.geom.R) = s.addBlock v l := by
  refine List.map_congr_left fun i _ => ?_
  split
  · next hi =>
    have hget : (l.take s.geom.R).getD i 0 = l.getD i 0 := by simp [hi]
    rw [hget]
  · rfl

/-- A full buffer, added (R253). -/
theorem blockAdded_filledBuf {l : List Nat} (hl : l.length = s.geom.R) (v : List Nat) :
    (s.setSponge v .absorbing (filledBuf s.geom.R l)).blockAdded = s.addBlock v l := by
  refine List.map_congr_left fun i _ => ?_
  change (if i < s.geom.R then fieldAdd s.geom.P (v.getD i 0) (((filledBuf s.geom.R l).getD i none).getD _)
    else v.getD i 0) = _
  split
  · next hi => rw [filledBuf_getD (hl.symm ▸ hi)]; rfl
  · rfl

/-- The `R`-th element of a block makes the engine add the block and permute (R252, R253). -/
theorem absorbMany_block (hm : s.mode = .absorbing) (hb : s.buf = s.emptyBuf) {l : List Nat} (hR : 0 < s.geom.R)
    (hl : l.length = s.geom.R) :
    s.absorbMany l = s.setSponge (s.permute (s.addBlock s.regs l)) .absorbing s.emptyBuf := by
  obtain rfl | ⟨l, x, rfl⟩ := List.eq_nil_or_concat l
  · exact absurd hl hR.ne
  rw [List.concat_eq_append] at hl ⊢
  have hlt : l.length < s.geom.R := (Nat.lt_add_one _).trans_eq (by simpa using hl)
  have hpush := push_filledBuf hlt s.regs x
  have hfull : ((s.setSponge s.regs .absorbing (filledBuf s.geom.R l)).push x).bufCount = s.geom.R := by
    rw [hpush]; exact (filledBuf_countP _ _).trans hl
  rw [absorbMany_append, absorbMany_push hm hb hlt]
  refine (absorbOne_block rfl hfull).trans ?_
  rw [hpush, blockAdded_filledBuf hl, permute_setSponge]
  rfl

/-- Block `k` of `l` absorbed into `v` (R253, R259). -/
def State.blockStep (s : State) (l v : List Nat) (k : Nat) : List Nat :=
  s.permute (s.addBlock v (l.drop (k * s.geom.R)))

theorem blockStep_setSponge (s : State) (v : List Nat) (m : Mode) (b : List (Option Nat)) :
    (s.setSponge v m b).blockStep = s.blockStep := by
  funext l u k; rw [State.blockStep, permute_setSponge]; rfl

theorem blockStep_drop (s : State) (l v : List Nat) (k : Nat) :
    s.blockStep (l.drop s.geom.R) v k = s.blockStep l v (k + 1) := by
  rw [State.blockStep, List.drop_drop, State.blockStep, Nat.succ_mul, Nat.add_comm s.geom.R]

/-- Absorbing whole blocks from an empty buffer (R253, R259). -/
theorem absorbMany_blocks {m : Nat} {l : List Nat} (hm : s.mode = .absorbing) (hb : s.buf = s.emptyBuf)
    (hR : 0 < s.geom.R) (hl : l.length = m * s.geom.R) :
    s.absorbMany l = s.setSponge ((List.range m).foldl (s.blockStep l) s.regs) .absorbing s.emptyBuf := by
  induction m generalizing s l with
  | zero =>
    obtain rfl := List.eq_nil_of_length_eq_zero (hl.trans (Nat.zero_mul _))
    rw [← hm, ← hb]; rfl
  | succ m ih =>
    rw [Nat.succ_mul] at hl
    have hfirst : (l.take s.geom.R).length = s.geom.R := by rw [List.length_take]; omega
    have hrest : (l.drop s.geom.R).length = m * s.geom.R := by rw [List.length_drop]; omega
    have htail := ih (s := s.setSponge (s.permute (s.addBlock s.regs l)) .absorbing s.emptyBuf) rfl rfl hR hrest
    calc s.absorbMany l = (s.absorbMany (l.take s.geom.R)).absorbMany (l.drop s.geom.R) := by
          rw [← absorbMany_append, List.take_append_drop]
      _ = s.setSponge ((List.range m).foldl (s.blockStep (l.drop s.geom.R)) (s.permute (s.addBlock s.regs l)))
            .absorbing s.emptyBuf := by
          rw [absorbMany_block hm hb hR hfirst, addBlock_take, htail, blockStep_setSponge]; rfl
      _ = s.setSponge ((List.range (m + 1)).foldl (s.blockStep l) s.regs) .absorbing s.emptyBuf := by
          rw [List.range_succ_eq_map, List.foldl_cons, List.foldl_map]
          simp only [← blockStep_drop]
          rw [State.blockStep, Nat.zero_mul, List.drop_zero]

-- The rate part

/-- Squeezing `k` more elements of a copy of the rate part that is read up to element `j` (R255, R257). -/
theorem squeezeMany_unreadFrom {v : List Nat} (hv : s.geom.R ≤ v.length) {j k : Nat} (hjk : j + k ≤ s.geom.R) :
    (s.setSponge v .squeezing (unreadFrom s.geom.R v j)).squeezeMany k
      = some ((v.drop j).take k, s.setSponge v .squeezing (unreadFrom s.geom.R v (j + k))) := by
  induction k generalizing j with
  | zero => rfl
  | succ k ih =>
    have hj : j < s.geom.R := by omega
    have hjv : j < v.length := hj.trans_le hv
    rw [squeezeMany_succ (squeezeOne_unreadFrom hj v), ih (by omega), List.drop_eq_getElem_cons hjv,
      List.take_succ_cons, List.getD_eq_getElem _ _ hjv, Nat.add_right_comm]
    rfl

/-- Executions of `squeeze()` from two states that the first one does not tell apart (R257). -/
theorem squeezeMany_congr {u : State} {k : Nat} (hk : 0 < k) (h : s.squeezeOne = u.squeezeOne) :
    s.squeezeMany k = u.squeezeMany k := by
  obtain ⟨k, rfl⟩ := Nat.exists_eq_succ_of_ne_zero hk.ne'
  rw [State.squeezeMany, h, State.squeezeMany]

/-- Squeezing the whole rate part from an empty Absorbing buffer (R258). -/
theorem squeezeMany_rate (hR : 0 < s.geom.R) {v : List Nat} (hv : s.geom.R ≤ v.length) :
    (s.setSponge v .absorbing s.emptyBuf).squeezeMany s.geom.R
      = some (v.take s.geom.R, s.setSponge v .squeezing s.emptyBuf) := by
  have hempty : (s.setSponge v .absorbing s.emptyBuf).bufCount = 0 := countP_replicate_none s.geom.R
  have hone := squeezeOne_absorbing (s := s.setSponge v .absorbing s.emptyBuf) rfl hR hempty
  have hcopy := squeezeMany_unreadFrom (s := s) hv (j := 0) (k := s.geom.R) (Nat.zero_add _).le
  rw [List.drop_zero, Nat.zero_add, unreadFrom_all] at hcopy
  exact (squeezeMany_congr hR hone).trans hcopy

-- O58: HASH

/-- Input and padding fill whole blocks (R232 to R237). -/
theorem paddingValues_aligned {st : Strategy} {n : Nat} {pad : List Nat} (hR : 1 ≤ R)
    (h : paddingValues R st n = some pad) : (n + pad.length) % R = 0 := by
  have hboundary := add_block_sub_mod n hR
  have hzeros : (n + (R - n % R) % R) % R = 0 := (Nat.add_mod_mod _ _ _).trans hboundary
  have hlt : n % R < R := Nat.mod_lt n hR
  have halways : (n + (R - n % R - 1 + 1)) % R = 0 := by
    rw [Nat.sub_add_cancel (by omega)]; exact hboundary
  cases st <;> simp only [paddingValues, Option.ite_none_right_eq_some, Option.some.injEq] at h
  case fixedLength | customFixedLength => subst h; rwa [List.length_replicate]
  case variableLength => subst h; rwa [List.length_cons, List.length_replicate]
  case customVariableLength | noPadding => obtain ⟨hmod, rfl⟩ := h; exact hmod

@[simp] theorem elemsOfBeats_length (limbs n : Nat) (bs : List Beat) : (elemsOfBeats limbs n bs).length = n := by
  induction n generalizing bs with
  | zero => rfl
  | succ n ih => rw [elemsOfBeats, List.length_cons, ih]

/-- The registers that HASH starts from: zero, with the capacity value in the last element (R258). -/
def initialRegs (W : Nat) (c : Option Nat) : List Nat := List.replicate (W - 1) 0 ++ [c.getD 0]

theorem newSponge_setCapacity (hW : 0 < s.geom.W) (c : Option Nat) :
    s.newSponge.setCapacity c = s.setSponge (initialRegs s.geom.W c) .absorbing s.emptyBuf := by
  obtain ⟨k, hk⟩ := Nat.exists_eq_succ_of_ne_zero hW.ne'
  have hzeros : List.replicate s.geom.W 0 = List.replicate (s.geom.W - 1) 0 ++ [0] := by
    rw [hk, List.replicate_succ']; rfl
  cases c with
  | none => rw [State.setCapacity, State.newSponge, hzeros]; rfl
  | some v =>
    have hset : (List.replicate (s.geom.W - 1) 0 ++ [0]).set (s.geom.W - 1) v = initialRegs s.geom.W (some v) := by
      rw [List.set_append_right _ _ (by simp)]; simp [initialRegs]
    rw [← hset, ← hzeros]
    rfl

/-- The state of HASH when the `m` blocks of the padded input are absorbed (R258, R259). -/
theorem hashAbsorbed_eq (h : GeometryValid s.geom) (st : Strategy) {xs pad : List Nat} {m : Nat}
    (hl : (xs ++ pad).length = m * s.geom.R) : s.hashAbsorbed st xs pad
      = s.setSponge ((List.range m).foldl (s.blockStep (xs ++ pad))
          (initialRegs s.geom.W (capacityValue s.geom.P s.geom.R st s.hLen))) .absorbing s.emptyBuf := by
  have hW : 0 < s.geom.W := Nat.lt_of_lt_of_le (by decide) h.twoLeW
  have hblocks := absorbMany_blocks rfl rfl h.oneLeR hl
    (s := s.setSponge (initialRegs s.geom.W (capacityValue s.geom.P s.geom.R st s.hLen)) .absorbing s.emptyBuf)
  rw [blockStep_setSponge] at hblocks
  rw [State.hashAbsorbed, newSponge_setCapacity hW, hblocks]
  rfl

/-- Settles O58: the blocks are absorbed one after another (`hashAbsorbed_eq`), and the rate part is squeezed
(`squeezeMany_rate`). -/
theorem hashIsTheBlockSponge : Obligations.HashIsTheBlockSponge := by
  intro s st pad h hr hp hpad n W R xs initial block final hx
  have hg := h.geometry
  obtain ⟨hdata, -⟩ := inv_iff.1 h
  have hlen : (xs ++ pad).length = (n + pad.length) / R * R := by
    rw [Nat.div_mul_cancel (Nat.dvd_of_mod_eq_zero (paddingValues_aligned hg.oneLeR hpad)), List.length_append,
      elemsOfBeats_length]
  have hblock : s.blockStep (xs ++ pad) = block := by
    funext v k
    refine congrArg s.permute (List.map_congr_left fun i _ => ?_)
    simp only [List.getD_eq_getElem?_getD, List.getElem?_drop]
    rfl
  have habsorbed : s.hashAbsorbed st xs pad = s.setSponge final .absorbing s.emptyBuf := by
    rw [hashAbsorbed_eq hg st hlen, hblock]; rfl
  have hfinal : IsVector s.geom final := by
    have := (hdata.hashAbsorbed st hx hpad).regs
    rwa [habsorbed] at this
  have hs : (s.hashAbsorbed st xs pad).squeezeMany s.geom.R = _ := habsorbed ▸
    squeezeMany_rate hg.oneLeR (hg.rLtW.le.trans hfinal.1.ge)
  exact execHash_ok hr hp hpad hx rfl hs rfl rfl

end Sys2Proof.Machine

/-! PROOF of O60. The descending pass of batch inversion keeps `t *F acc = 1` for the product `acc` of the entries not
yet reached; one of five candidates is the inverse exponent; and the binary chain keeps the leading bits of `e` as the
exponent of its newest entry. -/

namespace Sys2Proof.Machine

variable {P : Nat}

-- R287: batch inversion

/-- What batch inversion puts in the place of an entry (R287). -/
def inverseOrZero (P x : Nat) : Nat := if x = 0 then 0 else fieldInv P x

@[simp] theorem inverseOrZero_zero : inverseOrZero P 0 = 0 := if_pos rfl

theorem inverseOrZero_of_ne_zero {x : Nat} (h : x ≠ 0) : inverseOrZero P x = fieldInv P x := if_neg h

theorem prefixProducts_zero_cons (acc : Nat) (v : List Nat) :
    prefixProducts P acc (0 :: v) = (acc :: (prefixProducts P acc v).1, (prefixProducts P acc v).2) := rfl

theorem prefixProducts_cons {x : Nat} (h : x ≠ 0) (acc : Nat) (v : List Nat) :
    prefixProducts P acc (x :: v)
      = (acc :: (prefixProducts P (fieldMul P acc x) v).1, (prefixProducts P (fieldMul P acc x) v).2) := by
  rw [prefixProducts, if_neg h]

theorem unwindInverse_zero_cons (t pre : Nat) (rest : List (Nat × Nat)) :
    unwindInverse P t ((0, pre) :: rest) = 0 :: unwindInverse P t rest := rfl

theorem unwindInverse_cons {x : Nat} (h : x ≠ 0) (t pre : Nat) (rest : List (Nat × Nat)) :
    unwindInverse P t ((x, pre) :: rest) = fieldMul P t pre :: unwindInverse P (fieldMul P t x) rest := by
  rw [unwindInverse, if_neg h]

/-- The product of the nonzero entries is not zero, so its inverse exists (R287). -/
theorem prefixProducts_ne_zero [Fact P.Prime] {v : List Nat} (hv : ∀ x ∈ v, x < P) {acc : Nat}
    (hacc : (acc : ZMod P) ≠ 0) : ((prefixProducts P acc v).2 : ZMod P) ≠ 0 := by
  induction v generalizing acc with
  | nil => exact hacc
  | cons x v ih =>
    obtain ⟨hx, hrest⟩ := List.forall_mem_cons.1 hv
    by_cases h0 : x = 0
    · subst h0
      exact ih hrest hacc
    · have hxP : (x : ZMod P) ≠ 0 := fun h => h0 (Nat.eq_zero_of_dvd_of_lt ((ZMod.natCast_eq_zero_iff x P).1 h) hx)
      rw [prefixProducts_cons h0]
      exact ih hrest (by rw [cast_fieldMul]; exact mul_ne_zero hacc hxP)

/-- The descending pass from `t`, the inverse of the whole product, inverts the entries of `v`, and goes on below them
with the inverse of the product `acc` that the ascending pass had before them (R287). -/
theorem unwindInverse_prefixProducts [Fact P.Prime] (v : List Nat) {acc t : Nat}
    (ht : (t : ZMod P) * (prefixProducts P acc v).2 = 1) (rest : List (Nat × Nat)) :
    ∃ u : Nat, (u : ZMod P) * acc = 1 ∧
      unwindInverse P t ((v.zip (prefixProducts P acc v).1).reverse ++ rest)
        = (v.map (inverseOrZero P)).reverse ++ unwindInverse P u rest := by
  have hP : P.Prime := Fact.out
  induction v generalizing acc rest with
  | nil => exact ⟨t, ht, rfl⟩
  | cons x v ih =>
    by_cases h0 : x = 0
    · subst h0
      rw [prefixProducts_zero_cons] at ht ⊢
      obtain ⟨u, hu, hrun⟩ := ih ht ((0, acc) :: rest)
      refine ⟨u, hu, ?_⟩
      simp only [List.zip_cons_cons, List.reverse_cons, List.append_assoc,
        List.singleton_append, List.map_cons, hrun, unwindInverse_zero_cons, inverseOrZero_zero]
    · rw [prefixProducts_cons h0] at ht ⊢
      obtain ⟨u, hu, hrun⟩ := ih ht ((x, acc) :: rest)
      rw [cast_fieldMul, ← mul_assoc] at hu
      have hentry : fieldMul P u acc = inverseOrZero P x := by
        rw [inverseOrZero_of_ne_zero h0]
        refine eq_of_cast_eq (fieldMul_lt hP.pos _ _) (fieldPow_lt hP.one_lt _ _) ?_
        rw [cast_fieldInv (right_ne_zero_of_mul_eq_one hu), cast_fieldMul, eq_inv_of_mul_eq_one_left hu]
      refine ⟨fieldMul P u x, by rw [cast_fieldMul, mul_right_comm, hu], ?_⟩
      simp only [List.zip_cons_cons, List.reverse_cons, List.append_assoc, List.singleton_append, List.map_cons, hrun,
        unwindInverse_cons h0, hentry]

/-- Batch inversion is the element-wise inverse with zeros left in place (R287). -/
theorem batchInverse_eq_map (hP : P.Prime) {v : List Nat} (hv : ∀ x ∈ v, x < P) :
    batchInverse P v = v.map (inverseOrZero P) := by
  have : Fact P.Prime := ⟨hP⟩
  have hprod : ((prefixProducts P 1 v).2 : ZMod P) ≠ 0 :=
    prefixProducts_ne_zero hv (by rw [Nat.cast_one]; exact one_ne_zero)
  obtain ⟨u, -, hrun⟩ := unwindInverse_prefixProducts v (t := fieldInv P (prefixProducts P 1 v).2)
    (by rw [cast_fieldInv hprod, inv_mul_cancel₀ hprod]) []
  rw [unwindInverse, List.append_nil, List.append_nil] at hrun
  rw [batchInverse, hrun, List.reverse_reverse]

-- R290: the inverse exponent

/-- One of the five candidates of R290 is a whole number. -/
theorem exists_dvd_mul_add_one {n : Nat} (h : Nat.Coprime 5 n) : ∃ k < 5, (k * n + 1) % 5 = 0 := by
  have h5 : n % 5 ≠ 0 := fun h0 =>
    absurd (Nat.eq_one_of_dvd_coprimes h (dvd_refl 5) (Nat.dvd_of_mod_eq_zero h0)) (by decide)
  obtain h | h | h | h : n % 5 = 1 ∨ n % 5 = 2 ∨ n % 5 = 3 ∨ n % 5 = 4 := by omega
  · exact ⟨4, by decide, by omega⟩
  · exact ⟨2, by decide, by omega⟩
  · exact ⟨3, by decide, by omega⟩
  · exact ⟨1, by decide, by omega⟩

/-- The inverse exponent comes from a candidate that is a whole number (R290). -/
theorem alphaInverse_eq (h2 : 2 < P) (hc : Nat.Coprime 5 (P - 1)) :
    ∃ k < 5, (k * (P - 1) + 1) % 5 = 0 ∧ alphaInverse P = some ((k * (P - 1) + 1) / 5) := by
  obtain ⟨k₀, hk₀, hmod₀⟩ := exists_dvd_mul_add_one hc
  have hsome : ((List.range 5).find? fun k => (k * (P - 1) + 1) % 5 == 0).isSome :=
    List.find?_isSome.2 ⟨k₀, List.mem_range.2 hk₀, beq_iff_eq.2 hmod₀⟩
  obtain ⟨k, hk⟩ := Option.isSome_iff_exists.1 hsome
  have hmod : (k * (P - 1) + 1) % 5 = 0 := by simpa only [beq_iff_eq] using List.find?_some hk
  refine ⟨k, List.mem_range.1 (List.mem_of_find?_eq_some hk), hmod, ?_⟩
  rw [alphaInverse, if_neg (Nat.not_le.2 h2), hk, Option.map_some]

/-- The inverse exponent is the inverse of 5 modulo `P - 1` (R290). -/
theorem alphaInverse_spec (h2 : 2 < P) (hc : Nat.Coprime 5 (P - 1)) :
    ∃ e, alphaInverse P = some e ∧ 1 ≤ e ∧ e < P - 1 ∧ 5 * e ≡ 1 [MOD P - 1] := by
  obtain ⟨k, hk, hmod, halpha⟩ := alphaInverse_eq h2 hc
  have hfive : 5 * ((k * (P - 1) + 1) / 5) = k * (P - 1) + 1 := Nat.mul_div_cancel' (Nat.dvd_of_mod_eq_zero hmod)
  have hle : k * (P - 1) ≤ 4 * (P - 1) := Nat.mul_le_mul_right _ (by omega)
  refine ⟨_, halpha, by omega, by omega, ?_⟩
  rw [hfive, Nat.ModEq, Nat.mul_add_mod_self_right]

-- R291: the binary chain

/-- The step words of the binary chain below the leading bit (R105, R291). -/
def binaryWords (e bits t : Nat) : List Word := (binaryChainFrom e bits t).map fun st => encode st.toInstr

theorem binaryWords_succ_one {e bits : Nat} (h : e / 2 ^ bits % 2 = 1) (t : Nat) :
    binaryWords e (bits + 1) t
      = encode (.chDbl t) :: encode (.chAdd (t + 1) 0) :: binaryWords e bits (t + 2) := by
  rw [binaryWords, binaryChainFrom, if_pos h]; rfl

theorem binaryWords_succ_zero {e bits : Nat} (h : e / 2 ^ bits % 2 = 0) (t : Nat) :
    binaryWords e (bits + 1) t = encode (.chDbl t) :: binaryWords e bits (t + 1) := by
  rw [binaryWords, binaryChainFrom, if_neg (by rw [h]; decide)]; rfl

/-- A bit takes one step or two (R291). -/
theorem binaryWords_length_le (e bits t : Nat) : (binaryWords e bits t).length ≤ 2 * bits := by
  induction bits generalizing t with
  | zero => exact le_rfl
  | succ bits ih =>
    rcases Nat.mod_two_eq_zero_or_one (e / 2 ^ bits) with h | h
    · have := ih (t + 1)
      rw [binaryWords_succ_zero h, List.length_cons]; omega
    · have := ih (t + 2)
      rw [binaryWords_succ_one h, List.length_cons, List.length_cons]; omega

theorem decodeStep_encode_chDbl {i : Nat} (h : i < 2 ^ 15) : decodeStep (encode (.chDbl i)) = .ok (.double i) :=
  decodeEncodeChainSteps (.double i) (decide_eq_true h)

theorem decodeStep_encode_chAdd {l r : Nat} (hl : l < 2 ^ 15) (hr : r < 2 ^ 15) :
    decodeStep (encode (.chAdd l r)) = .ok (.add l r) :=
  decodeEncodeChainSteps (.add l r) (Bool.and_eq_true_iff.2 ⟨decide_eq_true hl, decide_eq_true hr⟩)

/-- The exponents of a scratch list: the seed's is 1, and the newest entry, entry `t`, has the exponent `m` (R163). -/
structure ExponentsAt (t m : Nat) (es : List Nat) : Prop where
  length : es.length = t + 1
  seed : es.getD 0 0 = 1
  newest : es.getD t 0 = m

theorem exponentsAt_seed : ExponentsAt 0 1 [1] := ⟨rfl, rfl, rfl⟩

theorem ExponentsAt.snoc {t m : Nat} {es : List Nat} (h : ExponentsAt t m es) (m' : Nat) :
    ExponentsAt (t + 1) m' (es ++ [m']) where
  length := by rw [List.length_append, h.length, List.length_singleton]
  seed := by rw [List.getD_append _ _ _ _ (by rw [h.length]; omega), h.seed]
  newest := by rw [List.getD_append_right _ _ _ _ h.length.le, h.length, Nat.sub_self]; rfl

/-- `DBL t` on the newest entry (R160, R163). -/
theorem ExponentsAt.double {t m : Nat} {es : List Nat} (h : ExponentsAt t m es) (ht : t < 2 ^ 15) :
    ExponentsAt (t + 1) (2 * m) (chainExpAppend es (encode (.chDbl t))) := by
  rw [chainExpAppend_double (decodeStep_encode_chDbl ht), h.newest]
  exact h.snoc _

/-- `ADD t, 0` adds the seed to the newest entry (R161, R163). -/
theorem ExponentsAt.addSeed {t m : Nat} {es : List Nat} (h : ExponentsAt t m es) (ht : t < 2 ^ 15) :
    ExponentsAt (t + 1) (m + 1) (chainExpAppend es (encode (.chAdd t 0))) := by
  rw [chainExpAppend_add (decodeStep_encode_chAdd ht (by decide)), h.newest, h.seed]
  exact h.snoc _

/-- Every step of the binary chain reads entries already computed (R162). -/
theorem chainValidFrom_binaryWords (e : Nat) {bits t : Nat} (ht : t + 2 * bits < 2 ^ 15) :
    chainValidFrom t (binaryWords e bits t) = true := by
  induction bits generalizing t with
  | zero => rfl
  | succ bits ih =>
    have hdouble : chainStepValid t (encode (.chDbl t)) = true :=
      (chainStepValid_double (decodeStep_encode_chDbl (by omega))).2 le_rfl
    rcases Nat.mod_two_eq_zero_or_one (e / 2 ^ bits) with h | h
    · rw [binaryWords_succ_zero h]
      exact Bool.and_eq_true_iff.2 ⟨hdouble, ih (by omega)⟩
    · have hadd : chainStepValid (t + 1) (encode (.chAdd (t + 1) 0)) = true :=
        (chainStepValid_add (decodeStep_encode_chAdd (by omega) (by decide))).2 ⟨le_rfl, Nat.zero_le _⟩
      rw [binaryWords_succ_one h]
      exact Bool.and_eq_true_iff.2 ⟨hdouble, Bool.and_eq_true_iff.2 ⟨hadd, ih (by omega)⟩⟩

/-- From the bits of `e` above the lowest `bits` to all of them: each step of the scan brings the next bit (R291). -/
theorem ExponentsAt.binaryWords {e bits t : Nat} {es : List Nat} (h : ExponentsAt t (e / 2 ^ bits) es)
    (ht : t + 2 * bits < 2 ^ 15) :
    ExponentsAt (t + (binaryWords e bits t).length) e ((binaryWords e bits t).foldl chainExpAppend es) := by
  induction bits generalizing t es with
  | zero => rwa [pow_zero, Nat.div_one] at h
  | succ bits ih =>
    have hdouble := h.double (by omega)
    rw [pow_succ, ← Nat.div_div_eq_div_mul] at hdouble
    rcases Nat.mod_two_eq_zero_or_one (e / 2 ^ bits) with hbit | hbit
    · rw [show 2 * (e / 2 ^ bits / 2) = e / 2 ^ bits by omega] at hdouble
      rw [binaryWords_succ_zero hbit, List.length_cons, List.foldl_cons, Nat.add_comm (List.length _), ← Nat.add_assoc]
      exact ih hdouble (by omega)
    · have hadd := hdouble.addSeed (by omega)
      rw [show 2 * (e / 2 ^ bits / 2) + 1 = e / 2 ^ bits by omega] at hadd
      rw [binaryWords_succ_one hbit, List.length_cons, List.length_cons, List.foldl_cons, List.foldl_cons,
        Nat.add_assoc, Nat.add_comm (List.length _), ← Nat.add_assoc]
      exact ih hadd (by omega)

/-- The binary chain for `e` has exponent `e` (R163, R291). -/
theorem chainExponent_binaryWords {e : Nat} (he : 1 ≤ e) (hlog : 2 * e.log2 < 2 ^ 15) :
    chainExponent (binaryWords e e.log2 0) = e := by
  have hlead : e / 2 ^ e.log2 = 1 :=
    Nat.div_eq_of_lt_le (by rw [one_mul]; exact Nat.log2_self_le (by omega))
      (by rw [one_add_one_eq_two, ← pow_succ']; exact Nat.lt_log2_self)
  have hend := (hlead ▸ exponentsAt_seed : ExponentsAt 0 (e / 2 ^ e.log2) [1]).binaryWords (by omega)
  rw [Nat.zero_add] at hend
  exact hend.newest

/-- Settles O60: an entry of `batchInverse_eq_map` is zero or the inverse of `fieldMul_fieldInv`; the exponent is
`alphaInverse_spec`; the chain's words are `binaryWords`. -/
theorem hostConstruction : Obligations.HostConstruction := by
  refine ⟨fun P v hP hv => ?_, fun P _ h2 hc => alphaInverse_spec h2 hc, fun e he hlog => ?_⟩
  · rw [batchInverse_eq_map hP hv]
    refine ⟨List.length_map _, fun i hi => ?_⟩
    have hlt : v.getD i 0 < P := by
      rw [List.getD_eq_getElem _ _ hi]; exact hv _ (List.getElem_mem hi)
    rw [getD_map_of_lt hi 0 0]
    refine ⟨fun h0 => by rw [h0, inverseOrZero_zero], fun h0 => ?_⟩
    rw [inverseOrZero_of_ne_zero h0]
    exact ⟨fieldPow_lt hP.one_lt _ _, fieldMul_fieldInv hP h0 hlt⟩
  · exact ⟨chainValidFrom_binaryWords e (by omega), chainExponent_binaryWords he hlog, binaryWords_length_le e _ 0⟩

end Sys2Proof.Machine

/-! PROOF of O7, O9, O16, O23, O25 and O26. What NOP, PCOMMIT, SWR and SRD do, each with its checks in their order, and
what is left of a command on a faulted engine: a response, or the reset of RST. -/

namespace Sys2Proof.Machine

variable {s t : State}

-- O16, O23, O25 and O26: host commands

/-- Settles O16: the body of NOP answers ok with the state it was given. -/
theorem nopOnlyAnswers : Obligations.NopOnlyAnswers := by
  intro s h
  change execNop s = _
  rw [execNop, runCommand_ready h]
  rfl

/-- What PCOMMIT does, its checks in their order (R326, R331). -/
theorem exec_pcommit (h : Ready s 0) :
    exec .pcommit s = .next
      (if s.pvalid = true then s.answered 0 0x00 []
      else if s.k1 = false then s.faultedWith 0 0x11
      else if s.commitChecks = false then s.faultedWith 0 0x10
      else s.setPvalid.answered 0 0x00 []) := by
  have fault := fun c (hc : Code.isSignal c = false) => report_consume_fault (n := 0) h.1 hc
  change execPcommit s = _
  rw [execPcommit, runCommand_ready h]
  simp only [State.consume_pvalid, k1_consume, commitChecks_consume, Bool.not_eq_true']
  by_cases hp : s.pvalid = true
  · simp only [hp, if_true]; rfl
  by_cases hk : s.k1 = false
  · simp only [hp, hk, if_true]; exact congrArg _ (fault .unsupportedSboxExponent rfl)
  by_cases hc : s.commitChecks = false
  · simp only [hp, hk, hc, if_true]; exact congrArg _ (fault .invalidConfiguration rfl)
  · simp only [hp, hk, hc]; rfl

/-- K1 of R327. -/
theorem k1_iff : s.k1 = true ↔ s.csr.alpha.toNat = 5 := by
  rw [State.k1, beq_iff_eq, ← BitVec.toNat_inj]
  rfl

/-- Settles O23: the checks of `exec_pcommit`, the first of them K1. -/
theorem pcommitOutcomes : Obligations.PcommitOutcomes := by
  intro s h
  have alpha : s.k1 = false ↔ s.csr.alpha.toNat ≠ 5 := by rw [← Bool.not_eq_true, k1_iff]
  rw [exec_pcommit h]
  refine ⟨fun hp => ?_, fun hp ha => ?_, fun hp ha hc => ?_, fun hp ha hc => ?_⟩
  · rw [if_pos hp]
  · rw [if_neg (by simp [hp]), if_pos (alpha.2 ha)]
  · rw [if_neg (by simp [hp]), if_neg (by simp [alpha, ha]), if_pos hc]
  · rw [if_neg (by simp [hp]), if_neg (by simp [alpha, ha]), if_neg (by simp [hc])]
    rfl

/-- What the register check asks for (R95, R103). -/
theorem regOk_refuses_iff {r : Nat} : (!s.regOk r) = true ↔ s.geom.W ≤ r := by simp [State.regOk]

/-- What the canonicity check asks for (R129). -/
theorem canonical_refuses_iff {P x : Nat} : (!canonical P x) = true ↔ P ≤ x := by simp [canonical]

/-- What SWR of the value `x` does, its checks in their order (R328). -/
theorem exec_swr {r x : Nat} (h : Ready s s.geom.limbs) (hx : elemOfBeats (s.payload s.geom.limbs) = x) :
    exec (.swr r) s = .next
      (if s.geom.W ≤ r then s.faultedWith s.geom.limbs 0x24
      else if s.geom.P ≤ x then s.faultedWith s.geom.limbs 0x21
      else (s.setReg r x).answered s.geom.limbs 0x00 []) := by
  have fault := fun c (hc : Code.isSignal c = false) => report_consume_fault (n := s.geom.limbs) h.1 hc
  change execSwr r s = _
  rw [execSwr, runCommand_ready h, hx]
  simp only [regOk_refuses_iff, canonical_refuses_iff, State.consume_geom]
  by_cases hr : s.geom.W ≤ r
  · simp only [hr, if_true]; exact congrArg _ (fault .indexOutOfRange rfl)
  by_cases hc : s.geom.P ≤ x
  · simp only [hr, hc, if_true, if_false]; exact congrArg _ (fault .nonCanonicalOperand rfl)
  · simp only [hr, hc, if_false]; rfl

/-- Settles O25: the two checks of `exec_swr`, and the one register written. -/
theorem swrWritesOneRegister : Obligations.SwrWritesOneRegister := by
  intro s r h x
  have swr := exec_swr (r := r) (x := x) h rfl
  refine ⟨fun hr hx => ?_, fun hr => ?_, fun hr hx => ?_⟩
  · rw [swr, if_neg (Nat.not_le.2 hr), if_neg (Nat.not_le.2 hx)]
    rfl
  · rw [swr, if_pos hr]
  · rw [swr, if_neg (Nat.not_le.2 hr), if_pos hx]

/-- What SRD does: the fault gate does not stop it, and a recorded fault outlives its own (R329, R356, R357). -/
theorem exec_srd {r : Nat} (h : 1 ≤ s.input.length) :
    exec (.srd r) s = .next
      (if r < s.geom.W then s.answered 0 0x00 [.elem (s.reg r)]
      else if s.fault = true then s.answered 0 0x24 [] else s.faultedWith 0 0x24) := by
  change execSrd r s = _
  rw [execSrd, runCommand_ungated (n := 0) h]
  simp only [regOk_refuses_iff, State.consume_geom, reg_consume]
  by_cases hr : r < s.geom.W
  · simp only [hr, Nat.not_le.2 hr, if_true, if_false]; rfl
  · simp only [hr, Nat.not_lt.1 hr, if_true, if_false]; exact congrArg _ (report_consume_any rfl)

/-- Settles O26: a register that exists is answered, and past the last one SRD raises `IndexOutOfRange`. -/
theorem srdReadsOneRegister : Obligations.SrdReadsOneRegister := by
  intro s r h
  refine ⟨fun hr => ?_, fun hr => ?_⟩
  · rw [exec_srd h, if_pos hr]
  · rw [exec_srd h, if_neg (Nat.not_lt.2 hr)]

-- O7: the fault gate

/-- The four commands that the fault gate does not stop (R357). -/
theorem gatedCommand_eq_false {i : Instr} (h : gatedCommand i = false) :
    i = .rst ∨ (∃ n, i = .csrr n) ∨ (∃ sp idx, i = .prd sp idx) ∨ ∃ r, i = .srd r := by
  cases i
  case rst => exact .inl rfl
  case csrr n => exact .inr (.inl ⟨n, rfl⟩)
  case prd sp idx => exact .inr (.inr (.inl ⟨sp, idx, rfl⟩))
  case srd r => exact .inr (.inr (.inr ⟨r, rfl⟩))
  all_goals cases h

/-- A gated command on a faulted engine consumes its payload and answers `Faulted` (R357). -/
theorem exec_gated {i : Instr} (hi : i.isCommand = true) (hg : gatedCommand i = true) (hf : s.fault = true)
    (h : 1 + payloadBeats s i ≤ s.input.length) :
    exec i s = .next (s.answered (payloadBeats s i) 0x26 []) := by
  obtain ⟨body, hrun, -, -⟩ := exec_shell i hi
  rw [hrun, runCommand_faulted h hg hf, raise_consume_faulted _ _ _ hf]
  rfl

/-- A number that names no register is a reserved one (R28). -/
theorem le_of_csrOfNumber_none {n : Nat} (h : csrOfNumber n = none) : 13 ≤ n := by
  by_contra hn
  obtain ⟨id, rfl⟩ := exists_number (show n ≤ 12 by omega)
  rw [csrOfNumber_number] at h
  cases h

/-- Settles O7: `exec_gated` for the commands behind the gate, and what the other four do in any state. -/
theorem faultGate : Obligations.FaultGate := by
  intro s hf
  refine ⟨fun i hi hrst hcsrr hprd hsrd hlen => ?gated, exec_rst, fun h n id hid => ?csrr,
    fun h sp idx hidx => ?prd, fun h r hr => ?srd, fun h => ⟨fun n hn => ?noCsr, fun sp idx hidx => ?noEntry,
      fun r hr => ?noRegister⟩⟩
  case gated =>
    refine exec_gated hi ?_ hf hlen
    by_contra hg
    rcases gatedCommand_eq_false (by simpa using hg) with h | ⟨n, h⟩ | ⟨sp, idx, h⟩ | ⟨r, h⟩
    · exact hrst h
    · exact hcsrr n h
    · exact hprd sp idx h
    · exact hsrd r h
  case csrr => rw [csrOfNumber_eq_some.1 hid, exec_csrr h]
  case prd => rw [exec_prd h, if_pos hidx]
  case srd => rw [exec_srd h, if_pos hr]
  case noCsr => rw [exec_csrr_reserved h (le_of_csrOfNumber_none hn), if_pos hf]
  case noEntry => rw [exec_prd h, if_neg (Nat.not_lt.2 hidx), if_pos hf]
  case noRegister => rw [exec_srd h, if_neg (Nat.not_lt.2 hr), if_pos hf]

-- O9: the way out of the faulted state

/-- On a faulted engine a command other than RST does nothing but answer (R356, R357). -/
theorem exec_faulted {i : Instr} (hi : i.isCommand = true) (hr : i ≠ .rst) (hf : s.fault = true)
    (h : 1 + payloadBeats s i ≤ s.input.length) :
    ∃ c items, exec i s = .next (s.answered (payloadBeats s i) c items) := by
  cases hg : gatedCommand i with
  | true => exact ⟨_, _, exec_gated hi hg hf h⟩
  | false =>
    rcases gatedCommand_eq_false hg with rfl | ⟨n, rfl⟩ | ⟨sp, idx, rfl⟩ | ⟨r, rfl⟩
    · exact absurd rfl hr
    · rcases Nat.lt_or_ge n 13 with hn | hn
      · obtain ⟨id, rfl⟩ := exists_number (Nat.le_of_lt_succ hn)
        exact ⟨_, _, exec_csrr h id⟩
      · exact ⟨_, _, by rw [exec_csrr_reserved h hn, if_pos hf]; rfl⟩
    · by_cases hidx : idx < entryCount s.geom sp
      · exact ⟨_, _, by rw [exec_prd h, if_pos hidx]; rfl⟩
      · exact ⟨_, _, by rw [exec_prd h, if_neg hidx, if_pos hf]; rfl⟩
    · by_cases hreg : r < s.geom.W
      · exact ⟨_, _, by rw [exec_srd h, if_pos hreg]; rfl⟩
      · exact ⟨_, _, by rw [exec_srd h, if_neg hreg, if_pos hf]; rfl⟩

/-- What a faulted engine does between commands, RST apart: it writes the ports only (R356, R358). -/
theorem exec_faulted_ports {i : Instr} (hi : i.isCommand = true) (hr : i ≠ .rst) (hf : s.fault = true)
    (h : exec i s = .next t) : t = { s with input := t.input, output := t.output } := by
  rcases Nat.lt_or_ge s.input.length (1 + payloadBeats s i) with hlen | hlen
  · obtain ⟨hwait, -⟩ := everyOutcomeIsPrecise s i hi
    rw [hwait hlen] at h
    cases h
    rfl
  · obtain ⟨c, items, hanswer⟩ := exec_faulted hi hr hf hlen
    rw [hanswer] at h
    cases h
    rfl

/-- An illegal word on a faulted engine is answered and nothing else (R356, R360). -/
theorem illegalWord_faulted (hf : s.fault = true) (w : Word) :
    s.illegalWord w = { s with input := (s.illegalWord w).input, output := (s.illegalWord w).output } := by
  rw [State.illegalWord, raise_consume_faulted s 0 _ hf]
  rfl

/-- Settles O9: RST resets, every other step at the command port writes the ports only, and a step inside a command
writes neither FAULT nor ERR. -/
theorem onlyRstLeavesTheFault : Obligations.OnlyRstLeavesTheFault := by
  intro s t hf h
  have ports (ht : t = { s with input := t.input, output := t.output }) :
      t.fault = true ∧ t.err = s.err ∧ (s.activity = .idle → t = { s with input := t.input, output := t.output }) :=
    ⟨by rw [ht]; exact hf, by rw [ht], fun _ => ht⟩
  rcases step_forms s with ⟨-, hs⟩ | ⟨i, w, ha, hi, hw, hd, hs⟩ | ⟨w, -, -, hs⟩ | ⟨l, ha, hs⟩ | ⟨rnd, ph, ha, hs⟩ <;>
    rw [hs] at h
  · cases h
    exact .inr (ports rfl)
  · by_cases hr : i = .rst
    · subst hr
      have hlen : 1 ≤ s.input.length := by
        refine List.length_pos_iff.2 fun hnone => ?_
        simp [State.fetchWord, hnone] at hw
      rw [exec_rst hlen] at h
      cases h
      exact .inl ⟨ha, by rw [hw, ← encode_of_decode hd]; rfl, rfl⟩
    · exact .inr (ports (exec_faulted_ports hi hr hf h))
  · cases h
    exact .inr (ports (illegalWord_faulted hf w))
  · obtain ⟨a, rfl, -⟩ := chainStep_next ha h
    exact .inr ⟨hf, rfl, fun hidle => by rw [ha] at hidle; cases hidle⟩
  · cases h
    rcases sequencerStep_eq s rnd ph with ⟨l, a, -, hq⟩ | hq <;> rw [hq]
    · exact .inr ⟨hf, rfl, fun hidle => by rw [ha] at hidle; cases hidle⟩
    · exact .inr ⟨hf, rfl, fun hidle => by rw [ha] at hidle; cases hidle⟩

end Sys2Proof.Machine

/-! PROOF of O49. The W commands SWR write the registers one after another, PERMUTE permutes them and the W commands SRD
read them; each is one step. -/

namespace Sys2Proof.Machine

variable {s t u : State}

/-- Two runs, one after the other. -/
theorem Runs.trans {m n : Nat} (h : Runs m s t) (h' : Runs n t u) : Runs (m + n) s u := by
  induction m generalizing s with
  | zero => cases h; rwa [Nat.zero_add]
  | succ m ih =>
    obtain ⟨v, hv, hr⟩ := h
    rw [Nat.succ_add]
    exact ⟨v, hv, ih hr⟩

/-- A register number of a valid geometry fits the immediate of the command word (R94, R328). -/
theorem GeometryValid.fitsImm_of_lt {g : Geometry} (h : GeometryValid g) {i : Nat} (hi : i < g.W) :
    fitsImm i = true := by
  have hW := h.wLe
  exact decide_eq_true (by omega)

/-- An SWR command sent with its element is one step (R90, R328). -/
theorem step_swr {i x : Nat} {rest : List Beat} (hg : GeometryValid s.geom) (hf : s.fault = false)
    (ha : s.activity = .idle) (hi : i < s.geom.W) (hx : x < s.geom.P)
    (hin : s.input = commandBeats s.geom (.swr i) [.elem x] ++ rest) :
    step s = .next ((s.setReg i x).withPorts rest (s.output ++ [{ code := 0x00, items := [] }])) := by
  have hlen : (beatsOfElem s.geom.limbs x).length = s.geom.limbs := beatsOfElem_length _ _
  have hin : s.input = wordBeat (encode (.swr i)) :: (beatsOfElem s.geom.limbs x ++ rest) := by
    rw [hin, commandBeats, List.flatMap_singleton, List.cons_append]
    rfl
  have hr : Ready s s.geom.limbs := ⟨hf, by rw [hin, List.length_cons, List.length_append, hlen]; omega⟩
  have hpayload : elemOfBeats (s.payload s.geom.limbs) = x := by
    rw [State.payload, hin, List.drop_succ_cons, List.drop_zero, List.take_left' hlen,
      elemOfBeats_beatsOfElem (hx.trans_le hg.modulus_le)]
  rw [step_encoded (i := .swr i) ha (hg.fitsImm_of_lt hi) rfl hin, exec_swr hr hpayload, if_neg (Nat.not_le.2 hi),
    if_neg (Nat.not_le.2 hx)]
  simp only [State.answered, State.withPorts, State.setReg_input, State.setReg_output, hin, Nat.add_comm 1,
    List.drop_succ_cons, List.drop_left' hlen]

/-- SWR commands for the registers after `done`, each sent with its element: each is one step (R328, R367). -/
theorem runs_swr {vs done old : List Nat} {rest : List Beat} (hg : GeometryValid s.geom) (hf : s.fault = false)
    (ha : s.activity = .idle) (hregs : s.regs = done ++ old) (hold : old.length = vs.length)
    (hW : done.length + vs.length ≤ s.geom.W) (hx : ∀ x ∈ vs, x < s.geom.P)
    (hin : s.input = (vs.zipIdx done.length).flatMap (fun (x, i) => commandBeats s.geom (.swr i) [.elem x]) ++ rest) :
    Runs vs.length s ((s.setRegs (done ++ vs)).withPorts rest
      (s.output ++ List.replicate vs.length { code := 0x00, items := [] })) := by
  induction vs generalizing s done old with
  | nil =>
    obtain rfl : s.input = rest := hin
    obtain rfl := List.length_eq_zero_iff.1 hold
    rw [← hregs, List.length_nil, List.replicate_zero, List.append_nil]
    rfl
  | cons x vs ih =>
    obtain ⟨y, old, rfl⟩ := List.exists_cons_of_length_eq_add_one hold
    obtain ⟨hx, hxs⟩ := List.forall_mem_cons.1 hx
    rw [List.length_cons] at hold hW
    rw [List.zipIdx_cons, List.flatMap_cons, List.append_assoc] at hin
    have hstep := step_swr hg hf ha (by omega) hx hin
    have hwritten : s.regs.set done.length x = (done ++ [x]) ++ old := by
      rw [hregs, List.set_append_right _ _ (Nat.le_refl _), Nat.sub_self, List.set_cons_zero, List.append_assoc]
      rfl
    have hlen : (done ++ [x]).length = done.length + 1 := by simp
    have hrest := ih (s := (s.setReg done.length x).withPorts
      ((vs.zipIdx (done.length + 1)).flatMap (fun (x, i) => commandBeats s.geom (.swr i) [.elem x]) ++ rest)
      (s.output ++ [{ code := 0x00, items := [] }])) (done := done ++ [x]) (old := old) hg hf ha hwritten
      (Nat.succ.inj hold) (by rw [hlen, withPorts_geom, State.setReg_geom]; omega) hxs (by rw [hlen]; rfl)
    rw [List.append_assoc, withPorts_output, List.append_assoc] at hrest
    exact ⟨_, hstep, hrest⟩

/-- PERMUTE at the head of the stream is one step (R90, R190). -/
theorem step_permute {rest : List Beat} (hp : s.pvalid = true) (hf : s.fault = false) (ha : s.activity = .idle)
    (hin : s.input = commandBeats s.geom .permute [] ++ rest) :
    step s = .next ((s.setRegs (s.permute s.regs)).withPorts rest (s.output ++ [{ code := 0x00, items := [] }])) := by
  have hin : s.input = wordBeat (encode .permute) :: rest := hin
  rw [step_encoded ha rfl rfl hin, exec_permute ⟨hf, by simp [hin]⟩, if_neg (by simp [hp])]
  simp only [State.answered, State.withPorts, State.setRegs_input, State.setRegs_output, hin]
  rfl

/-- SRD commands, one after another: each is one step and one response (R329, R367). -/
theorem runs_srd {is : List Nat} {rest : List Beat} (hg : GeometryValid s.geom) (ha : s.activity = .idle)
    (hi : ∀ i ∈ is, i < s.geom.W)
    (hin : s.input = is.flatMap (fun i => commandBeats s.geom (.srd i) []) ++ rest) :
    Runs is.length s (s.withPorts rest
      (s.output ++ is.map fun i => { code := 0x00, items := [.elem (s.reg i)] })) := by
  induction is generalizing s with
  | nil =>
    obtain rfl : s.input = rest := hin
    rw [List.map_nil, List.append_nil]
    rfl
  | cons i is ih =>
    obtain ⟨hi, his⟩ := List.forall_mem_cons.1 hi
    have hin : s.input = wordBeat (encode (.srd i))
        :: (is.flatMap (fun i => commandBeats s.geom (.srd i) []) ++ rest) := hin
    have hstep := step_encoded (i := .srd i) ha (hg.fitsImm_of_lt hi) rfl hin
    rw [exec_srd (by simp [hin]), if_pos hi] at hstep
    have hrest := ih (s := s.answered 0 0x00 [.elem (s.reg i)]) hg ha his (by rw [State.answered_input, hin]; rfl)
    rw [State.answered_output, List.append_assoc] at hrest
    exact ⟨_, hstep, hrest⟩

/-- Settles O49: W writes, one permutation of what was written, W reads of what it gave. -/
theorem rawPermutationCall : Obligations.RawPermutationCall := by
  intro s vs rest h hp hf ha hvs hin
  obtain ⟨hlen, hlt⟩ := hvs
  have hg := h.geometry
  have hpermuted : (s.permute vs).length = s.geom.W := (isVector_permute hg.prime.one_lt ⟨hlen, hlt⟩).1
  rw [rawPermutation, List.append_assoc, List.append_assoc] at hin
  have hwrite := runs_swr (done := []) hg hf ha rfl (h.regs.1.trans hlen.symm) (by simp [hlen]) hlt hin
  rw [hlen] at hwrite
  have hpermute := step_permute (rest := rds s.geom ++ rest) (s := (s.setRegs vs).withPorts
    (commandBeats s.geom .permute [] ++ (rds s.geom ++ rest))
    (s.output ++ List.replicate s.geom.W { code := 0x00, items := [] })) hp hf ha rfl
  rw [permute_withPorts, permute_setRegs] at hpermute
  have hread := runs_srd (is := List.range s.geom.W) (rest := rest) (s := (s.setRegs (s.permute vs)).withPorts
    (rds s.geom ++ rest) (s.output ++ List.replicate s.geom.W { code := 0x00, items := [] } ++
      [{ code := 0x00, items := [] }])) hg ha (fun i => List.mem_range.1) rfl
  have hcount : 2 * s.geom.W + 1 = s.geom.W + 1 + (List.range s.geom.W).length := by
    rw [List.length_range]; omega
  have hresponses : (s.permute vs).map (fun v => ({ code := 0x00, items := [.elem v] } : Response))
      = (List.range s.geom.W).map fun i => { code := 0x00, items := [.elem ((s.permute vs).getD i 0)] } := by
    conv_lhs => rw [← map_range_getD hpermuted, List.map_map]
    rfl
  rw [hcount, hresponses, List.replicate_succ', ← List.append_assoc s.output]
  exact (hwrite.snoc hpermute).trans hread

end Sys2Proof.Machine

/-! PROOF of O24. Each commit check is the row of R327 it is named after. K12 is elimination: with a pivot for every
column only the zero combination of the rows is zero (`coefficients_eq_zero`), and a column without a pivot gives a
combination of the columns that is zero, built back from the eliminated columns to the first. -/

namespace Sys2Proof.Machine

variable {s : State} {P : Nat}

-- K12: a column without a pivot

/-- Without a pivot every head is zero (K12 of R327). -/
theorem headD_eq_zero_of_splitPivot {m : Mat} (h : splitPivot P m = none) :
    ∀ row ∈ m, (row.headD 0 : ZMod P) = 0 := by
  induction m with
  | nil => simp
  | cons row rest ih =>
    rw [splitPivot] at h
    split at h
    · cases h
    · next hhead =>
      split at h
      · cases h
      · next hrest =>
        refine List.forall_mem_cons.2 ⟨?_, ih hrest⟩
        exact (ZMod.natCast_eq_zero_iff _ _).2 (Nat.dvd_of_mod_eq_zero (not_not.1 hhead))

/-- The pivot row and the other rows are the rows of the matrix (K12 of R327). -/
theorem splitPivot_mem {m rest : Mat} {pivot : List Nat} (h : splitPivot P m = some (pivot, rest)) :
    (pivot.headD 0 : ZMod P) ≠ 0 ∧ ∀ row, row ∈ m ↔ row = pivot ∨ row ∈ rest := by
  have hm : (m.map fun row => ((0 : ZMod P), row)).map Prod.snd = m := by simp [Function.comp_def]
  rw [← hm] at h
  obtain ⟨hhead, c, l', hperm, rfl⟩ := splitPivot_perm h
  refine ⟨hhead, fun row => ?_⟩
  have hmem := (hperm.map Prod.snd).mem_iff (a := row)
  rwa [hm, List.map_cons, List.mem_cons] at hmem

/-- A combination of the first `n` elements of a row. -/
def columnCombination (n : Nat) (x : Nat → ZMod P) (row : List Nat) : ZMod P :=
  ∑ j ∈ Finset.range n, (row.getD j 0 : ZMod P) * x j

/-- The coefficients of a combination of the columns after the first, with the first coefficient that makes the
combination of the pivot row zero. -/
def backSubstitute (n : Nat) (pivot : List Nat) (y : Nat → ZMod P) : Nat → ZMod P
  | 0 => -((pivot.getD 0 0 : ZMod P)⁻¹ * columnCombination n y pivot.tail)
  | j + 1 => y j

theorem columnCombination_backSubstitute (n : Nat) (pivot row : List Nat) (y : Nat → ZMod P) :
    columnCombination (n + 1) (backSubstitute n pivot y) row
      = columnCombination n y row.tail
        - row.getD 0 0 * (pivot.getD 0 0 : ZMod P)⁻¹ * columnCombination n y pivot.tail := by
  rw [columnCombination, Finset.sum_range_succ', columnCombination]
  simp only [backSubstitute, List.getD_eq_getElem?_getD, List.getElem?_tail]
  ring

/-- A combination of a cleared row (K12 of R327). -/
theorem columnCombination_clearHead [Fact P.Prime] {pivot row : List Nat} {n : Nat} (hp : pivot.length = n + 1)
    (hr : row.length = n + 1) (h : (pivot.headD 0 : ZMod P) ≠ 0) (y : Nat → ZMod P) :
    columnCombination n y (clearHead P pivot row)
      = columnCombination (n + 1) (backSubstitute n pivot y) row := by
  rw [columnCombination_backSubstitute]
  simp only [columnCombination, Finset.mul_sum, ← Finset.sum_sub_distrib]
  refine Finset.sum_congr rfl fun j hj => ?_
  rw [cast_clearHead_getD hp hr h (Finset.mem_range.1 hj)]
  simp only [List.getD_eq_getElem?_getD, List.getElem?_tail]
  ring

/-- If elimination finds a column without a pivot, a combination of the columns that is not the zero combination is
zero (K12 of R327). -/
theorem exists_columnCombination_eq_zero [Fact P.Prime] {n : Nat} {m : Mat} (hrows : ∀ row ∈ m, row.length = n)
    (hns : nonsingular P n m = false) :
    ∃ x : Nat → ZMod P, (∃ j < n, x j ≠ 0) ∧ ∀ row ∈ m, columnCombination n x row = 0 := by
  induction n generalizing m with
  | zero => cases hns
  | succ n ih =>
    rw [nonsingular] at hns
    split at hns
    · next hnone =>
      refine ⟨Pi.single 0 1, ⟨0, n.succ_pos, by simp⟩, fun row hrow => ?_⟩
      have hhead := headD_eq_zero_of_splitPivot hnone row hrow
      rw [headD_eq_getD] at hhead
      rw [columnCombination, Finset.sum_range_succ', hhead]
      simp
    · next pivot rest hsplit =>
      obtain ⟨hhead, hmem⟩ := splitPivot_mem hsplit
      have hp : pivot.length = n + 1 := hrows _ ((hmem _).2 (.inl rfl))
      have hrest : ∀ row ∈ rest, row.length = n + 1 := fun row hrow => hrows _ ((hmem _).2 (.inr hrow))
      obtain ⟨y, ⟨j, hj, hy⟩, hzero⟩ := ih (m := rest.map (clearHead P pivot))
        (List.forall_mem_map.2 fun row hrow => length_clearHead hp (hrest row hrow)) hns
      refine ⟨backSubstitute n pivot y, ⟨j + 1, Nat.succ_lt_succ hj, hy⟩, fun row hrow => ?_⟩
      rcases (hmem row).1 hrow with rfl | hrow
      · rw [headD_eq_getD] at hhead
        rw [columnCombination_backSubstitute, mul_inv_cancel₀ hhead, one_mul, sub_self]
      · rw [← columnCombination_clearHead hp (hrest row hrow) hhead]
        exact hzero _ (List.mem_map_of_mem hrow)

theorem matOf_eq_map_finRange (rows cols : Nat) (f : Nat → Nat → Nat) :
    matOf rows cols f = (List.finRange rows).map fun i : Fin rows => (List.range cols).map (f i) := by
  rw [matOf, ← List.map_coe_finRange_eq_range (n := rows), List.map_map]
  rfl

/-- Elimination decides `det != 0` over the field (K12 of R327). -/
theorem nonsingular_iff_det (hP : P.Prime) (W : Nat) (f : Nat → Nat → Nat) :
    nonsingular P W (matOf W W f) = true ↔ (Matrix.of fun i j : Fin W => (f i j : ZMod P)).det ≠ 0 := by
  have : Fact P.Prime := ⟨hP⟩
  constructor
  · intro hns hdet
    obtain ⟨v, hv, hzero⟩ := Matrix.exists_vecMul_eq_zero_iff.2 hdet
    refine hv (funext fun i => ?_)
    have hcoeff := coefficients_eq_zero (P := P) (n := W)
      (l := (List.finRange W).map fun i => (v i, (List.range W).map (f i))) (by simp) (by simp) ?_ fun j hj => ?_
    · exact hcoeff _ (List.mem_map_of_mem (List.mem_finRange i))
    · rw [matOf_eq_map_finRange] at hns
      rwa [List.map_map]
    · have hj' := congrFun hzero ⟨j, hj⟩
      rw [rowCombination, List.map_map, ← Fin.sum_univ_def]
      simpa [Matrix.vecMul, dotProduct, hj] using hj'
  · intro hdet
    by_contra hns
    obtain ⟨x, ⟨j, hj, hx⟩, hzero⟩ := exists_columnCombination_eq_zero (P := P) (n := W) (m := matOf W W f)
      (by simp [matOf]) (by simpa using hns)
    refine hdet (Matrix.exists_mulVec_eq_zero_iff.1 ⟨fun i => x i, fun h0 => hx (congrFun h0 ⟨j, hj⟩), ?_⟩)
    funext i
    have hrow := hzero ((List.range W).map (f i)) (List.mem_map_of_mem (List.mem_range.2 i.isLt))
    rw [columnCombination,
      ← Fin.sum_univ_eq_sum_range fun j => (((List.range W).map (f i)).getD j 0 : ZMod P) * x j] at hrow
    simpa [Matrix.mulVec, dotProduct] using hrow

-- The other checks, row by row

/-- A check of one kind of configuration holds when it holds for that kind. -/
theorem bne_or_iff {a b : Nat} {x : Bool} : (a != b || x) = true ↔ (a = b → x = true) := by
  rw [Bool.or_eq_true, bne_iff_ne, ← imp_iff_not_or]

theorem k2_iff : s.k2 = true ↔ 1 ≤ s.rf := decide_eq_true_iff

theorem k3_iff : s.k3 = true ↔ s.rcLen ≤ s.geom.maxRc ∧ s.orcLen ≤ s.geom.maxRc ∧ s.spLen ≤ s.geom.maxRp ∧
    s.chainLen ≤ s.geom.maxChain := by
  simp only [State.k3, Bool.and_eq_true, decide_eq_true_eq, and_assoc]

theorem k4_iff : s.k4 = true ↔ (s.csr.family.toNat = 0 → s.rp = 0 ∧ s.rcLen = 2 * s.rf + 1) := by
  simp only [State.k4, bne_or_iff, Bool.and_eq_true, beq_iff_eq]

theorem k5_iff : s.k5 = true ↔ (s.csr.family.toNat = 3 → s.rp = 0 ∧ s.rcLen = 2 * s.rf) := by
  simp only [State.k5, bne_or_iff, Bool.and_eq_true, beq_iff_eq]

theorem k6_iff : s.k6 = true ↔
    (s.csr.family.toNat = 1 → Even s.rf ∧ 1 ≤ s.rp ∧ s.rcLen = s.rf + s.rp) := by
  simp only [State.k6, bne_or_iff, Bool.and_eq_true, beq_iff_eq, decide_eq_true_eq, Nat.even_iff, and_assoc]

theorem k7_iff : s.k7 = true ↔ (s.csr.family.toNat = 2 → Even s.rf ∧ 1 ≤ s.rp ∧ s.rcLen = s.rf + s.rp ∧
    (s.geom.W = 2 ∨ s.geom.W = 3 ∨ s.geom.W % 4 = 0)) := by
  rw [State.k7, bne_or_iff]
  simp only [Bool.and_eq_true, Bool.or_eq_true, beq_iff_eq, decide_eq_true_eq, Nat.even_iff, and_assoc, or_assoc]

theorem k8_iff : s.k8 = true ↔ s.csr.sboxinv.toNat = 1 ∨ s.csr.sboxinv.toNat = 2 := by
  simp only [State.k8, Bool.or_eq_true, beq_iff_eq]

theorem invertsFive_iff {e : Nat} : invertsFive P e = true ↔ 5 * e ≡ 1 [MOD P - 1] := beq_iff_eq

theorem k9_iff : s.k9 = true ↔
    (s.csr.sboxinv.toNat = 1 → 1 ≤ s.expValue ∧ 5 * s.expValue ≡ 1 [MOD s.geom.P - 1]) := by
  simp only [State.k9, bne_or_iff, Bool.and_eq_true, decide_eq_true_eq, invertsFive_iff]

/-- What it means that a step is valid where it stands (R162). -/
theorem chainStepValid_iff {t : Nat} {w : Word} : chainStepValid t w = true ↔
    (∃ i, decodeStep w = .ok (.double i) ∧ i ≤ t) ∨
      ∃ l r, decodeStep w = .ok (.add l r) ∧ l ≤ t ∧ r ≤ t := by
  unfold chainStepValid
  rcases decodeStep w with e | i | ⟨l, r⟩ <;> simp

/-- A chain is valid when every step is (R162). -/
theorem chainValidFrom_iff {ws : List Word} {k : Nat} :
    chainValidFrom k ws = true ↔ ∀ i (hi : i < ws.length), chainStepValid (k + i) ws[i] = true := by
  refine ⟨fun h i => chainStepValid_getElem h, fun h => ?_⟩
  induction ws generalizing k with
  | nil => rfl
  | cons w ws ih =>
    refine Bool.and_eq_true_iff.2 ⟨h 0 (Nat.succ_pos _), ih fun i hi => ?_⟩
    rw [Nat.add_right_comm]
    exact h (i + 1) (Nat.succ_lt_succ hi)

theorem k10_iff : s.k10 = true ↔ (s.csr.sboxinv.toNat = 2 → ∀ t, t < s.chainLen →
    (∃ i, decodeStep (s.chainWord t) = .ok (.double i) ∧ i ≤ t) ∨
      ∃ l r, decodeStep (s.chainWord t) = .ok (.add l r) ∧ l ≤ t ∧ r ≤ t) := by
  rw [State.k10, bne_or_iff, chainValidFrom_iff]
  simp [State.chainWords, chainStepValid_iff]

theorem k11_iff : s.k11 = true ↔
    (s.csr.sboxinv.toNat = 2 → 5 * chainExponent s.chainWords ≡ 1 [MOD s.geom.P - 1]) := by
  simp only [State.k11, bne_or_iff, invertsFive_iff]

theorem k12_iff (hP : s.geom.P.Prime) : s.k12 = true ↔ (s.csr.family.toNat ≠ 2 →
    (Matrix.of fun i j : Fin s.geom.W => (s.entry .mds (i.val * s.geom.W + j.val) : ZMod s.geom.P)).det ≠ 0) := by
  rw [State.k12, Bool.or_eq_true, beq_iff_eq, State.matrix, State.matrixAt, nonsingular_iff_det hP,
    ← or_iff_not_imp_left]
  simp only [Nat.zero_add]

-- K13: the optimisation bundle

theorem opt_iff : s.opt = true ↔ s.csr.ctrl = 1 := beq_iff_eq

/-- A check of every index but 0 up to a length. -/
theorem all_range_ne_zero_iff {n : Nat} {p : Nat → Bool} :
    ((List.range n).all fun j => j == 0 || p j) = true ↔ ∀ j, 1 ≤ j → j < n → p j = true := by
  simp only [List.all_eq_true, List.mem_range, Bool.or_eq_true, beq_iff_eq, Nat.one_le_iff_ne_zero,
    or_iff_not_imp_left]
  exact forall_congr' fun j => ⟨fun h h0 hj => h hj h0, fun h hj h0 => h h0 hj⟩

theorem matrix_entry (sp : Space) {i j : Nat} (hi : i < s.geom.W) (hj : j < s.geom.W) :
    (s.matrix sp).entry i j = s.entry sp (i * s.geom.W + j) := by
  rw [State.matrix, State.matrixAt, matOf_entry _ hi hj, Nat.zero_add]

/-- The first row and the first column of `MPRIME` are those of the identity (R296). -/
theorem mprimeShape_iff (hW : 0 < s.geom.W) : s.mprimeShape = true ↔ s.entry .mprime 0 = 1 ∧
    ∀ j, 1 ≤ j → j < s.geom.W → s.entry .mprime j = 0 ∧ s.entry .mprime (j * s.geom.W) = 0 := by
  rw [State.mprimeShape, Bool.and_eq_true, all_range_ne_zero_iff, beq_iff_eq, matrix_entry _ hW hW, Nat.zero_mul]
  refine and_congr_right fun _ => forall₃_congr fun j _ hj => ?_
  rw [Bool.and_eq_true, beq_iff_eq, beq_iff_eq, matrix_entry _ hW hj, matrix_entry _ hj hW, Nat.zero_mul, Nat.zero_add,
    Nat.add_zero]

theorem sparseMatrix_entry (k : Nat) {i j : Nat} (hi : i < s.geom.W) (hj : j < s.geom.W) :
    (s.sparseMatrix k).entry i j = s.entry .sparse (k * s.geom.W * s.geom.W + i * s.geom.W + j) :=
  matOf_entry _ hi hj

/-- Sparse matrix `k` is the identity off its first row and column (R181, R296). -/
theorem sparseShape_iff (k : Nat) : sparseShape s.geom.W (s.sparseMatrix k) = true ↔
    ∀ i j, 1 ≤ i → i < s.geom.W → 1 ≤ j → j < s.geom.W →
      s.entry .sparse (k * s.geom.W * s.geom.W + i * s.geom.W + j) = if i = j then 1 else 0 := by
  simp only [sparseShape, List.all_eq_true, List.mem_range, Bool.or_assoc, Bool.or_eq_true, beq_iff_eq,
    Nat.one_le_iff_ne_zero]
  refine ⟨fun h i j hi0 hi hj0 hj => ?_, fun h i hi j hj => ?_⟩
  · rw [← sparseMatrix_entry k hi hj]
    exact ((h i hi j hj).resolve_left hi0).resolve_left hj0
  · rw [sparseMatrix_entry k hi hj, or_iff_not_imp_left, or_iff_not_imp_left]
    exact fun hi0 hj0 => h i j hi0 hi hj0 hj

/-- The single constants of the optimised partial rounds (R296). -/
theorem orcShape_iff : s.orcShape = true ↔ ∀ k j, 1 ≤ k → k < s.rp → 1 ≤ j → j < s.geom.W →
    s.entry .orc ((s.rf / 2 + k) * s.geom.W + j) = 0 := by
  simp only [State.orcShape, all_range_ne_zero_iff, beq_iff_eq, State.half]
  exact ⟨fun h k j hk hk' => h k hk hk' j, fun h k hk hk' j => h k j hk hk'⟩

theorem k13_iff (hW : 0 < s.geom.W) : s.k13 = true ↔ (s.csr.family.toNat = 1 → s.csr.ctrl = 1 →
    s.orcLen = s.rf + s.rp ∧ s.spLen = s.rp ∧ s.entry .mprime 0 = 1 ∧
    (∀ j, 1 ≤ j → j < s.geom.W → s.entry .mprime j = 0 ∧ s.entry .mprime (j * s.geom.W) = 0) ∧
    (∀ k i j, k < s.rp → 1 ≤ i → i < s.geom.W → 1 ≤ j → j < s.geom.W →
      s.entry .sparse (k * s.geom.W * s.geom.W + i * s.geom.W + j) = if i = j then 1 else 0) ∧
    ∀ k j, 1 ≤ k → k < s.rp → 1 ≤ j → j < s.geom.W → s.entry .orc ((s.rf / 2 + k) * s.geom.W + j) = 0) := by
  rw [State.k13, Bool.or_eq_true, Bool.not_eq_true', ← Bool.not_eq_true, ← imp_iff_not_or]
  simp only [Bool.and_eq_true, beq_iff_eq, opt_iff, and_assoc, and_imp, mprimeShape_iff hW, orcShape_iff,
    List.all_eq_true, List.mem_range, sparseShape_iff]
  have hsparse {p : Nat → Nat → Nat → Prop} :
      (∀ k, k < s.rp → ∀ i j, p k i j) ↔ ∀ k i j, k < s.rp → p k i j :=
    ⟨fun h k i j hk => h k hk i j, fun h k hk i j => h k i j hk⟩
  rw [hsparse]

/-- Settles O24: each check is its row of the table. -/
theorem commitChecksMean : Obligations.CommitChecksMean := by
  intro s hg W family sboxinv
  have hW : 0 < s.geom.W := Nat.lt_of_lt_of_le (by decide) hg.twoLeW
  simp only [State.commitChecks, Bool.and_eq_true, and_assoc, k2_iff, k3_iff, k4_iff, k5_iff, k6_iff, k7_iff, k8_iff,
    k9_iff, k10_iff, k11_iff, k12_iff hg.prime, k13_iff hW]
  rfl

end Sys2Proof.Machine
